-- ==== Sys2Proof/Word.lean ====
section
/-! DEFINITION. The word types of the block and the mask of rule R6 of spec/00_scope.md. -/

namespace Sys2Proof

/-- A channel byte, and a sample of a plane (R5, `BYTE` = 8). -/
abbrev Byte := BitVec 8

/-- A control register, and the data operand of a command (R5, `BITS_W` = `DIM_W` = 16). -/
abbrev Half := BitVec 16

/-- A command word, and a response word (R5, `CMD_W` = `RSP_W` = 32). -/
abbrev Word := BitVec 32

/-- `mask(k) = 2^k - 1`, the k low bits set (R6). -/
def mask (k : Nat) : Nat := 2 ^ k - 1

end Sys2Proof
end

