-- ==== Sys2Proof/Syntax.lean ====
section
/-! DEFINITION. The seven commands of spec/opcode_table.json, one constructor each. -/

namespace Sys2Proof

/-- The direction of a context: `D[0]` of OPEN, and the DIR flag (R28). -/
inductive Dir where
  /-- W, the write direction, bit value 0. -/
  | write
  /-- R, the read direction, bit value 1. -/
  | read
  deriving DecidableEq, Repr

/-- A command (R81 to R83). A bit count and a register index are natural numbers (R93), bounded by
`WellFormed`; a data operand is its 16 bits. -/
inductive Instr where
  /-- WRITE_BITS `bits, n` (R101). -/
  | writeBits (bits : Half) (n : Nat)
  /-- FLUSH (R105). -/
  | flush
  /-- READ_BITS `n` (R122). -/
  | readBits (n : Nat)
  /-- OPEN `dir` (R170). -/
  | openCtx (dir : Dir)
  /-- WRREG `reg, value` (R171). -/
  | wrreg (reg : Nat) (value : Half)
  /-- RDREG `reg` (R172). -/
  | rdreg (reg : Nat)
  /-- FRAME_LOAD (R147). -/
  | frameLoad
  deriving DecidableEq, Repr

end Sys2Proof
end

