-- ==== Sys2Proof/WellFormed.lean ====
section
/-! DEFINITION. Which commands fit their fields (spec/30_encoding.md R91): a bit count or a register
index is at most 31. Counts of 25 to 31 and indices of 0x0A to 0x1F exist as words and fault. -/

namespace Sys2Proof

/-- The assembler's check of rule R91, as a Bool. -/
def Instr.fits : Instr → Bool
  | .writeBits _ n => decide (n ≤ 31)
  | .flush => true
  | .readBits n => decide (n ≤ 31)
  | .openCtx _ => true
  | .wrreg reg _ => decide (reg ≤ 31)
  | .rdreg reg => decide (reg ≤ 31)
  | .frameLoad => true

/-- The command fits the fields of its format (R82, R91). -/
abbrev WellFormed (i : Instr) : Prop := i.fits = true

end Sys2Proof
end

