-- ==== Sys2Proof/Decode.lean ====
section
/-! DEFINITION. The command decoder of spec/30_encoding.md (R81 to R83, R87, R88; R89 steps 2 and 3)
and, after it, the encoder. Steps 1 and 4 of R89 look at state or at a register index and stand in the
meanings. -/

namespace Sys2Proof

/-- The two ways a word fails to decode: both raise IllegalCommand. -/
inductive DecodeError where
  /-- OP is 0x0 or 0x8 to 0xF (R87). -/
  | reservedOpcode
  /-- RSV, or a field the format says must be 0, is not 0 (R88). -/
  | reservedField
  deriving DecidableEq, Repr

/-- OP, bits 31:28 (R81). -/
def opField (w : Word) : BitVec 4 := w.extractLsb' 28 4

/-- RSV, bits 27:21 (R81). -/
def rsvField (w : Word) : BitVec 7 := w.extractLsb' 21 7

/-- A, bits 20:16 (R81). -/
def aField (w : Word) : BitVec 5 := w.extractLsb' 16 5

/-- D, bits 15:0 (R81). -/
def dField (w : Word) : Half := w.extractLsb' 0 16

/-- The direction of bit `D[0]` (R82, format O). -/
def dirOfBit (b : Bool) : Dir := if b then .read else .write

/-- The bit that stands for a direction (R28): 0 = W, 1 = R. -/
def Dir.bit : Dir → Bool
  | .write => false
  | .read => true

/-- Answer `i` where the format's must-be-zero fields are zero, refuse by R88 otherwise. -/
def checked (zero : Bool) (i : Instr) : Except DecodeError Instr :=
  if zero then .ok i else .error .reservedField

/-- Decode one command word (R83, R87, R88), total, in the order of R89 steps 2 and 3. -/
def decode (w : Word) : Except DecodeError Instr :=
  match (opField w).toNat with
  | 1 => checked (rsvField w == 0) (.writeBits (dField w) (aField w).toNat)
  | 2 => checked (rsvField w == 0 && aField w == 0 && dField w == 0) .flush
  | 3 => checked (rsvField w == 0 && dField w == 0) (.readBits (aField w).toNat)
  | 4 => checked (rsvField w == 0 && aField w == 0 && (dField w).extractLsb' 1 15 == 0)
      (.openCtx (dirOfBit ((dField w).getLsbD 0)))
  | 5 => checked (rsvField w == 0) (.wrreg (aField w).toNat (dField w))
  | 6 => checked (rsvField w == 0 && dField w == 0) (.rdreg (aField w).toNat)
  | 7 => checked (rsvField w == 0 && aField w == 0 && dField w == 0) .frameLoad
  | _ => .error .reservedOpcode

/-- The word of an OP, an A and a D field, with RSV = 0 (R81). -/
def packWord (op : BitVec 4) (a : BitVec 5) (d : Half) : Word := op ++ 0#7 ++ a ++ d

/-- The word of a command (R82, R83). -/
def encode : Instr → Word
  | .writeBits bits n => packWord 0x1#4 (BitVec.ofNat 5 n) bits
  | .flush => packWord 0x2#4 0#5 0#16
  | .readBits n => packWord 0x3#4 (BitVec.ofNat 5 n) 0#16
  | .openCtx dir => packWord 0x4#4 0#5 (0#15 ++ BitVec.ofBool dir.bit)
  | .wrreg reg value => packWord 0x5#4 (BitVec.ofNat 5 reg) value
  | .rdreg reg => packWord 0x6#4 (BitVec.ofNat 5 reg) 0#16
  | .frameLoad => packWord 0x7#4 0#5 0#16

/-- A row of the opcode map (R83): a word is well-formed for it when `w & mask = bits`. -/
structure OpcodeRow where
  bits : Word
  care : Word
  deriving DecidableEq, Repr

/-- The word is well-formed for the row (R83). -/
abbrev OpcodeRow.Fits (r : OpcodeRow) (w : Word) : Prop := w &&& r.care = r.bits

/-- The row of each command in the table of R83, its match and mask as printed there. -/
def rowOf : Instr → OpcodeRow
  | .writeBits _ _ => ⟨0x10000000#32, 0xFFE00000#32⟩
  | .flush => ⟨0x20000000#32, 0xFFFFFFFF#32⟩
  | .readBits _ => ⟨0x30000000#32, 0xFFE0FFFF#32⟩
  | .openCtx _ => ⟨0x40000000#32, 0xFFFFFFFE#32⟩
  | .wrreg _ _ => ⟨0x50000000#32, 0xFFE00000#32⟩
  | .rdreg _ => ⟨0x60000000#32, 0xFFE0FFFF#32⟩
  | .frameLoad => ⟨0x70000000#32, 0xFFFFFFFF#32⟩

/-- The seven rows of R83 in the table's order. -/
def opcodeRows : List OpcodeRow :=
  [rowOf (.writeBits 0 0), rowOf .flush, rowOf (.readBits 0), rowOf (.openCtx .write),
   rowOf (.wrreg 0 0), rowOf (.rdreg 0), rowOf .frameLoad]

/-- What the decoder reads from a command word given as a number whose bits above `nbits` are 0. Every
row is one whole 32-bit word, so no byte order comes in (R80). -/
def decodeTableWord (nbits w : Nat) : Option Instr :=
  match decode (BitVec.ofNat 32 (w % 2 ^ nbits)) with
  | .ok i => some i
  | .error _ => none

end Sys2Proof
end

