-- ==== Sys2Proof/Config.lean ====
section
/-! DEFINITION. What an instance of the block fixes (spec/00_scope.md R5), and the free values of
spec/93_implementation_defined.md: constants with no body, of which nothing can be proved. -/

namespace Sys2Proof

/-- The two ways FRAME_LOAD may place bytes in a padded plane (R5, R143, R144). -/
inductive FillMode where
  | linear
  | strided
  deriving DecidableEq, Repr, Inhabited

namespace Config

/-- `N_MAX`, the largest bit count of WRITE_BITS and READ_BITS (R5). -/
abbrev nMax : Nat := 24

/-- `MARKER`, the byte value that triggers stuffing (R5). -/
abbrev marker : Byte := 0xFF#8

/-- `STUFF`, the byte the writer inserts (R5). -/
abbrev stuffByte : Byte := 0x00#8

/-- FILL_MODE, the one OPEN parameter (R5, D21): fixed for an instance, unknown to every proof, so
that a claim about `exec` holds for both values. Log entry 8. -/
opaque fillMode : FillMode

/-- ACC after a fault in mid-operation, by draw (R194 (b), U6). Log entry 5. -/
opaque freeAcc : Nat → BitVec 31

/-- CNT after a fault in mid-operation, by draw (R194 (b), U6). Log entry 5. -/
opaque freeCnt : Nat → BitVec 5

/-- A plane byte a consumer reads where the spec fixes none, by draw (R61, U7, U8). Log entry 7. -/
opaque freePlaneByte : Nat → Byte

/-- How many channel operations of a command had happened when reset abandons it, by draw
(R222, U15); the step cuts it to the number the command would have made. Log entry 9. -/
opaque freeOperations : Nat → Nat

end Config

end Sys2Proof
end

