-- ==== Sys2Proof/Machine/State.lean ====
section
/-! DEFINITION. The state of the block (spec/10_state.md R44) and of the environment it answers to
(R41, spec/20_memory.md R58), as plain data, with the reset values of R42. -/

namespace Sys2Proof.Machine

/-- Why a step stops. -/
inductive Fault where
  /-- Raised by `step` when a command waits for a channel that never answers and the host's next action
  is not reset (R57, R203, U10): a stuck state, not a fault of the block. Safe: the block has no step
  there either. -/
  | channelNeverAnswers
  deriving DecidableEq, Repr

/-- Why an instruction has no meaning. -/
inductive Refusal where
  /-- Raised by `exec` for an instruction not modelled yet; no instruction is in that case. Safe. -/
  | notModelled (mnemonic : String)
  deriving DecidableEq, Repr

/-- The three plane memories (R39). -/
inductive PlaneId where
  | Y
  | U
  | V
  deriving DecidableEq, Repr

/-- A plane memory: the bytes whose value is fixed, by offset. An offset that is not listed holds an
unspecified byte (R42, R44, U7; log entry 7). -/
abbrev Memory := List Host.Cell

/-- Offsets rise strictly from `lo` on and stay below 2^32 (`OFF_W` = 32, R5). -/
def Memory.wfFrom : Nat → Memory → Bool
  | _, [] => true
  | lo, (a, _) :: rest => decide (lo ≤ a) && decide (a < 2 ^ 32) && Memory.wfFrom (a + 1) rest

/-- The canonical form of a plane memory. No entry can equal what an unlisted offset reads as, since
an unlisted offset has no value. -/
def Memory.wf (m : Memory) : Bool := Memory.wfFrom 0 m

/-- What a channel answers once its bytes are used up, for ever (R56, R57). -/
inductive Ending where
  /-- End-of-stream, persistent. -/
  | eof
  /-- The channel has failed. -/
  | error
  /-- The channel never answers (R57, U10). -/
  | silent
  deriving DecidableEq, Repr

/-- A read side: the bytes still to be pulled, then its ending (R58). -/
structure Source where
  bytes : List Byte
  ending : Ending
  deriving DecidableEq, Repr

/-- How ECH's write side answers the pushes to come (R53, R57, R58). -/
inductive SinkPlan where
  /-- Every push answers `ok`. -/
  | accepts
  /-- `n` pushes answer `ok`, every later one `error`. -/
  | failsAfter (n : Nat)
  /-- `n` pushes answer `ok`, every later one never answers. -/
  | silentAfter (n : Nat)
  deriving DecidableEq, Repr

/-- The channels (R52): ECH's write side with the stream written so far, oldest byte first, ECH's read
side, and FCH. -/
structure Channels where
  sinkOut : List Byte
  sinkPlan : SinkPlan
  ech : Source
  fch : Source
  deriving DecidableEq, Repr

/-- What the host, or the consumer of the planes, does next (R62, R61, R232). -/
inductive Event where
  /-- The host hands over a command word and waits for its response. -/
  | command (w : Word)
  /-- The host hands over a command word and resets the block before it responds (R222). -/
  | commandReset (w : Word)
  /-- The host resets the block (R220), also while a command waits for ever (R222). -/
  | reset
  /-- The consumer reads one byte of a plane memory (R61). -/
  | planeRead (p : PlaneId) (off : BitVec 32)
  deriving DecidableEq, Repr

/-- The state (R44): the block, then its environment, then the model's own counter of free values. -/
structure State where
  /-- ACC (R22). -/
  acc : BitVec 31
  /-- CNT (R23). -/
  cnt : BitVec 5
  /-- OPENED (R27). -/
  opened : Bool
  /-- DIR (R28). -/
  dir : Dir
  /-- FAULT.CAUSE (R30). -/
  cause : BitVec 4
  /-- FAULT.DETAIL (R30). -/
  detail : BitVec 4
  /-- WIDTH (R32). -/
  width : Half
  /-- HEIGHT (R32). -/
  height : Half
  /-- PADW_Y (R32). -/
  padwY : Half
  /-- PADH_Y (R32). -/
  padhY : Half
  /-- PADW_C (R32). -/
  padwC : Half
  /-- PADH_C (R32). -/
  padhC : Half
  /-- FRAME_VALID (R39). -/
  frameValid : Bool
  /-- Plane memory Y (R39). -/
  planeY : Memory
  /-- Plane memory U (R39). -/
  planeU : Memory
  /-- Plane memory V (R39). -/
  planeV : Memory
  /-- ECH and FCH (R52; environment, R41 (a)). -/
  chan : Channels
  /-- What the host and the consumer will do (environment, R41 (c)). -/
  events : List Event
  /-- The response words given so far, oldest first (R84). -/
  responses : List Word
  /-- The bytes the consumer has read so far, oldest first (R61). -/
  planeReads : List Byte
  /-- A command waits for ever for a channel (R203), with the channels as they were when it started
  (for R222). -/
  waiting : Option Channels
  /-- How many free values have been drawn; the model's own (log entry 5). -/
  draws : Nat
  deriving DecidableEq, Repr

/-- The machine right after reset (R42). Channels, events and histories are the environment's; their
values here are the model's (log entries 1, 3, 11 and 13). -/
def State.reset : State where
  acc := 0
  cnt := 0
  opened := false
  dir := .write
  cause := 0
  detail := 0
  width := 0
  height := 0
  padwY := 0
  padhY := 0
  padwC := 0
  padhC := 0
  frameValid := false
  planeY := []
  planeU := []
  planeV := []
  chan := { sinkOut := [], sinkPlan := .accepts, ech := ⟨[], .eof⟩, fch := ⟨[], .eof⟩ }
  events := []
  responses := []
  planeReads := []
  waiting := none
  draws := 0

end Sys2Proof.Machine
end

