-- ==== Sys2Proof/Machine/Flags.lean ====
section
/-! DEFINITION. The status flags (spec/10_state.md R31) and the register words made of them
(R34 to R36). The block has no arithmetic condition codes (R31). -/

namespace Sys2Proof.Machine

/-- FAULTED: `FAULT.CAUSE != 0` (R30). -/
def State.faulted (s : State) : Bool := s.cause != 0

/-- STATUS: OPENED, DIR, FAULTED, FRAME_VALID in bits 0 to 3, CNT in bits 8:4, zeros above (R34). -/
def State.statusWord (s : State) : Half :=
  0#7 ++ s.cnt ++ BitVec.ofBool s.frameValid ++ BitVec.ofBool s.faulted ++ BitVec.ofBool s.dir.bit
    ++ BitVec.ofBool s.opened

/-- FAULT: CAUSE in bits 3:0, DETAIL in bits 7:4, zeros above (R35). -/
def State.faultWord (s : State) : Half := 0#8 ++ s.detail ++ s.cause

/-- ACC_LO: `ACC[15:0]` (R36). -/
def State.accLoWord (s : State) : Half := s.acc.extractLsb' 0 16

/-- ACC_HI: `ACC[30:16]` in bits 14:0, bit 15 zero (R36). -/
def State.accHiWord (s : State) : Half := 0#1 ++ s.acc.extractLsb' 16 15

end Sys2Proof.Machine
end

