-- ==== Sys2Proof/Machine/Operands.lean ====
section
/-! DEFINITION. The operand forms (spec/30_encoding.md R93): the field a WRITE_BITS appends, and the
control registers an index names (spec/10_state.md R33). -/

namespace Sys2Proof.Machine

/-- `zext_24(bits) & mask(n)`, the field of n bits a WRITE_BITS appends (R102, D11). -/
def fieldOf (bits : Half) (n : Nat) : Nat := (bits.zeroExtend 24).toNat &&& mask n

/-- An index of the register map (R33). -/
abbrev RegIndexValid (reg : Nat) : Prop := reg ≤ 0x09

/-- An index of the four read-only registers (R33). -/
abbrev RegReadOnly (reg : Nat) : Prop := reg ≤ 0x03

/-- `REG[reg]` as R34 to R37 define it; meant for `RegIndexValid reg`. -/
def State.regValue (s : State) (reg : Nat) : Half :=
  match reg with
  | 0x00 => s.statusWord
  | 0x01 => s.faultWord
  | 0x02 => s.accLoWord
  | 0x03 => s.accHiWord
  | 0x04 => s.width
  | 0x05 => s.height
  | 0x06 => s.padwY
  | 0x07 => s.padhY
  | 0x08 => s.padwC
  | 0x09 => s.padhC
  | _ => 0

/-- `REG[reg] <- value` for one of the six geometry registers (R37); no other index has one. -/
def State.setReg (s : State) (reg : Nat) (value : Half) : State :=
  match reg with
  | 0x04 => { s with width := value }
  | 0x05 => { s with height := value }
  | 0x06 => { s with padwY := value }
  | 0x07 => { s with padhY := value }
  | 0x08 => { s with padwC := value }
  | 0x09 => { s with padhC := value }
  | _ => s

end Sys2Proof.Machine
end

