-- ==== Sys2Proof/Machine/Ops.lean ====
section
/-! DEFINITION. The named operations every meaning is built from: the response word (R84), raising a
fault (R192, R194, R196), the channel primitives (R53 to R57), the accumulator (R24, R102, R123, R124),
the plane memories (R60), and reset (R220, R222). There is no return from a fault (R200): the only exit
is `hostReset`. -/

namespace Sys2Proof.Machine

/-! ### Responses and faults -/

/-- `RW = c, d, v` from the top (R84). -/
def responseWord (code detail : BitVec 4) (value : BitVec 24) : Word := code ++ detail ++ value

/-- `respond(c, d, v)`: the command is over (R84). -/
def respond (code detail : BitVec 4) (value : BitVec 24) (s : State) : State :=
  { s with responses := s.responses ++ [responseWord code detail value] }

/-- `respond(OK, 0, v)`. -/
def respondOk (value : BitVec 24) (s : State) : State := respond 0 0 value s

/-- `respond(EndOfStream, 0, 0)` (R85, R150). -/
def respondEndOfStream (s : State) : State := respond 2 0 0 s

/-- `respond(TruncatedFrameError, 0, 0)` (R85, R150). -/
def respondTruncated (s : State) : State := respond 3 0 0 s

/-- Every latched fault of the table of R191. -/
inductive FaultKind where
  | echPush
  | echPull
  | fchPull
  | eofAtData
  | eofAtStuffed
  | nTooLarge
  | readNZero
  | wrongDirection
  | notOpen
  | unflushedBits
  | badDimensions
  | reservedOpcode
  | reservedFieldNonzero
  | badRegisterIndex
  | readOnlyRegister
  deriving DecidableEq, Repr

/-- CODE of a fault (R85, R191): 1 ChannelError, 4 StreamDesyncError, 5 ContractViolation,
6 IllegalCommand. -/
def FaultKind.code : FaultKind → BitVec 4
  | .echPush | .echPull | .fchPull => 1
  | .eofAtData | .eofAtStuffed => 4
  | .nTooLarge | .readNZero | .wrongDirection | .notOpen | .unflushedBits | .badDimensions => 5
  | .reservedOpcode | .reservedFieldNonzero | .badRegisterIndex | .readOnlyRegister => 6

/-- DETAIL of a fault (R86, R191). -/
def FaultKind.detail : FaultKind → BitVec 4
  | .echPush => 1
  | .echPull => 2
  | .fchPull => 3
  | .eofAtData => 1
  | .eofAtStuffed => 2
  | .nTooLarge => 1
  | .readNZero => 2
  | .wrongDirection => 3
  | .notOpen => 4
  | .unflushedBits => 5
  | .badDimensions => 6
  | .reservedOpcode => 1
  | .reservedFieldNonzero => 2
  | .badRegisterIndex => 3
  | .readOnlyRegister => 4

/-- The fault a word that does not decode raises (R87, R88). -/
def decodeFault : DecodeError → FaultKind
  | .reservedOpcode => .reservedOpcode
  | .reservedField => .reservedFieldNonzero

/-- Latch a fault, where none is latched yet (R30, R192). -/
def latch (k : FaultKind) (s : State) : State :=
  if s.cause = 0 then { s with cause := k.code, detail := k.detail } else s

/-- `raise X(d)` (R192): latch, respond, and nothing else. -/
def raise (k : FaultKind) (s : State) : State := respond k.code k.detail 0 (latch k s)

/-- ACC and CNT become free values (R194 (b), U6; log entry 5). -/
def drawContext (s : State) : State :=
  { s with acc := Config.freeAcc s.draws, cnt := Config.freeCnt s.draws, draws := s.draws + 1 }

/-- A fault detected at a channel primitive (R107, R125, R194). -/
def raiseMid (k : FaultKind) (s : State) : State := raise k (drawContext s)

/-- Answer a command refused in the FAULTED state with the latched pair (R196). -/
def refuseLatched (s : State) : State := respond s.cause s.detail 0 s

/-- R89 step 1 for every command but a valid RDREG. -/
def unlessFaulted (body : State → State) (s : State) : State :=
  if s.faulted then refuseLatched s else body s

/-- The command waits for ever (R57, R203); `start` are the channels it started with. -/
def hang (start : Channels) (s : State) : State := { s with waiting := some start }

/-! ### Channel primitives -/

/-- The answers of `SinkPush` (R53), and silence (R57). -/
inductive PushAnswer where
  | ok (c : Channels)
  | error
  | silent
  deriving DecidableEq, Repr

/-- `SinkPush(b)` on the channels (R53). -/
def Channels.push (b : Byte) (c : Channels) : PushAnswer :=
  match c.sinkPlan with
  | .accepts => .ok { c with sinkOut := c.sinkOut ++ [b] }
  | .failsAfter 0 => .error
  | .failsAfter (n + 1) => .ok { c with sinkOut := c.sinkOut ++ [b], sinkPlan := .failsAfter n }
  | .silentAfter 0 => .silent
  | .silentAfter (n + 1) => .ok { c with sinkOut := c.sinkOut ++ [b], sinkPlan := .silentAfter n }

/-- The answers of `SrcPull` and `FPull` (R54, R55), and silence (R57). -/
inductive PullAnswer where
  | byte (b : Byte) (rest : Source)
  | eof
  | error
  | silent
  deriving DecidableEq, Repr

/-- One pull on a read side (R54, R55, R56). -/
def Source.pull (src : Source) : PullAnswer :=
  match src.bytes with
  | b :: bs => .byte b { src with bytes := bs }
  | [] =>
    match src.ending with
    | .eof => .eof
    | .error => .error
    | .silent => .silent

/-- A part of a command that either goes on or has ended the command (by a fault, or by waiting for
ever). -/
inductive Flow where
  | cont (s : State)
  | over (s : State)
  deriving DecidableEq, Repr

/-- Go on with `f` unless the command is over. -/
def Flow.andThen (r : Flow) (f : State → Flow) : Flow :=
  match r with
  | .cont s => f s
  | .over s => .over s

/-- The state at the command's end, `f` making the last step where it is not over. -/
def Flow.finish (r : Flow) (f : State → State) : State :=
  match r with
  | .cont s => f s
  | .over s => s

/-- `SinkPush(b)` inside a command (R53, R107). -/
def sinkPush (start : Channels) (b : Byte) (s : State) : Flow :=
  match s.chan.push b with
  | .ok c => .cont { s with chan := c }
  | .error => .over (raiseMid .echPush s)
  | .silent => .over (hang start s)

/-- A pull inside a command: a byte, end-of-stream, or the command is over. -/
inductive Pulled where
  | byte (b : Byte) (s : State)
  | eof
  | over (s : State)
  deriving DecidableEq, Repr

/-- `SrcPull()` inside a command (R54, R125). -/
def srcPull (start : Channels) (s : State) : Pulled :=
  match s.chan.ech.pull with
  | .byte b rest => .byte b { s with chan := { s.chan with ech := rest } }
  | .eof => .eof
  | .error => .over (raiseMid .echPull s)
  | .silent => .over (hang start s)

/-- Every byte of the three plane memories becomes unspecified (R151). -/
def forgetPlanes (s : State) : State := { s with planeY := [], planeU := [], planeV := [] }

/-- `FPull()` inside a command (R55, R154). -/
def fPull (start : Channels) (s : State) : Pulled :=
  match s.chan.fch.pull with
  | .byte b rest => .byte b { s with chan := { s.chan with fch := rest } }
  | .eof => .eof
  | .error => .over (raiseMid .fchPull (forgetPlanes s))
  | .silent => .over (hang start s)

/-! ### The accumulator -/

/-- Write ACC and CNT with exact results, narrowed to their registers (R8, R26). -/
def setContext (acc cnt : Nat) (s : State) : State :=
  { s with acc := BitVec.ofNat 31 acc, cnt := BitVec.ofNat 5 cnt }

/-- `append(bits, n)` (R102). -/
def appendBits (bits : Half) (n : Nat) (s : State) : State :=
  setContext ((s.acc.toNat <<< n) ||| fieldOf bits n) (s.cnt.toNat + n) s

/-- The new byte goes in at the low end (R123). -/
def appendByte (b : Byte) (s : State) : State :=
  setContext ((s.acc.toNat <<< 8) ||| b.toNat) (s.cnt.toNat + 8) s

/-- `ACC >> (CNT - n)`, the n oldest held bits (R103, R124). -/
def oldestBits (n : Nat) (s : State) : Nat := s.acc.toNat >>> (s.cnt.toNat - n)

/-- `CNT <- CNT - n; ACC <- ACC & mask(CNT)` (R103, R124). -/
def dropOldest (n : Nat) (s : State) : State :=
  setContext (s.acc.toNat &&& mask (s.cnt.toNat - n)) (s.cnt.toNat - n) s

/-! ### Plane memories -/

/-- The fixed byte at an offset, none where it is unspecified. -/
def Memory.read (off : Nat) : Memory → Option Byte
  | [] => none
  | (a, b) :: rest => if a = off then some b else Memory.read off rest

/-- Set the byte at an offset, keeping the offsets in rising order. -/
def Memory.write (off : Nat) (v : Byte) : Memory → Memory
  | [] => [(off, v)]
  | (a, b) :: rest =>
    if off < a then (off, v) :: (a, b) :: rest
    else if off = a then (off, v) :: rest
    else (a, b) :: Memory.write off v rest

/-- The plane memory of a name (R39). -/
def State.plane (s : State) : PlaneId → Memory
  | .Y => s.planeY
  | .U => s.planeU
  | .V => s.planeV

/-- Replace a plane memory. -/
def State.setPlane (s : State) (p : PlaneId) (m : Memory) : State :=
  match p with
  | .Y => { s with planeY := m }
  | .U => { s with planeU := m }
  | .V => { s with planeV := m }

/-- `MemRead(P:off, 1)` (R60): none where the byte is unspecified. -/
def memRead (p : PlaneId) (off : Nat) (s : State) : Option Byte := Memory.read off (s.plane p)

/-- `MemWrite(P:off, 1, v)` (R60). -/
def memWrite (p : PlaneId) (off : Nat) (v : Byte) (s : State) : State :=
  s.setPlane p (Memory.write off v (s.plane p))

/-! ### Reset -/

/-- The answers of the write side after `k` accepted pushes. -/
def SinkPlan.after (k : Nat) : SinkPlan → SinkPlan
  | .accepts => .accepts
  | .failsAfter n => .failsAfter (n - k)
  | .silentAfter n => .silentAfter (n - k)

/-- How many bytes a command has moved: from the channels it started with to those it left. -/
def Channels.operations (start done : Channels) : Nat :=
  (done.sinkOut.length - start.sinkOut.length) + (start.ech.bytes.length - done.ech.bytes.length)
    + (start.fch.bytes.length - done.fch.bytes.length)

/-- The channels after only the first `k` of the bytes a command has moved (R222, U15). A command moves
bytes on one of the three streams only (R108, R156). -/
def Channels.partway (k : Nat) (start done : Channels) : Channels :=
  let pushes := min k (done.sinkOut.length - start.sinkOut.length)
  let pulls := min k (start.ech.bytes.length - done.ech.bytes.length)
  let fpulls := min k (start.fch.bytes.length - done.fch.bytes.length)
  { sinkOut := start.sinkOut ++ (done.sinkOut.drop start.sinkOut.length).take pushes
    sinkPlan := start.sinkPlan.after pushes
    ech := { start.ech with bytes := start.ech.bytes.drop pulls }
    fch := { start.fch with bytes := start.fch.bytes.drop fpulls } }

/-- Put the block's own state at the values of R42. The planes become unspecified; the channels, the
host's plan and the histories stay (R220). -/
def resetBlock (s : State) : State :=
  { State.reset with
    chan := s.chan, events := s.events, responses := s.responses, planeReads := s.planeReads,
    draws := s.draws }

/-- Reset while a command runs that started with the channels `start` (R222): a free number of its
channel operations has happened, and there is no response for it. -/
def abandon (start : Channels) (s : State) : State :=
  let k := Config.freeOperations s.draws % (start.operations s.chan + 1)
  resetBlock { s with chan := start.partway k s.chan, draws := s.draws + 1 }

/-- The reset action (R220), also when it ends a command that waits for ever (R222). -/
def hostReset (s : State) : State :=
  match s.waiting with
  | none => resetBlock s
  | some start => abandon start s

end Sys2Proof.Machine
end

