-- ==== Sys2Proof/Machine/Control.lean ====
section
/-! DEFINITION. The control commands OPEN, WRREG and RDREG (spec/43_control.md). -/

namespace Sys2Proof.Machine

/-- A writer context still holds bits (R170). -/
abbrev State.HoldsUnflushedBits (s : State) : Prop :=
  s.opened = true ∧ s.dir = .write ∧ s.cnt ≠ 0

/-- A fresh context in the given direction (R170, D8). -/
def freshContext (dir : Dir) (s : State) : State :=
  { setContext 0 0 s with dir := dir, opened := true }

/-- OPEN `dir` (R170). -/
def execOpenCtx (dir : Dir) (s : State) : Host.Outcome State Fault Refusal :=
  .next <| s |> unlessFaulted fun s =>
    if s.HoldsUnflushedBits then raise .unflushedBits s
    else respondOk 0 (freshContext dir s)

/-- WRREG `reg, value` (R171). -/
def execWrreg (reg : Nat) (value : Half) (s : State) : Host.Outcome State Fault Refusal :=
  .next <| s |> unlessFaulted fun s =>
    if ¬ RegIndexValid reg then raise .badRegisterIndex s
    else if RegReadOnly reg then raise .readOnlyRegister s
    else respondOk 0 { s.setReg reg value with frameValid := false }

/-- RDREG `reg` (R172): with a valid index it executes in the FAULTED state too (R89 step 1, R196). -/
def execRdreg (reg : Nat) (s : State) : Host.Outcome State Fault Refusal :=
  .next <|
    if RegIndexValid reg then respondOk ((s.regValue reg).zeroExtend 24) s
    else unlessFaulted (raise .badRegisterIndex) s

end Sys2Proof.Machine
end

