-- ==== Sys2Proof/Machine/Layout.lean ====
section
/-! DEFINITION. The frame layout interpreter's pure functions of the six geometry registers
(spec/42_frame_layout.md R140 to R146). All arithmetic is over the naturals (R8). -/

namespace Sys2Proof.Machine

/-- `lw(P)` (R140). -/
def State.logicalWidth (s : State) : PlaneId → Nat
  | .Y => s.width.toNat
  | .U => s.width.toNat / 2
  | .V => s.width.toNat / 2

/-- `lh(P)` (R140). -/
def State.logicalHeight (s : State) : PlaneId → Nat
  | .Y => s.height.toNat
  | .U => s.height.toNat / 2
  | .V => s.height.toNat / 2

/-- `N(P)`, the bytes of a plane in the stream (R140). -/
def State.sampleCount (s : State) : PlaneId → Nat
  | .Y => s.width.toNat * s.height.toNat
  | .U => s.width.toNat * s.height.toNat / 4
  | .V => s.width.toNat * s.height.toNat / 4

/-- `NF`, the bytes of one frame in the stream (R140). -/
def State.frameBytes (s : State) : Nat := s.sampleCount .Y + s.sampleCount .U + s.sampleCount .V

/-- `pw(P)` (R141). -/
def State.paddedWidth (s : State) : PlaneId → Nat
  | .Y => s.padwY.toNat
  | .U => s.padwC.toNat
  | .V => s.padwC.toNat

/-- `ph(P)` (R141). -/
def State.paddedHeight (s : State) : PlaneId → Nat
  | .Y => s.padhY.toNat
  | .U => s.padhC.toNat
  | .V => s.padhC.toNat

/-- `SIZE(P)` (R141). -/
def State.planeSize (s : State) (p : PlaneId) : Nat := s.paddedWidth p * s.paddedHeight p

/-- `Segment(i)`: which plane byte `i` of a frame belongs to, and which sample of it (R142). -/
def State.segment (s : State) (i : Nat) : PlaneId × Nat :=
  if i < s.sampleCount .Y then (.Y, i)
  else if i < s.sampleCount .Y + s.sampleCount .U then (.U, i - s.sampleCount .Y)
  else (.V, i - s.sampleCount .Y - s.sampleCount .U)

/-- `Off_FILL_MODE(P, k)`, the offset of sample `k` of plane `P` (R143, R144). -/
def State.offsetOf (s : State) (mode : FillMode) (p : PlaneId) (k : Nat) : Nat :=
  match mode with
  | .linear => k
  | .strided => (k / s.logicalWidth p) * s.paddedWidth p + k % s.logicalWidth p

/-- `Place(i)` (R145). -/
def State.place (s : State) (mode : FillMode) (i : Nat) : PlaneId × Nat :=
  ((s.segment i).1, s.offsetOf mode (s.segment i).1 (s.segment i).2)

/-- The geometry registers are legal (R146). -/
abbrev State.GeometryLegal (s : State) : Prop :=
  (2 ≤ s.width.toNat ∧ s.width.toNat % 2 = 0) ∧ (2 ≤ s.height.toNat ∧ s.height.toNat % 2 = 0) ∧
  (s.width.toNat ≤ s.padwY.toNat ∧ s.height.toNat ≤ s.padhY.toNat) ∧
  (s.width.toNat / 2 ≤ s.padwC.toNat ∧ s.height.toNat / 2 ≤ s.padhC.toNat)

end Sys2Proof.Machine
end

