-- ==== Sys2Proof/Machine/Frame.lean ====
section
/-! DEFINITION. FRAME_LOAD (spec/42_frame_layout.md R147 to R156), and the consumer's read of a plane
memory (spec/20_memory.md R61). -/

namespace Sys2Proof.Machine

/-- Write 0x00 at the offsets below `n` (R148); the order of the writes cannot be observed (D23). -/
def Memory.zeroBelow : Nat → Memory → Memory
  | 0, m => m
  | n + 1, m => Memory.zeroBelow n (Memory.write n 0x00#8 m)

/-- Zero one plane up to its padded size (R148). -/
def zeroPlane (p : PlaneId) (s : State) : State :=
  s.setPlane p (Memory.zeroBelow (s.planeSize p) (s.plane p))

/-- `zero_fill()` (R148). -/
def zeroFill (s : State) : State := zeroPlane .V (zeroPlane .U (zeroPlane .Y s))

/-- How the pull loop of R149 ends: with the count of bytes stored, or with the command over. -/
inductive Loaded where
  | stopped (i : Nat) (s : State)
  | over (s : State)
  deriving DecidableEq, Repr

/-- Store byte `i` of the frame (R149). -/
def storeByte (mode : FillMode) (i : Nat) (b : Byte) (s : State) : State :=
  memWrite (s.place mode i).1 (s.place mode i).2 b s

/-- The pull loop of R149: at most `k` more pulls, `i` bytes stored so far. -/
def loadLoop (mode : FillMode) (start : Channels) : Nat → Nat → State → Loaded
  | 0, i, s => .stopped i s
  | k + 1, i, s =>
    match fPull start s with
    | .byte b t => loadLoop mode start k (i + 1) (storeByte mode i b t)
    | .eof => .stopped i s
    | .over t => .over t

/-- `classify(i)` (R150, R151). -/
def classify (i : Nat) (s : State) : State :=
  if i = s.frameBytes then respondOk 0 { s with frameValid := true }
  else if i = 0 then respondEndOfStream (forgetPlanes s)
  else respondTruncated (forgetPlanes s)

/-- The end of the command, from how the pull loop ended (R147). -/
def Loaded.finish : Loaded → State
  | .stopped i s => classify i s
  | .over s => s

/-- FRAME_LOAD after its geometry check (R147). -/
def loadFrame (mode : FillMode) (s : State) : State :=
  (loadLoop mode s.chan s.frameBytes 0 (zeroFill { s with frameValid := false })).finish

/-- FRAME_LOAD of a block whose FILL_MODE is `mode` (R147). -/
def frameLoadIn (mode : FillMode) (s : State) : State :=
  s |> unlessFaulted fun s =>
    if s.GeometryLegal then loadFrame mode s else raise .badDimensions s

/-- FRAME_LOAD (R147), FILL_MODE being the instance's (D21). -/
def execFrameLoad (s : State) : Host.Outcome State Fault Refusal :=
  .next (frameLoadIn Config.fillMode s)

/-- The byte a consumer may rely on: a byte of a valid frame (R39, R61, U8). -/
def consumerByte (p : PlaneId) (off : Nat) (s : State) : Option Byte :=
  if s.frameValid = true ∧ off < s.planeSize p then memRead p off s else none

/-- The consumer reads one plane byte: the frame's byte, or a free value (R61, U7, U8). -/
def consumerRead (p : PlaneId) (off : BitVec 32) (s : State) : State :=
  match consumerByte p off.toNat s with
  | some b => { s with planeReads := s.planeReads ++ [b] }
  | none =>
    { s with planeReads := s.planeReads ++ [Config.freePlaneByte s.draws], draws := s.draws + 1 }

end Sys2Proof.Machine
end

