-- ==== Sys2Proof/Machine/Reader.lean ====
section
/-! DEFINITION. The entropy reader: READ_BITS (spec/41_reader.md). -/

namespace Sys2Proof.Machine

/-- The preconditions of the reader, in the order of R120. -/
def asReader (body : State → State) (s : State) : State :=
  if s.opened = false then raise .notOpen s
  else if s.dir ≠ .read then raise .wrongDirection s
  else body s

/-- Pull and discard the byte after a marker, without looking at it (R123, D15). -/
def discardStuffed (start : Channels) (s : State) : Flow :=
  match srcPull start s with
  | .byte _ t => .cont t
  | .eof => .over (raiseMid .eofAtStuffed s)
  | .over t => .over t

/-- One round of the loop of R123: a data byte, and its stuffed byte if it is a marker. -/
def fillByte (start : Channels) (s : State) : Flow :=
  match srcPull start s with
  | .byte b t =>
    (if b = Config.marker then discardStuffed start t else .cont t).andThen fun u =>
      .cont (appendByte b u)
  | .eof => .over (raiseMid .eofAtData s)
  | .over t => .over t

/-- `k` rounds of the loop of R123. -/
def fillRounds (start : Channels) : Nat → State → Flow
  | 0, s => .cont s
  | k + 1, s => (fillByte start s).andThen (fillRounds start k)

/-- `fill(n)`: the loop of R123 runs `ceil((n - CNT) / 8)` times where `n > CNT`, else never. -/
def fill (start : Channels) (n : Nat) (s : State) : Flow :=
  fillRounds start ((n - s.cnt.toNat + 7) / 8) s

/-- `extract(n)` and the response that carries its value (R122, R124). -/
def extractAndRespond (n : Nat) (s : State) : State :=
  respondOk (BitVec.ofNat 24 (oldestBits n s)) (dropOldest n s)

/-- READ_BITS `n` (R122). -/
def execReadBits (n : Nat) (s : State) : Host.Outcome State Fault Refusal :=
  .next <| s |> unlessFaulted (asReader fun s =>
    if n = 0 then raise .readNZero s
    else if n > Config.nMax then raise .nTooLarge s
    else (fill s.chan n s).finish (extractAndRespond n))

end Sys2Proof.Machine
end

