-- ==== Sys2Proof/Machine/Writer.lean ====
section
/-! DEFINITION. The entropy writer: WRITE_BITS and FLUSH (spec/40_writer.md). -/

namespace Sys2Proof.Machine

/-- The preconditions of the writer family, in the order of R100. -/
def asWriter (body : State → State) (s : State) : State :=
  if s.opened = false then raise .notOpen s
  else if s.dir ≠ .write then raise .wrongDirection s
  else body s

/-- `emit(b)`: the byte, and a stuffed byte after a marker (R104). -/
def emit (start : Channels) (b : Byte) (s : State) : Flow :=
  (sinkPush start b s).andThen fun t =>
    if b = Config.marker then sinkPush start Config.stuffByte t else .cont t

/-- The eight oldest held bits, oldest in bit 7 (R103). -/
def topByte (s : State) : Byte := BitVec.ofNat 8 (oldestBits 8 s)

/-- `k` rounds of the loop of R103: a byte leaves ACC after it has been accepted. -/
def drainRounds (start : Channels) : Nat → State → Flow
  | 0, s => .cont s
  | k + 1, s => (emit start (topByte s) s).andThen fun t => drainRounds start k (dropOldest 8 t)

/-- `drain()`: the loop of R103 runs `floor(CNT / 8)` times. -/
def drain (start : Channels) (s : State) : Flow := drainRounds start (s.cnt.toNat / 8) s

/-- The held bits left-justified in a byte, zeros below (R105). -/
def paddedByte (s : State) : Byte := BitVec.ofNat 8 (s.acc.toNat <<< (8 - s.cnt.toNat))

/-- WRITE_BITS `bits, n` (R101). -/
def execWriteBits (bits : Half) (n : Nat) (s : State) : Host.Outcome State Fault Refusal :=
  .next <| s |> unlessFaulted (asWriter fun s =>
    if n > Config.nMax then raise .nTooLarge s
    else if n = 0 then respondOk 0 s
    else (drain s.chan (appendBits bits n s)).finish (respondOk 0))

/-- The part of FLUSH that empties the accumulator (R105). -/
def flushHeld (start : Channels) (s : State) : Flow :=
  if s.cnt.toNat > 0 then emit start (paddedByte s) s else .cont s

/-- FLUSH (R105). -/
def execFlush (s : State) : Host.Outcome State Fault Refusal :=
  .next <| s |> unlessFaulted (asWriter fun s =>
    (flushHeld s.chan s).finish fun t => respondOk 0 (setContext 0 0 t))

end Sys2Proof.Machine
end

