-- ==== Sys2Proof/Machine/Dispatch.lean ====
section
/-! DEFINITION. One arm per command of spec/opcode_table.json. -/

namespace Sys2Proof.Machine

/-- Execute a decoded command. -/
def exec (i : Instr) (s : State) : Host.Outcome State Fault Refusal :=
  match i with
  | .writeBits bits n => Sys2Proof.Machine.execWriteBits bits n s
  | .flush => Sys2Proof.Machine.execFlush s
  | .readBits n => Sys2Proof.Machine.execReadBits n s
  | .openCtx dir => Sys2Proof.Machine.execOpenCtx dir s
  | .wrreg reg value => Sys2Proof.Machine.execWrreg reg value s
  | .rdreg reg => Sys2Proof.Machine.execRdreg reg s
  | .frameLoad => Sys2Proof.Machine.execFrameLoad s

end Sys2Proof.Machine
end

