-- ==== Sys2Proof/Machine/Command.lean ====
section
/-! DEFINITION. One action of the host or of the consumer: a command word (spec/30_encoding.md R89), a
reset (spec/70_reset_and_hazards.md R220, R222), a plane read (spec/20_memory.md R61). -/

namespace Sys2Proof.Machine

/-- Run one command word (R89): decode it, then execute it or raise IllegalCommand. Step 1 of R89, the
FAULTED state, comes first inside every meaning and before the raise. -/
def runWord (w : Word) (s : State) : Host.Outcome State Fault Refusal :=
  match decode w with
  | .ok i => exec i s
  | .error e => .next (unlessFaulted (raise (decodeFault e)) s)

/-- A command word during which the host resets the block (R222): what the command did to the channels
happened up to a free point, and its response is not produced. -/
def runWordThenReset (w : Word) (s : State) : Host.Outcome State Fault Refusal :=
  match runWord w s with
  | .next t => .next (abandon s.chan { t with responses := s.responses })
  | .fault f => .fault f
  | .refused r => .refused r

/-- A new command: the host hands none over while one has not responded (D2, R65), so a command that
waits for ever has no step (R203). -/
def whenReady (f : State → Host.Outcome State Fault Refusal) (s : State) :
    Host.Outcome State Fault Refusal :=
  match s.waiting with
  | none => f s
  | some _ => .fault .channelNeverAnswers

/-- One action, the rest of the plan being in place already. -/
def act (e : Event) (s : State) : Host.Outcome State Fault Refusal :=
  match e with
  | .command w => whenReady (runWord w) s
  | .commandReset w => whenReady (runWordThenReset w) s
  | .reset => .next (hostReset s)
  | .planeRead p off => .next (consumerRead p off s)

/-- Take the next action of the plan; with none left the block stays as it is (R220; log entry 12). -/
def nextAction (s : State) : Host.Outcome State Fault Refusal :=
  match s.events with
  | [] => whenReady .next s
  | e :: rest => act e { s with events := rest }

/-- The command word `w` is the host's next action, and no command is waiting. -/
def offer (w : Word) (s : State) : State :=
  { s with events := .command w :: s.events, waiting := none }

end Sys2Proof.Machine
end

