-- ==== Sys2Proof/Machine/Step.lean ====
section
/-! DEFINITION. One step of the machine: the next action of the host or of the consumer. -/

namespace Sys2Proof.Machine

/-- One step (spec/70_reset_and_hazards.md R232, spec/20_memory.md R64). -/
def step (s : State) : Host.Outcome State Fault Refusal := nextAction s

/-- `s` with the command word `w`, its bits above `nbits` zero, as the host's next action (log entry 1). -/
def State.withFetchWord (s : State) (nbits w : Nat) : State :=
  offer (BitVec.ofNat 32 (w % 2 ^ nbits)) s

end Sys2Proof.Machine
end

