-- ==== Sys2Proof/Safety.lean ====
section
/-! DEFINITION. The terms claims about the block are stated in: bit strings and the wire format
(spec/20_memory.md R63, R69), what a command keeps, the invariants (spec/10_state.md R24, R25, R30,
R39), and runs of several commands (spec/41_reader.md R126). -/

namespace Sys2Proof.Safety

open Sys2Proof.Machine

/-! ### Bit strings, most significant bit first (R69) -/

/-- The `n` low bits of `v`, bit n-1 first. -/
def bitString : Nat → Nat → List Bool
  | 0, _ => []
  | n + 1, v => v.testBit n :: bitString n v

/-- The number a bit string stands for, its first bit the most significant. -/
def natOfBits (bits : List Bool) : Nat := bits.foldl (fun v b => 2 * v + b.toNat) 0

/-- The bits of a list of data bytes, in stream order. -/
def byteBits (bytes : List Byte) : List Bool := bytes.flatMap fun b => bitString 8 b.toNat

/-- The held bits, oldest first (R24). -/
def heldBits (s : State) : List Bool := bitString s.cnt.toNat s.acc.toNat

/-- Cut a payload into whole data bytes and the bits left over (R63). -/
def cutBytes : List Bool → List Byte × List Bool
  | b7 :: b6 :: b5 :: b4 :: b3 :: b2 :: b1 :: b0 :: rest =>
    (BitVec.ofNat 8 (natOfBits [b7, b6, b5, b4, b3, b2, b1, b0]) :: (cutBytes rest).1,
      (cutBytes rest).2)
  | rest => ([], rest)

/-! ### The wire format (R63) -/

/-- The stream of a list of data bytes: a 0x00 after every 0xFF. -/
def stuff : List Byte → List Byte
  | [] => []
  | b :: bs => if b = 0xFF#8 then b :: 0x00#8 :: stuff bs else b :: stuff bs

/-- `k` data bytes and what is left of the stream, none where the stream ends before; the byte after a
0xFF is skipped whatever it is. -/
def takeData : Nat → List Byte → Option (List Byte × List Byte)
  | 0, stream => some ([], stream)
  | _ + 1, [] => none
  | k + 1, b :: stream =>
    if b = 0xFF#8 then
      match stream with
      | [] => none
      | _ :: rest => (takeData k rest).map fun r => (b :: r.1, r.2)
    else (takeData k stream).map fun r => (b :: r.1, r.2)

/-- The stream ends between a 0xFF and its stuffed byte. -/
def endsBeforeStuffed : List Byte → Bool
  | [] => false
  | [b] => b == 0xFF#8
  | b :: c :: rest => if b = 0xFF#8 then endsBeforeStuffed rest else endsBeforeStuffed (c :: rest)

/-- Every 0xFF data byte of the stream has its 0x00 after it (R74 (a), (b)). -/
def wellStuffed : List Byte → Bool
  | [] => true
  | [b] => b != 0xFF#8
  | b :: c :: rest =>
    if b = 0xFF#8 then c == 0x00#8 && wellStuffed rest else wellStuffed (c :: rest)

/-! ### What the write side will answer (R53, R57) -/

/-- The next `m` pushes answer `ok`. -/
def acceptsNext (m : Nat) (plan : SinkPlan) : Bool :=
  match plan with
  | .accepts => true
  | .failsAfter n => decide (m ≤ n)
  | .silentAfter n => decide (m ≤ n)

/-! ### Ready states -/

/-- No fault is latched (R30). -/
abbrev NoFault (s : State) : Prop := s.cause = 0

/-- A context is open in direction `dir` and no fault is latched. -/
abbrev OpenIn (dir : Dir) (s : State) : Prop := NoFault s ∧ s.opened = true ∧ s.dir = dir

/-- The bounds of R24 and R25: at most 7 bits held, ACC zero above them. -/
abbrev Canonical (s : State) : Prop := s.cnt.toNat ≤ 7 ∧ s.acc.toNat < 2 ^ s.cnt.toNat

/-! ### The bytes of a writer command -/

/-- The data bytes a WRITE_BITS completes and the bits it leaves held: the held bits, then the n low bits
of the operand, cut into bytes (R102, R103). -/
def writeCut (s : State) (bits : Half) (n : Nat) : List Byte × List Bool :=
  cutBytes (heldBits s ++ bitString n bits.toNat)

/-- The data byte a FLUSH completes: the held bits, then zeros to fill the byte; none where no bit is
held (R105). -/
def flushData (s : State) : List Byte :=
  if s.cnt = 0 then []
  else [BitVec.ofNat 8 (natOfBits (heldBits s ++ List.replicate (8 - s.cnt.toNat) false))]

/-! ### What a command keeps -/

/-- ACC and CNT are kept. -/
def KeepsHeld (s t : State) : Prop := t.acc = s.acc ∧ t.cnt = s.cnt

/-- OPENED and DIR are kept. -/
def KeepsMode (s t : State) : Prop := t.opened = s.opened ∧ t.dir = s.dir

/-- The fault latch is kept. -/
def KeepsFault (s t : State) : Prop := t.cause = s.cause ∧ t.detail = s.detail

/-- The six geometry registers are kept. -/
def KeepsGeometry (s t : State) : Prop :=
  t.width = s.width ∧ t.height = s.height ∧ t.padwY = s.padwY ∧ t.padhY = s.padhY ∧
  t.padwC = s.padwC ∧ t.padhC = s.padhC

/-- Every byte of the three plane memories is kept. -/
def KeepsPlanes (s t : State) : Prop := ∀ p off, memRead p off t = memRead p off s

/-- FRAME_VALID and every byte of the planes are kept. -/
def KeepsFrame (s t : State) : Prop := t.frameValid = s.frameValid ∧ KeepsPlanes s t

/-- ECH's write side is kept: nothing pushed. -/
def KeepsSink (s t : State) : Prop :=
  t.chan.sinkOut = s.chan.sinkOut ∧ t.chan.sinkPlan = s.chan.sinkPlan

/-- ECH's read side is kept: nothing pulled. -/
def KeepsEch (s t : State) : Prop := t.chan.ech = s.chan.ech

/-- FCH is kept: nothing pulled. -/
def KeepsFch (s t : State) : Prop := t.chan.fch = s.chan.fch

/-- What no command touches: the plan of the host, and the consumer's record. -/
def KeepsPlan (s t : State) : Prop := t.events = s.events ∧ t.planeReads = s.planeReads

/-- The command has responded with the word `w`, and does not wait. -/
def Responded (w : Word) (s t : State) : Prop :=
  t.responses = s.responses ++ [w] ∧ t.waiting = s.waiting

/-- The command waits for ever: it has not responded (R203). -/
def Waits (s t : State) : Prop := t.responses = s.responses ∧ t.waiting = some s.chan

/-- Everything but the fault latch and the response is kept (R193). -/
def KeepsAllButFault (s t : State) : Prop :=
  KeepsHeld s t ∧ KeepsMode s t ∧ KeepsGeometry s t ∧ KeepsFrame s t ∧ KeepsSink s t ∧
  KeepsEch s t ∧ KeepsFch s t ∧ KeepsPlan s t

/-- A precise fault (R192, R193): the pair is latched, the word answered, and all else kept. -/
def PreciseFault (cause detail : BitVec 4) (w : Word) (s t : State) : Prop :=
  t.cause = cause ∧ t.detail = detail ∧ Responded w s t ∧ KeepsAllButFault s t

/-- Everything outside the EntropyContext and the channel it uses is kept (R108, R156). -/
def KeepsOutsideEntropy (s t : State) : Prop :=
  KeepsGeometry s t ∧ KeepsFrame s t ∧ KeepsFch s t ∧ KeepsPlan s t

/-- Everything outside the frame part and its channel is kept, but for ACC and CNT (R156). -/
def KeepsOutsideFrame (s t : State) : Prop :=
  KeepsMode s t ∧ KeepsGeometry s t ∧ KeepsSink s t ∧ KeepsEch s t ∧ KeepsPlan s t

/-- Every byte of the planes is unspecified (R151). -/
def PlanesUnspecified (t : State) : Prop := ∀ p off, memRead p off t = none

/-! ### Invariants -/

/-- R24, R25 and R42: between commands, with no fault latched, the held bits are few and canonical, and
a block with no context holds none. -/
abbrev ContextInv (s : State) : Prop :=
  NoFault s → s.waiting = none → Canonical s ∧ (s.opened = false → s.cnt = 0)

/-- The pairs (CODE, DETAIL) of the latched faults (R86, R191). -/
def faultPairs : List (Nat × Nat) :=
  [(1, 1), (1, 2), (1, 3), (4, 1), (4, 2), (5, 1), (5, 2), (5, 3), (5, 4), (5, 5), (5, 6),
   (6, 1), (6, 2), (6, 3), (6, 4)]

/-- The latch holds nothing or a pair of R191 (R30). -/
abbrev FaultInv (s : State) : Prop :=
  (s.cause.toNat, s.detail.toNat) ∈ (0, 0) :: faultPairs

/-- The plane memories are in canonical form. -/
abbrev PlanesInv (s : State) : Prop :=
  Memory.wf s.planeY = true ∧ Memory.wf s.planeU = true ∧ Memory.wf s.planeV = true

/-- A valid frame is complete under the present, legal geometry (R39). -/
def FrameInv (s : State) : Prop :=
  s.frameValid = true →
    s.GeometryLegal ∧ ∀ p off, off < s.planeSize p → (memRead p off s).isSome = true

/-- A command that waits for ever started with no fault, and has only appended to the stream and only
consumed bytes (R53, R54, R203). -/
def WaitingInv (s : State) : Prop :=
  ∀ start, s.waiting = some start →
    NoFault s ∧ start.sinkOut <+: s.chan.sinkOut ∧ s.chan.ech.bytes <:+ start.ech.bytes ∧
    s.chan.fch.bytes <:+ start.fch.bytes

/-! ### Responses (R84 to R86, R204) -/

/-- CODE of a response word. -/
def codeOf (w : Word) : Nat := (w.extractLsb' 28 4).toNat

/-- DETAIL of a response word. -/
def detailOf (w : Word) : Nat := (w.extractLsb' 24 4).toNat

/-- The pairs (CODE, DETAIL) a command can produce while no fault is latched (R204). Those of
IllegalCommand by decoding (RESERVED_OPCODE, RESERVED_FIELD_NONZERO) are no decoded command's. -/
def responsePairs : Instr → List (Nat × Nat)
  | .writeBits _ _ => [(0, 0), (1, 1), (5, 1), (5, 3), (5, 4)]
  | .flush => [(0, 0), (1, 1), (5, 3), (5, 4)]
  | .readBits _ => [(0, 0), (1, 2), (4, 1), (4, 2), (5, 1), (5, 2), (5, 3), (5, 4)]
  | .openCtx _ => [(0, 0), (5, 5)]
  | .wrreg _ _ => [(0, 0), (6, 3), (6, 4)]
  | .rdreg _ => [(0, 0), (6, 3)]
  | .frameLoad => [(0, 0), (1, 3), (2, 0), (3, 0), (5, 6)]

/-! ### Runs -/

/-- Execute commands one after the other. -/
def execAll : List Instr → State → Host.Outcome State Fault Refusal
  | [], s => .next s
  | i :: rest, s =>
    match exec i s with
    | .next t => execAll rest t
    | .fault f => .fault f
    | .refused r => .refused r

/-- The WRITE_BITS commands of a list of fields, then FLUSH (R126 (b)). -/
def writeFields (fields : List (Half × Nat)) : List Instr :=
  fields.map (fun f => Instr.writeBits f.1 f.2) ++ [.flush]

/-- The READ_BITS commands of a list of fields: those of width 0 have none (R126 (b), C4). -/
def readFields (fields : List (Half × Nat)) : List Instr :=
  (fields.filter fun f => f.2 != 0).map fun f => Instr.readBits f.2

/-- The response words of those reads: each field's low bits (R126 (b), C5). -/
def fieldValues (fields : List (Half × Nat)) : List Word :=
  (fields.filter fun f => f.2 != 0).map fun f => BitVec.ofNat 32 (f.1.toNat % 2 ^ f.2)

end Sys2Proof.Safety
end

