-- ==== Sys2Proof/Certificates/Slice0/Obligations.lean ====
section
/-! DEFINITION. The statements about the block, each a `def Obligations.<Name> : Prop`; its docstring
cites the rule of spec/ it formalises. -/

open Sys2Proof
open Sys2Proof.Machine
open Sys2Proof.Safety

/-! ### Encoding (spec/30_encoding.md) -/

/-- R82, R83, R91: the decoder reads back every command that fits its fields from its word. -/
def Obligations.DecodeOfEncodeIsTheCommand : Prop :=
  ∀ i : Instr, WellFormed i → decode (encode i) = .ok i

/-- R82, R83: a word that decodes is the word of what it decodes to, so no bit of it is dropped. -/
def Obligations.EncodeOfDecodeIsTheWord : Prop :=
  ∀ (w : Word) (i : Instr), decode w = .ok i → WellFormed i ∧ encode i = w

/-- R83: a word decodes exactly where `CW & mask = match` for a row of the map, to that row's
command, and at most one row matches. -/
def Obligations.WordsDecodeExactlyByTheirRow : Prop :=
  (∀ (w : Word) (i : Instr), decode w = .ok i → (rowOf i).Fits w) ∧
  (∀ (w : Word) (r : OpcodeRow), r ∈ opcodeRows → r.Fits w → ∃ i, decode w = .ok i ∧ rowOf i = r) ∧
  (∀ (w : Word) (r q : OpcodeRow), r ∈ opcodeRows → q ∈ opcodeRows → r.Fits w → q.Fits w → r = q)

/-- R91: the words the spec prints for its assembler examples decode to those commands. -/
def Obligations.PrintedWordsDecode : Prop :=
  decode 0x10030005#32 = .ok (.writeBits 0x0005#16 3) ∧ decode 0x20000000#32 = .ok .flush ∧
  decode 0x30090000#32 = .ok (.readBits 9) ∧ decode 0x40000001#32 = .ok (.openCtx .read) ∧
  decode 0x50040004#32 = .ok (.wrreg 0x04 4#16) ∧ decode 0x60010000#32 = .ok (.rdreg 0x01) ∧
  decode 0x70000000#32 = .ok .frameLoad

/-- R87: a word whose OP is 0x0 or 0x8 to 0xF raises IllegalCommand, RESERVED_OPCODE, whatever its
other fields hold. -/
def Obligations.ReservedOpcodeIsIllegal : Prop :=
  ∀ (s : State) (w : Word) (rest : List Event),
    s.events = .command w :: rest → s.waiting = none → NoFault s →
    (w.extractLsb' 28 4 = 0x0#4 ∨ 0x8#4 ≤ w.extractLsb' 28 4) →
    ∃ t, step s = .next t ∧ PreciseFault 6 1 0x61000000#32 { s with events := rest } t

/-- R88: a word whose OP is 0x1 to 0x7 and that is not well-formed for its row raises
IllegalCommand, RESERVED_FIELD_NONZERO. -/
def Obligations.ReservedFieldIsIllegal : Prop :=
  ∀ (s : State) (w : Word) (rest : List Event),
    s.events = .command w :: rest → s.waiting = none → NoFault s →
    0x1#4 ≤ w.extractLsb' 28 4 → w.extractLsb' 28 4 ≤ 0x7#4 → (∀ r ∈ opcodeRows, ¬ r.Fits w) →
    ∃ t, step s = .next t ∧ PreciseFault 6 2 0x62000000#32 { s with events := rest } t

/-! ### The step, the FAULTED state (spec/60_exceptions.md) -/

/-- A step on a command word that decodes executes the decoded command on the rest of the plan, in
any state in which no command waits; the word placed by `withFetchWord` is the one that runs. (That
the host's words stand in the state is the model's, log entry 1.) -/
def Obligations.StepRunsTheDecodedCommand : Prop :=
  (∀ (s : State) (w : Word) (rest : List Event) (i : Instr),
    s.events = .command w :: rest → s.waiting = none → decode w = .ok i →
    step s = exec i { s with events := rest }) ∧
  (∀ (s : State) (w : Nat) (i : Instr),
    decode (BitVec.ofNat 32 w) = .ok i →
    step (s.withFetchWord 32 w) = exec i { s with waiting := none })

/-- R196: in the FAULTED state a well-formed RDREG of a valid index executes, and every other word
is answered with the latched pair and changes nothing. -/
def Obligations.FaultedBlockRefusesAllButRdreg : Prop :=
  ∀ (s : State) (w : Word) (rest : List Event),
    s.events = .command w :: rest → s.waiting = none → s.cause ≠ 0 →
    if w &&& 0xFFE0FFFF#32 = 0x60000000#32 ∧ w.extractLsb' 16 5 ≤ 0x09#5 then
      step s = .next { s with
        events := rest
        responses := s.responses ++ [(s.regValue (w.extractLsb' 16 5).toNat).zeroExtend 32] }
    else
      step s = .next { s with
        events := rest
        responses := s.responses ++ [s.cause ++ s.detail ++ 0#24] }

/-- R30, R200: once a fault is latched, no action but a reset writes the latch. -/
def Obligations.FaultLatchKeptUntilReset : Prop :=
  ∀ s t : State, s.cause ≠ 0 → step s = .next t →
    s.events.head? ≠ some .reset → (∀ w, s.events.head? ≠ some (.commandReset w)) → KeepsFault s t

/-! ### Control commands (spec/43_control.md) -/

/-- R172: RDREG responds with the register, zero-extended, and changes nothing, whether a fault is
latched or not; an index above 0x09 raises BAD_REGISTER_INDEX, or is refused in the FAULTED state. -/
def Obligations.RdregReadsTheRegister : Prop :=
  ∀ (s : State) (reg : Nat),
    (reg ≤ 0x09 → ∃ t, exec (.rdreg reg) s = .next t ∧
      Responded ((s.regValue reg).zeroExtend 32) s t ∧ KeepsFault s t ∧ KeepsAllButFault s t) ∧
    (0x09 < reg → NoFault s →
      ∃ t, exec (.rdreg reg) s = .next t ∧ PreciseFault 6 3 0x63000000#32 s t) ∧
    (0x09 < reg → s.cause ≠ 0 → ∃ t, exec (.rdreg reg) s = .next t ∧
      Responded (s.cause ++ s.detail ++ 0#24) s t ∧ KeepsFault s t ∧ KeepsAllButFault s t)

/-- R34: what RDREG STATUS answers, bit by bit, with no side effect. -/
def Obligations.StatusReadsItsFields : Prop :=
  ∀ s : State, ∃ t w, exec (.rdreg 0x00) s = .next t ∧ Responded w s t ∧ KeepsFault s t ∧
    KeepsAllButFault s t ∧
    w.getLsbD 0 = s.opened ∧ w.getLsbD 1 = decide (s.dir = .read) ∧
    w.getLsbD 2 = decide (s.cause ≠ 0) ∧ w.getLsbD 3 = s.frameValid ∧
    w.extractLsb' 4 5 = s.cnt ∧ w.extractLsb' 9 23 = 0

/-- R35: what RDREG FAULT answers, with no side effect; the latch is not cleared. -/
def Obligations.FaultReadsItsFields : Prop :=
  ∀ s : State, ∃ t w, exec (.rdreg 0x01) s = .next t ∧ Responded w s t ∧ KeepsFault s t ∧
    KeepsAllButFault s t ∧
    w.extractLsb' 0 4 = s.cause ∧ w.extractLsb' 4 4 = s.detail ∧ w.extractLsb' 8 24 = 0

/-- R36: what RDREG ACC_LO and RDREG ACC_HI answer; between commands of a block with no fault only
`ACC_LO[6:0]` can be non-zero. -/
def Obligations.AccumulatorReadsAsTwoRegisters : Prop :=
  ∀ s : State, ∃ t u lo hi,
    exec (.rdreg 0x02) s = .next t ∧ Responded lo s t ∧ KeepsFault s t ∧ KeepsAllButFault s t ∧
    exec (.rdreg 0x03) s = .next u ∧ Responded hi s u ∧ KeepsFault s u ∧ KeepsAllButFault s u ∧
    lo.extractLsb' 0 16 = s.acc.extractLsb' 0 16 ∧ lo.extractLsb' 16 16 = 0 ∧
    hi.extractLsb' 0 15 = s.acc.extractLsb' 16 15 ∧ hi.extractLsb' 15 17 = 0 ∧
    (Canonical s → (∀ k, s.cnt.toNat ≤ k → lo.getLsbD k = false) ∧ lo.toNat < 128 ∧ hi = 0)

/-- R33, R37: which geometry register stands at which index. -/
def Obligations.GeometryRegistersHaveTheirIndex : Prop :=
  ∀ s : State,
    s.regValue 0x04 = s.width ∧ s.regValue 0x05 = s.height ∧ s.regValue 0x06 = s.padwY ∧
    s.regValue 0x07 = s.padhY ∧ s.regValue 0x08 = s.padwC ∧ s.regValue 0x09 = s.padhC

/-- R171: WRREG stores any value in the geometry register it names, clears FRAME_VALID, and touches
nothing else; an index above 0x09 or at most 0x03 raises IllegalCommand. -/
def Obligations.WrregWritesOneRegister : Prop :=
  ∀ (s : State) (reg : Nat) (value : Half), NoFault s →
    (0x04 ≤ reg → reg ≤ 0x09 → ∃ t, exec (.wrreg reg value) s = .next t ∧
      t.regValue reg = value ∧
      (∀ r, 0x04 ≤ r → r ≤ 0x09 → r ≠ reg → t.regValue r = s.regValue r) ∧
      t.frameValid = false ∧ Responded 0#32 s t ∧ KeepsHeld s t ∧ KeepsMode s t ∧ KeepsFault s t ∧
      KeepsPlanes s t ∧ KeepsSink s t ∧ KeepsEch s t ∧ KeepsFch s t ∧ KeepsPlan s t) ∧
    (0x09 < reg → ∃ t, exec (.wrreg reg value) s = .next t ∧ PreciseFault 6 3 0x63000000#32 s t) ∧
    (reg ≤ 0x03 → ∃ t, exec (.wrreg reg value) s = .next t ∧ PreciseFault 6 4 0x64000000#32 s t)

/-- R170: OPEN makes a fresh context in the given direction, over any context but a writer's that
holds bits, which it refuses. -/
def Obligations.OpenMakesAFreshContext : Prop :=
  ∀ (s : State) (d : Dir), NoFault s →
    if s.opened = true ∧ s.dir = .write ∧ s.cnt ≠ 0 then
      ∃ t, exec (.openCtx d) s = .next t ∧ PreciseFault 5 5 0x55000000#32 s t
    else
      ∃ t, exec (.openCtx d) s = .next t ∧ t.acc = 0 ∧ t.cnt = 0 ∧ t.opened = true ∧ t.dir = d ∧
        Responded 0#32 s t ∧ KeepsFault s t ∧ KeepsGeometry s t ∧ KeepsFrame s t ∧ KeepsSink s t ∧
        KeepsEch s t ∧ KeepsFch s t ∧ KeepsPlan s t

/-! ### The entropy writer (spec/40_writer.md) -/

/-- R100: WRITE_BITS (with any n, 0 too) and FLUSH fault, changing nothing, with no context open,
and on a context open for reading. -/
def Obligations.WriterNeedsAnOpenWriter : Prop :=
  ∀ (s : State) (i : Instr), NoFault s → (i = .flush ∨ ∃ bits n, i = .writeBits bits n) →
    (s.opened = false → ∃ t, exec i s = .next t ∧ PreciseFault 5 4 0x54000000#32 s t) ∧
    (s.opened = true → s.dir = .read →
      ∃ t, exec i s = .next t ∧ PreciseFault 5 3 0x53000000#32 s t)

/-- R101: on an open writer, n = 0 is a no-op and n > 24 raises N_TOO_LARGE, changing nothing. -/
def Obligations.WriteOfNoBitsOrTooManyMovesNothing : Prop :=
  ∀ (s : State) (bits : Half) (n : Nat), OpenIn .write s →
    (n = 0 → ∃ t, exec (.writeBits bits n) s = .next t ∧
      Responded 0#32 s t ∧ KeepsFault s t ∧ KeepsAllButFault s t) ∧
    (24 < n → ∃ t, exec (.writeBits bits n) s = .next t ∧ PreciseFault 5 1 0x51000000#32 s t)

/-- R102, R103, R104: the n low bits of the operand, zero-extended, are appended below the held
bits; every complete byte leaves, oldest first, each 0xFF followed by 0x00; the rest stays held. -/
def Obligations.WriteAppendsBitsAndEmitsBytes : Prop :=
  ∀ (s : State) (bits : Half) (n : Nat), OpenIn .write s → Canonical s → 1 ≤ n → n ≤ 24 →
    acceptsNext (stuff (writeCut s bits n).1).length s.chan.sinkPlan = true →
    ∃ t, exec (.writeBits bits n) s = .next t ∧
      t.chan.sinkOut = s.chan.sinkOut ++ stuff (writeCut s bits n).1 ∧
      (writeCut s bits n).1.length = (s.cnt.toNat + n) / 8 ∧
      heldBits t = (writeCut s bits n).2 ∧ t.cnt.toNat = (s.cnt.toNat + n) % 8 ∧ Canonical t ∧
      Responded 0#32 s t ∧ KeepsFault s t ∧ KeepsMode s t ∧ KeepsEch s t ∧ KeepsOutsideEntropy s t

/-- R105: FLUSH emits the held bits left-justified with zeros below, nothing where no bit is held,
and leaves the accumulator empty and the context open. -/
def Obligations.FlushEmitsThePaddedByte : Prop :=
  ∀ s : State, OpenIn .write s → Canonical s →
    acceptsNext (flushData s).length s.chan.sinkPlan = true →
    ∃ t, exec .flush s = .next t ∧ t.chan.sinkOut = s.chan.sinkOut ++ flushData s ∧
      t.acc = 0 ∧ t.cnt = 0 ∧
      Responded 0#32 s t ∧ KeepsFault s t ∧ KeepsMode s t ∧ KeepsEch s t ∧ KeepsOutsideEntropy s t

/-- R107: a push that answers `error` ends the writer command at once with ChannelError, ECH_PUSH;
the bytes accepted before it stay in the stream. -/
def Obligations.WriterStopsAtAChannelError : Prop :=
  ∀ (s : State) (i : Instr) (stream : List Byte) (k : Nat), OpenIn .write s → Canonical s →
    ((i = .flush ∧ stream = flushData s) ∨
      ∃ bits n, i = .writeBits bits n ∧ 1 ≤ n ∧ n ≤ 24 ∧ stream = stuff (writeCut s bits n).1) →
    s.chan.sinkPlan = .failsAfter k → k < stream.length →
    ∃ t, exec i s = .next t ∧ t.chan.sinkOut = s.chan.sinkOut ++ stream.take k ∧
      t.cause = 1 ∧ t.detail = 1 ∧ Responded 0x11000000#32 s t ∧ KeepsMode s t ∧ KeepsEch s t ∧
      KeepsOutsideEntropy s t

/-- R57, R203: a push that is never answered leaves the writer command waiting, with no response;
the bytes accepted before it stay in the stream. (How the state holds a waiting command is the
model's, log entry 4.) -/
def Obligations.WriterWaitsForASilentSink : Prop :=
  ∀ (s : State) (i : Instr) (stream : List Byte) (k : Nat), OpenIn .write s → Canonical s →
    ((i = .flush ∧ stream = flushData s) ∨
      ∃ bits n, i = .writeBits bits n ∧ 1 ≤ n ∧ n ≤ 24 ∧ stream = stuff (writeCut s bits n).1) →
    s.chan.sinkPlan = .silentAfter k → k < stream.length →
    ∃ t, exec i s = .next t ∧ t.chan.sinkOut = s.chan.sinkOut ++ stream.take k ∧ Waits s t ∧
      KeepsFault s t ∧ KeepsMode s t ∧ KeepsEch s t ∧ KeepsOutsideEntropy s t

/-- No FLUSH pushes 0xFF: the spec's inference R106 (d) from R105. -/
def Obligations.FlushNeverPushesTheMarker : Prop :=
  ∀ s t : State, Canonical s → exec .flush s = .next t →
    ∃ pushed, t.chan.sinkOut = s.chan.sinkOut ++ pushed ∧ 0xFF#8 ∉ pushed

/-- The spec's inference R74 (a), (b) from R63, R104 and R105: a writer command that responds OK
keeps the stream such that every 0xFF in it is followed by 0x00, and it does not end in 0xFF. -/
def Obligations.WriterKeepsTheStreamStuffed : Prop :=
  ∀ (s t : State) (i : Instr), Canonical s → (i = .flush ∨ ∃ bits n, i = .writeBits bits n) →
    wellStuffed s.chan.sinkOut = true → exec i s = .next t → Responded 0#32 s t →
    wellStuffed t.chan.sinkOut = true

/-- R108: WRITE_BITS and FLUSH, however they end, touch neither OPENED nor DIR, nor geometry,
FRAME_VALID, planes, FCH or the read side of ECH. -/
def Obligations.WriterTouchesNothingElse : Prop :=
  ∀ (s t : State) (i : Instr), (i = .flush ∨ ∃ bits n, i = .writeBits bits n) →
    exec i s = .next t → KeepsMode s t ∧ KeepsEch s t ∧ KeepsOutsideEntropy s t

/-! ### The entropy reader (spec/41_reader.md) -/

/-- R120, R121: READ_BITS faults, changing nothing and pulling nothing, with no context open, on a
context open for writing, with n = 0 and with n > 24. -/
def Obligations.ReaderNeedsAnOpenReaderAndALegalCount : Prop :=
  ∀ (s : State) (n : Nat), NoFault s →
    (s.opened = false → ∃ t, exec (.readBits n) s = .next t ∧ PreciseFault 5 4 0x54000000#32 s t) ∧
    (s.opened = true → s.dir = .write →
      ∃ t, exec (.readBits n) s = .next t ∧ PreciseFault 5 3 0x53000000#32 s t) ∧
    (OpenIn .read s → n = 0 →
      ∃ t, exec (.readBits n) s = .next t ∧ PreciseFault 5 2 0x52000000#32 s t) ∧
    (OpenIn .read s → 24 < n →
      ∃ t, exec (.readBits n) s = .next t ∧ PreciseFault 5 1 0x51000000#32 s t)

/-- R123, R124: READ_BITS pulls `ceil((n - CNT) / 8)` data bytes where n > CNT and none otherwise,
with the byte after each 0xFF discarded, returns the n oldest bits, and leaves the rest held. -/
def Obligations.ReadPullsBytesAndReturnsTheOldestBits : Prop :=
  ∀ (s : State) (n : Nat) (data rest : List Byte), OpenIn .read s → Canonical s → 1 ≤ n → n ≤ 24 →
    takeData ((n - s.cnt.toNat + 7) / 8) s.chan.ech.bytes = some (data, rest) →
    ∃ t, exec (.readBits n) s = .next t ∧ t.chan.ech = { s.chan.ech with bytes := rest } ∧
      Responded (BitVec.ofNat 32 (natOfBits ((heldBits s ++ byteBits data).take n))) s t ∧
      heldBits t = (heldBits s ++ byteBits data).drop n ∧
      t.cnt.toNat = s.cnt.toNat + 8 * data.length - n ∧ Canonical t ∧
      KeepsFault s t ∧ KeepsMode s t ∧ KeepsSink s t ∧ KeepsOutsideEntropy s t

/-- R125: where the stream has too few data bytes, all of it is consumed and READ_BITS ends with
StreamDesyncError at its end, with ChannelError where the channel fails there; where held bits are
enough no byte is needed and nothing faults. -/
def Obligations.ReadFaultsWhereTheStreamRunsOut : Prop :=
  ∀ (s : State) (n : Nat), OpenIn .read s → Canonical s → 1 ≤ n → n ≤ 24 →
    (takeData ((n - s.cnt.toNat + 7) / 8) s.chan.ech.bytes = none → s.chan.ech.ending = .eof →
      ∃ t, exec (.readBits n) s = .next t ∧ t.chan.ech = ⟨[], .eof⟩ ∧ t.cause = 4 ∧
        (if endsBeforeStuffed s.chan.ech.bytes = true then
          t.detail = 2 ∧ Responded 0x42000000#32 s t
        else t.detail = 1 ∧ Responded 0x41000000#32 s t) ∧
        KeepsMode s t ∧ KeepsSink s t ∧ KeepsOutsideEntropy s t) ∧
    (takeData ((n - s.cnt.toNat + 7) / 8) s.chan.ech.bytes = none → s.chan.ech.ending = .error →
      ∃ t, exec (.readBits n) s = .next t ∧ t.chan.ech = ⟨[], .error⟩ ∧ t.cause = 1 ∧
        t.detail = 2 ∧ Responded 0x12000000#32 s t ∧
        KeepsMode s t ∧ KeepsSink s t ∧ KeepsOutsideEntropy s t) ∧
    (n ≤ s.cnt.toNat → ∃ t w, exec (.readBits n) s = .next t ∧ Responded w s t ∧ codeOf w = 0 ∧
      KeepsFault s t ∧ KeepsEch s t)

/-- R57, R203: a pull that is never answered leaves READ_BITS waiting, with no response. (How the
state holds a waiting command is the model's, log entry 4.) -/
def Obligations.ReaderWaitsForASilentChannel : Prop :=
  ∀ (s : State) (n : Nat), OpenIn .read s → Canonical s → 1 ≤ n → n ≤ 24 →
    takeData ((n - s.cnt.toNat + 7) / 8) s.chan.ech.bytes = none → s.chan.ech.ending = .silent →
    ∃ t, exec (.readBits n) s = .next t ∧ t.chan.ech = ⟨[], .silent⟩ ∧ Waits s t ∧
      KeepsFault s t ∧ KeepsMode s t ∧ KeepsSink s t ∧ KeepsOutsideEntropy s t

/-- R123, D15: the byte after a 0xFF is discarded without being looked at: two streams that differ
in it alone give the same response and leave the same bits held and the same bytes. -/
def Obligations.StuffedByteIsNotLookedAt : Prop :=
  ∀ (s u : State) (n : Nat) (c d : Byte) (rest : List Byte), s.cnt.toNat < n →
    s.chan.ech.bytes = 0xFF#8 :: c :: rest →
    u = { s with chan := { s.chan with ech := { s.chan.ech with bytes := 0xFF#8 :: d :: rest } } } →
    ∀ t v, OpenIn .read s → 1 ≤ n → n ≤ 24 →
      exec (.readBits n) s = .next t → exec (.readBits n) u = .next v →
      t.responses = v.responses ∧ KeepsHeld t v ∧ KeepsFault t v ∧ KeepsEch t v

/-- The round trip, the spec's inference R126 (b), (c) from R102 to R105, R123 and R124: what a
fresh writer packs and flushes, a fresh reader of the same widths gives back, field by field, and is
left with the padding zeros. -/
def Obligations.RoundTripGivesTheFieldsBack : Prop :=
  ∀ (fields : List (Half × Nat)) (a : State), (∀ f ∈ fields, f.2 ≤ 24) →
    OpenIn .write a → a.acc = 0 → a.cnt = 0 → a.chan.sinkPlan = .accepts →
    ∃ t stream, execAll (writeFields fields) a = .next t ∧
      t.chan.sinkOut = a.chan.sinkOut ++ stream ∧
      t.responses = a.responses ++ List.replicate (fields.length + 1) 0#32 ∧
      ∀ (b : State) (more : List Byte), OpenIn .read b → b.acc = 0 → b.cnt = 0 →
        b.chan.ech.bytes = stream ++ more →
        ∃ u, execAll (readFields fields) b = .next u ∧
          u.responses = b.responses ++ fieldValues fields ∧ NoFault u ∧
          u.chan.ech.bytes = more ∧ u.acc = 0 ∧
          u.cnt.toNat = (8 - (fields.map Prod.snd).sum % 8) % 8

/-- The bounds of R233, the spec's inferences R106 (e) and R236 among them: one WRITE_BITS pushes at
most 5 bytes, one FLUSH at most 1, one READ_BITS pulls at most 6, one FRAME_LOAD at most NF. -/
def Obligations.CommandsMoveBoundedlyManyBytes : Prop :=
  ∀ (s t : State) (i : Instr), Canonical s → exec i s = .next t →
    ∃ pushed pulled loaded, t.chan.sinkOut = s.chan.sinkOut ++ pushed ∧
      s.chan.ech.bytes = pulled ++ t.chan.ech.bytes ∧
      s.chan.fch.bytes = loaded ++ t.chan.fch.bytes ∧
      match i with
      | .writeBits _ _ => pushed.length ≤ 5 ∧ pulled = [] ∧ loaded = []
      | .flush => pushed.length ≤ 1 ∧ pulled = [] ∧ loaded = []
      | .readBits _ => pushed = [] ∧ pulled.length ≤ 6 ∧ loaded = []
      | .frameLoad => pushed = [] ∧ pulled = [] ∧ loaded.length ≤ s.frameBytes
      | .openCtx _ => pushed = [] ∧ pulled = [] ∧ loaded = []
      | .wrreg _ _ => pushed = [] ∧ pulled = [] ∧ loaded = []
      | .rdreg _ => pushed = [] ∧ pulled = [] ∧ loaded = []

/-! ### The frame layout interpreter (spec/42_frame_layout.md) -/

/-- What R140 and R146 say follows from a legal geometry: the three descriptions of the sizes agree,
no plane is empty, and every quantity is below 2^32, NF below 2^33. -/
def Obligations.LegalGeometryHasConsistentSizes : Prop :=
  ∀ s : State, s.GeometryLegal →
    (∀ p, s.sampleCount p = s.logicalWidth p * s.logicalHeight p) ∧
    2 * s.frameBytes = 3 * (s.width.toNat * s.height.toNat) ∧ 6 ≤ s.frameBytes ∧
    (∀ p, 1 ≤ s.sampleCount p ∧ s.sampleCount p ≤ s.planeSize p ∧ s.planeSize p < 2 ^ 32) ∧
    s.frameBytes < 2 ^ 33

/-- The spec's inference R145 (a) to (d) from R143, R144 and R146: in both modes no two stream bytes
of a frame go to the same place, every byte falls inside its plane, a plane not padded in width is
filled alike, and so is row 0. -/
def Obligations.PlacementIsInjectiveAndInRange : Prop :=
  ∀ (s : State), s.GeometryLegal →
    (∀ mode i j, i < s.frameBytes → j < s.frameBytes → s.place mode i = s.place mode j → i = j) ∧
    (∀ mode i, i < s.frameBytes → (s.place mode i).2 < s.planeSize (s.place mode i).1) ∧
    (∀ p k, s.paddedWidth p = s.logicalWidth p → k < s.sampleCount p →
      s.offsetOf .linear p k = s.offsetOf .strided p k) ∧
    (∀ p k, k < s.logicalWidth p → s.offsetOf .linear p k = k ∧ s.offsetOf .strided p k = k)

/-- R142: byte i of a frame is a sample of Y, then of U, then of V, in order. -/
def Obligations.FrameBytesAreInPlaneOrder : Prop :=
  ∀ (s : State) (k : Nat),
    (k < s.sampleCount .Y → s.segment k = (.Y, k)) ∧
    (k < s.sampleCount .U → s.segment (s.sampleCount .Y + k) = (.U, k)) ∧
    (k < s.sampleCount .V → s.segment (s.sampleCount .Y + s.sampleCount .U + k) = (.V, k))

/-- R146: FRAME_LOAD with an illegal geometry raises BAD_DIMENSIONS, changing nothing and pulling
nothing. -/
def Obligations.IllegalGeometryIsRefused : Prop :=
  ∀ s : State, NoFault s →
    ¬ (2 ≤ s.width.toNat ∧ s.width.toNat % 2 = 0 ∧ 2 ≤ s.height.toNat ∧ s.height.toNat % 2 = 0 ∧
      s.width.toNat ≤ s.padwY.toNat ∧ s.height.toNat ≤ s.padhY.toNat ∧
      s.width.toNat / 2 ≤ s.padwC.toNat ∧ s.height.toNat / 2 ≤ s.padhC.toNat) →
    ∃ t, exec .frameLoad s = .next t ∧ PreciseFault 5 6 0x56000000#32 s t

/-- The postcondition of a successful FRAME_LOAD, the spec's inference R155 from R142 to R150:
exactly NF bytes consumed, stream byte i at `Place(i)`, zero at every other offset below SIZE(P),
and offsets from SIZE(P) on as before. -/
def Obligations.FrameLoadStoresTheFrame : Prop :=
  ∀ s : State, NoFault s → s.GeometryLegal → s.frameBytes ≤ s.chan.fch.bytes.length →
    ∃ t, exec .frameLoad s = .next t ∧ t.frameValid = true ∧
      t.chan.fch = { s.chan.fch with bytes := s.chan.fch.bytes.drop s.frameBytes } ∧
      (∀ i, i < s.frameBytes →
        memRead (s.place Config.fillMode i).1 (s.place Config.fillMode i).2 t =
          s.chan.fch.bytes[i]?) ∧
      (∀ p off, off < s.planeSize p → (∀ i, i < s.frameBytes → s.place Config.fillMode i ≠ (p, off)) →
        memRead p off t = some 0x00#8) ∧
      (∀ p off, s.planeSize p ≤ off → memRead p off t = memRead p off s) ∧
      Responded 0#32 s t ∧ KeepsHeld s t ∧ KeepsFault s t ∧ KeepsOutsideFrame s t

/-- R152: EndOfStream is answered exactly where the first pull answers `eof`; nothing is consumed,
nothing latched, the planes are unspecified, and a second FRAME_LOAD answers it again. -/
def Obligations.FrameLoadAtTheEndOfTheStream : Prop :=
  ∀ s : State, NoFault s → s.GeometryLegal →
    (s.chan.fch = ⟨[], .eof⟩ → ∃ t, exec .frameLoad s = .next t ∧ t.frameValid = false ∧
      PlanesUnspecified t ∧ KeepsFch s t ∧ Responded 0x20000000#32 s t ∧ KeepsHeld s t ∧
      KeepsFault s t ∧ KeepsOutsideFrame s t ∧
      ∃ u, exec .frameLoad t = .next u ∧ Responded 0x20000000#32 t u) ∧
    (∀ t, exec .frameLoad s = .next t → Responded 0x20000000#32 s t → s.chan.fch = ⟨[], .eof⟩)

/-- R153: TruncatedFrameError is answered exactly where `eof` comes after at least one and fewer
than NF bytes; all of them are consumed, nothing is latched, and the next FRAME_LOAD answers
EndOfStream. -/
def Obligations.FrameLoadOfATruncatedFrame : Prop :=
  ∀ s : State, NoFault s → s.GeometryLegal →
    (s.chan.fch.bytes ≠ [] → s.chan.fch.bytes.length < s.frameBytes → s.chan.fch.ending = .eof →
      ∃ t, exec .frameLoad s = .next t ∧ t.frameValid = false ∧ PlanesUnspecified t ∧
        t.chan.fch = ⟨[], .eof⟩ ∧ Responded 0x30000000#32 s t ∧ KeepsHeld s t ∧ KeepsFault s t ∧
        KeepsOutsideFrame s t ∧
        ∃ u, exec .frameLoad t = .next u ∧ Responded 0x20000000#32 t u) ∧
    (∀ t, exec .frameLoad s = .next t → Responded 0x30000000#32 s t →
      s.chan.fch.bytes ≠ [] ∧ s.chan.fch.bytes.length < s.frameBytes ∧ s.chan.fch.ending = .eof)

/-- R154: a pull that answers `error` ends FRAME_LOAD with ChannelError, FCH_PULL, before any
classification. -/
def Obligations.FrameLoadStopsAtAChannelError : Prop :=
  ∀ s : State, NoFault s → s.GeometryLegal → s.chan.fch.bytes.length < s.frameBytes →
    s.chan.fch.ending = .error →
    ∃ t, exec .frameLoad s = .next t ∧ t.frameValid = false ∧ PlanesUnspecified t ∧
      t.chan.fch = ⟨[], .error⟩ ∧ t.cause = 1 ∧ t.detail = 3 ∧ Responded 0x13000000#32 s t ∧
      KeepsOutsideFrame s t

/-- R57, R203: a pull that is never answered leaves FRAME_LOAD waiting, with no response and no
valid frame. (How the state holds a waiting command is the model's, log entry 4.) -/
def Obligations.FrameLoadWaitsForASilentChannel : Prop :=
  ∀ s : State, NoFault s → s.GeometryLegal → s.chan.fch.bytes.length < s.frameBytes →
    s.chan.fch.ending = .silent →
    ∃ t, exec .frameLoad s = .next t ∧ t.frameValid = false ∧ t.chan.fch = ⟨[], .silent⟩ ∧
      Waits s t ∧ KeepsHeld s t ∧ KeepsFault s t ∧ KeepsOutsideFrame s t

/-- R156: FRAME_LOAD uses FCH only and the commands of the EntropyContext use ECH only; they share
the command interface and the fault latch. (ACC and CNT after a ChannelError are free values, R194
(b); log entry 5.) -/
def Obligations.FrameAndEntropyPartsShareOnlyTheLatch : Prop :=
  ∀ (s t : State) (i : Instr), exec i s = .next t →
    (i = .frameLoad → KeepsOutsideFrame s t ∧ (KeepsHeld s t ∨ (s.cause = 0 ∧ t.cause = 1))) ∧
    ((i = .flush ∨ (∃ bits n, i = .writeBits bits n) ∨ (∃ n, i = .readBits n) ∨
      ∃ d, i = .openCtx d) → KeepsOutsideEntropy s t)

/-! ### Faults, responses, flags (spec/60_exceptions.md, spec/10_state.md) -/

/-- The spec's inference R193 from its instruction rules: after a ContractViolation or an
IllegalCommand every state element other than FAULT has the value it had before the command word. -/
def Obligations.PreciseFaultsChangeNothingElse : Prop :=
  ∀ (w : Word) (s t : State), NoFault s → runWord w s = .next t → t.cause = 5 ∨ t.cause = 6 →
    KeepsAllButFault s t ∧ ∃ r, Responded r s t

/-- R194: after a ChannelError or a StreamDesyncError the bytes pushed stay in the stream, the bytes
pulled stay consumed, OPENED, DIR and geometry are kept, and one of FRAME_LOAD leaves no valid frame
and unspecified planes. -/
def Obligations.MidOperationFaultsKeepTheRest : Prop :=
  ∀ (i : Instr) (s t : State), NoFault s → exec i s = .next t → t.cause = 1 ∨ t.cause = 4 →
    s.chan.sinkOut <+: t.chan.sinkOut ∧ t.chan.ech.bytes <:+ s.chan.ech.bytes ∧
    t.chan.fch.bytes <:+ s.chan.fch.bytes ∧ KeepsMode s t ∧ KeepsGeometry s t ∧ KeepsPlan s t ∧
    (if i = .frameLoad then t.frameValid = false ∧ PlanesUnspecified t else KeepsFrame s t)

/-- R84 with the table of R204, the spec's inference from R191: with no fault latched a command
either waits or gives exactly one response word, whose CODE and DETAIL are a pair the table allows
the command and whose VALUE is 0 unless READ_BITS or RDREG responds OK. -/
def Obligations.ResponsesAreOfTheTable : Prop :=
  ∀ (i : Instr) (s t : State), NoFault s → exec i s = .next t →
    Waits s t ∨ ∃ w, Responded w s t ∧ (codeOf w, detailOf w) ∈ responsePairs i ∧
      (w.extractLsb' 0 24 ≠ 0 → codeOf w = 0 ∧ ((∃ n, i = .readBits n) ∨ ∃ reg, i = .rdreg reg))

/-- R31: no command writes a flag but as the table says: OPENED and DIR by OPEN only, FAULTED never
back to 0, FRAME_VALID set by a FRAME_LOAD that responds OK and cleared by FRAME_LOAD and WRREG
only. -/
def Obligations.FlagsChangeOnlyAsListed : Prop :=
  ∀ (i : Instr) (s t : State), exec i s = .next t →
    (t.opened ≠ s.opened → t.opened = true ∧ ∃ d, i = .openCtx d) ∧
    (t.dir ≠ s.dir → i = .openCtx t.dir) ∧
    (s.cause ≠ 0 → t.cause ≠ 0) ∧
    (s.frameValid = false → t.frameValid = true → i = .frameLoad ∧ Responded 0#32 s t) ∧
    (s.frameValid = true → t.frameValid = false → i = .frameLoad ∨ ∃ reg v, i = .wrreg reg v)

/-! ### Invariants -/

/-- The spec's inference R25, with R24: whenever no command is executing and no fault is latched,
`CNT <= 7` and `ACC < 2^CNT`; every step keeps it. -/
def Obligations.StepKeepsHeldBitsFew : Prop :=
  ∀ s t : State, ContextInv s → step s = .next t → ContextInv t

/-- R86, R191: every step keeps the fault latch at nothing or at a pair of the table. -/
def Obligations.StepKeepsFaultPairsListed : Prop :=
  ∀ s t : State, FaultInv s → step s = .next t → FaultInv t

/-- R60: every step keeps the plane memories in the model's canonical form (log entry 7), offsets
below 2^32. -/
def Obligations.StepKeepsPlanesCanonical : Prop :=
  ∀ s t : State, PlanesInv s → step s = .next t → PlanesInv t

/-- R39: every step keeps it so that `FRAME_VALID = 1` means a complete frame under the present
legal geometry. -/
def Obligations.StepKeepsValidFramesComplete : Prop :=
  ∀ s t : State, FrameInv s → step s = .next t → FrameInv t

/-- R53, R54, R203: every step keeps it so that a waiting command has latched no fault, has only
appended to the stream and has only consumed bytes. (The waiting command's record is the model's,
log entry 4.) -/
def Obligations.StepKeepsWaitingCommandsSound : Prop :=
  ∀ s t : State, WaitingInv s → step s = .next t → WaitingInv t

/-- The five invariants hold right after reset, with the values of R42 and those of log entries 3, 4
and 7. -/
def Obligations.InvariantsHoldAtReset : Prop :=
  ContextInv State.reset ∧ FaultInv State.reset ∧ PlanesInv State.reset ∧ FrameInv State.reset ∧
  WaitingInv State.reset

/-! ### Reset, the consumer, waiting (spec/70_reset_and_hazards.md, spec/20_memory.md) -/

/-- R42: the values after reset, and what the registers read as. -/
def Obligations.ResetStateHasTheListedValues : Prop :=
  State.reset.acc = 0 ∧ State.reset.cnt = 0 ∧ State.reset.opened = false ∧
  State.reset.dir = .write ∧ State.reset.cause = 0 ∧ State.reset.detail = 0 ∧
  (∀ reg, reg ≤ 0x09 → State.reset.regValue reg = 0) ∧ State.reset.frameValid = false ∧
  PlanesUnspecified State.reset

/-- R220: the reset action puts the block at the values of R42 from any state, without a response,
and does not touch the channels. -/
def Obligations.HostResetRestoresTheResetValues : Prop :=
  ∀ (s : State) (rest : List Event), s.events = .reset :: rest → s.waiting = none →
    ∃ t, step s = .next t ∧ t.acc = 0 ∧ t.cnt = 0 ∧ t.opened = false ∧ t.dir = .write ∧
      t.cause = 0 ∧ t.detail = 0 ∧ (∀ reg, reg ≤ 0x09 → t.regValue reg = 0) ∧
      t.frameValid = false ∧ PlanesUnspecified t ∧ t.chan = s.chan ∧ t.waiting = none ∧
      t.responses = s.responses ∧ t.events = rest ∧ t.planeReads = s.planeReads

/-- R222: reset while a command runs gives no response for it and the reset values, and the channels
stand somewhere between where the command found them and where it would have left them; so too where
the command was waiting for ever. -/
def Obligations.ResetDuringACommandAbandonsIt : Prop :=
  (∀ (s u : State) (w : Word) (rest : List Event), s.events = .commandReset w :: rest →
    s.waiting = none → runWord w { s with events := rest } = .next u →
    ∃ t, step s = .next t ∧ (∀ reg, reg ≤ 0x09 → t.regValue reg = 0) ∧ t.acc = 0 ∧
      PlanesUnspecified t ∧ t.waiting = none ∧ t.responses = s.responses ∧ t.events = rest ∧
      s.chan.sinkOut <+: t.chan.sinkOut ∧ t.chan.sinkOut <+: u.chan.sinkOut ∧
      t.chan.ech.bytes <:+ s.chan.ech.bytes ∧ u.chan.ech.bytes <:+ t.chan.ech.bytes ∧
      t.chan.fch.bytes <:+ s.chan.fch.bytes ∧ u.chan.fch.bytes <:+ t.chan.fch.bytes) ∧
  (∀ (s : State) (start : Channels) (rest : List Event), s.events = .reset :: rest →
    s.waiting = some start → WaitingInv s →
    ∃ t, step s = .next t ∧ (∀ reg, reg ≤ 0x09 → t.regValue reg = 0) ∧ t.acc = 0 ∧
      PlanesUnspecified t ∧ t.waiting = none ∧ t.responses = s.responses ∧ t.events = rest ∧
      start.sinkOut <+: t.chan.sinkOut ∧ t.chan.sinkOut <+: s.chan.sinkOut ∧
      t.chan.ech.bytes <:+ start.ech.bytes ∧ s.chan.ech.bytes <:+ t.chan.ech.bytes ∧
      t.chan.fch.bytes <:+ start.fch.bytes ∧ s.chan.fch.bytes <:+ t.chan.fch.bytes)

/-- R61: the consumer's read of a byte of a valid frame gives that byte; a read gives some byte at
any time, and changes nothing of the block. (That the consumer's reads are steps is the model's, log
entry 11.) -/
def Obligations.ConsumerReadsTheValidFrame : Prop :=
  ∀ (s : State) (p : PlaneId) (off : BitVec 32) (rest : List Event),
    s.events = .planeRead p off :: rest →
    ∃ t b, step s = .next t ∧ t.planeReads = s.planeReads ++ [b] ∧ t.events = rest ∧
      (s.frameValid = true → off.toNat < s.planeSize p →
        ∀ v, memRead p off.toNat s = some v → b = v) ∧
      KeepsHeld s t ∧ KeepsMode s t ∧ KeepsFault s t ∧ KeepsGeometry s t ∧ KeepsFrame s t ∧
      t.chan = s.chan ∧ t.responses = s.responses ∧ t.waiting = s.waiting

/-- R203, D2: a command that waits for ever has no step until the host resets the block; only the
consumer's reads go on. (R203 leaves a model the choice; this one's is log entry 4.) -/
def Obligations.WaitingCommandIsStuckUntilReset : Prop :=
  ∀ (s : State) (start : Channels), s.waiting = some start →
    (s.events = [] ∨ (∃ w rest, s.events = .command w :: rest) ∨
      ∃ w rest, s.events = .commandReset w :: rest) →
    step s = .fault .channelNeverAnswers

/-- R220 and the model's choice of log entry 12: with no action of the host left, nothing runs and
the state stays as it is. -/
def Obligations.IdleBlockStaysAsItIs : Prop :=
  ∀ s : State, s.events = [] → s.waiting = none → step s = .next s
end

