-- ==== Sys2Proof/Laws/Bits.lean ====
section
/-! SUPPORT. Bit strings and the wire format: how `bitString`, `natOfBits`, `cutBytes`, `stuff` and
`takeData` of Safety.lean compose. -/

namespace Sys2Proof.Safety

open Sys2Proof.Machine

@[simp] theorem bitString_zero (v : Nat) : bitString 0 v = [] := rfl

@[simp] theorem bitString_length (n v : Nat) : (bitString n v).length = n := by
  induction n with
  | zero => rfl
  | succ n ih => simp [bitString, ih]

/-- Only the low n bits matter. -/
theorem bitString_congr {n v w : Nat} (h : ∀ i < n, v.testBit i = w.testBit i) :
    bitString n v = bitString n w := by
  induction n with
  | zero => rfl
  | succ n ih =>
    simp only [bitString]
    rw [h n (by omega), ih fun i hi => h i (by omega)]

theorem bitString_mod {n m : Nat} (h : n ≤ m) (v : Nat) : bitString n (v % 2 ^ m) = bitString n v :=
  bitString_congr fun i hi => by simp [Nat.testBit_mod_two_pow, show i < m by omega]

/-- A longer bit string is its high part, then its low part. -/
theorem bitString_add (a b v : Nat) :
    bitString (a + b) v = bitString a (v >>> b) ++ bitString b v := by
  induction a with
  | zero => simp
  | succ a ih =>
    rw [show a + 1 + b = (a + b) + 1 by omega]
    simp only [bitString, ih, List.cons_append, Nat.testBit_shiftRight]
    rw [Nat.add_comm]

/-- Appending a field at the low end appends its bits. -/
theorem bitString_append_field (a n v w : Nat) (h : w < 2 ^ n) :
    bitString (a + n) ((v <<< n) ||| w) = bitString a v ++ bitString n w := by
  rw [bitString_add]
  congr 1
  · refine bitString_congr fun i _ => ?_
    have hw : w.testBit (n + i) = false :=
      Nat.testBit_lt_two_pow (lt_of_lt_of_le h (Nat.pow_le_pow_right (by omega) (by omega)))
    simp [Nat.testBit_shiftRight, Nat.testBit_or, Nat.testBit_shiftLeft, hw]
  · refine bitString_congr fun i hi => ?_
    simp [Nat.testBit_or, Nat.testBit_shiftLeft, show ¬ n ≤ i by omega]

theorem natOfBits_foldl (bits : List Bool) (v : Nat) :
    bits.foldl (fun v b => 2 * v + b.toNat) v = v * 2 ^ bits.length + natOfBits bits := by
  induction bits generalizing v with
  | nil => simp [natOfBits]
  | cons b bits ih =>
    have h : natOfBits (b :: bits) = (2 * 0 + b.toNat) * 2 ^ bits.length + natOfBits bits := ih _
    rw [List.foldl_cons, ih, h, List.length_cons]
    ring

theorem natOfBits_cons (b : Bool) (bits : List Bool) :
    natOfBits (b :: bits) = b.toNat * 2 ^ bits.length + natOfBits bits := by
  rw [natOfBits, List.foldl_cons, natOfBits_foldl]; simp

theorem natOfBits_append (xs ys : List Bool) :
    natOfBits (xs ++ ys) = natOfBits xs * 2 ^ ys.length + natOfBits ys := by
  rw [natOfBits, List.foldl_append, natOfBits_foldl]; rfl

theorem natOfBits_replicate_false (n : Nat) : natOfBits (List.replicate n false) = 0 := by
  induction n with
  | zero => rfl
  | succ n ih => rw [List.replicate_succ, natOfBits_cons, ih]; simp

/-- A bit string stands for its number's low bits. -/
@[simp] theorem natOfBits_bitString (n v : Nat) : natOfBits (bitString n v) = v % 2 ^ n := by
  induction n with
  | zero => simp [natOfBits, Nat.mod_one]
  | succ n ih =>
    rw [bitString, natOfBits_cons, bitString_length, ih, Nat.mod_pow_succ,
      Nat.testBit_eq_decide_div_mod_eq]
    rcases Nat.mod_two_eq_zero_or_one (v / 2 ^ n) with h | h <;> simp only [h, decide_true, decide_false, Bool.toNat_true, Bool.toNat_false, zero_ne_one] <;> ring

theorem natOfBits_lt (bits : List Bool) : natOfBits bits < 2 ^ bits.length := by
  induction bits with
  | nil => simp [natOfBits]
  | cons b bits ih =>
    rw [natOfBits_cons, List.length_cons, pow_succ]
    have : b.toNat ≤ 1 := Bool.toNat_le b
    nlinarith

/-- Eight bits of a bit string are one data byte. -/
theorem cutBytes_eight (x : Nat) (rest : List Bool) :
    cutBytes (bitString 8 x ++ rest) = (BitVec.ofNat 8 x :: (cutBytes rest).1, (cutBytes rest).2) := by
  have h : natOfBits (bitString 8 x) = x % 2 ^ 8 := natOfBits_bitString 8 x
  simp only [bitString, List.cons_append, List.nil_append, cutBytes] at h ⊢
  rw [h]
  congr 2
  apply BitVec.eq_of_toNat_eq
  simp

theorem cutBytes_short {rest : List Bool} (h : rest.length < 8) : cutBytes rest = ([], rest) := by
  match rest, h with
  | [], _ => rfl
  | [_], _ => rfl
  | [_, _], _ => rfl
  | [_, _, _], _ => rfl
  | [_, _, _, _], _ => rfl
  | [_, _, _, _, _], _ => rfl
  | [_, _, _, _, _, _], _ => rfl
  | [_, _, _, _, _, _, _], _ => rfl
  | _ :: _ :: _ :: _ :: _ :: _ :: _ :: _ :: _, h => simp only [List.length_cons] at h; omega

@[simp] theorem stuff_nil : stuff [] = [] := rfl

theorem stuff_append (xs ys : List Byte) : stuff (xs ++ ys) = stuff xs ++ stuff ys := by
  induction xs with
  | nil => rfl
  | cons b xs ih => by_cases h : b = 0xFF#8 <;> simp [stuff, h, ih]

theorem stuff_cons (b : Byte) (bs : List Byte) : stuff (b :: bs) = stuff [b] ++ stuff bs :=
  stuff_append [b] bs

theorem stuff_length_le (bs : List Byte) : (stuff bs).length ≤ 2 * bs.length := by
  induction bs with
  | nil => simp
  | cons b bs ih =>
    by_cases h : b = 0xFF#8 <;> simp [stuff, h] <;> omega

/-- The reader's cut of a stuffed stream gives the data bytes back. -/
theorem takeData_stuff (data more : List Byte) :
    takeData data.length (stuff data ++ more) = some (data, more) := by
  induction data with
  | nil => simp [takeData]
  | cons b bs ih => by_cases h : b = 0xFF#8 <;> simp [stuff, takeData, h, ih]

@[simp] theorem byteBits_nil : byteBits [] = [] := rfl

@[simp] theorem byteBits_cons (b : Byte) (bs : List Byte) :
    byteBits (b :: bs) = bitString 8 b.toNat ++ byteBits bs := rfl

theorem byteBits_append (xs ys : List Byte) : byteBits (xs ++ ys) = byteBits xs ++ byteBits ys := by
  simp [byteBits]

@[simp] theorem byteBits_length (bs : List Byte) : (byteBits bs).length = 8 * bs.length := by
  induction bs with
  | nil => rfl
  | cons b bs ih => simp [ih]; omega

@[simp] theorem heldBits_length (s : State) : (heldBits s).length = s.cnt.toNat := by
  simp [heldBits]

end Sys2Proof.Safety
end

