-- ==== Sys2Proof/Laws/Encoding.lean ====
section
/-! SUPPORT. The fields of a packed command word. -/

namespace Sys2Proof

/-- The bits of a packed word (R81). -/
theorem getLsbD_packWord (op : BitVec 4) (a : BitVec 5) (d : Half) (i : Nat) :
    (packWord op a d).getLsbD i =
      if i < 16 then d.getLsbD i else if i < 21 then a.getLsbD (i - 16)
      else if i < 28 then false else op.getLsbD (i - 28) := by
  have h1 := BitVec.getLsbD_append (x := op ++ 0#7 ++ a) (y := d) (i := i)
  have h2 := BitVec.getLsbD_append (x := op ++ 0#7) (y := a) (i := i - 16)
  have h3 := BitVec.getLsbD_append (x := op) (y := 0#7) (i := i - 16 - 5)
  refine h1.trans ?_
  by_cases c1 : i < 16
  · simp [c1]
  · simp only [c1, if_false]
    refine h2.trans ?_
    by_cases c2 : i < 21
    · simp [c2, show i - 16 < 5 by omega]
    · simp only [c2, show ¬ i - 16 < 5 by omega, if_false]
      refine h3.trans ?_
      by_cases c3 : i < 28
      · simp [c3, show i - 16 - 5 < 7 by omega]
      · simp [c3, show ¬ i - 16 - 5 < 7 by omega, show i - 16 - 5 - 7 = i - 28 by omega]

@[simp] theorem opField_packWord (op : BitVec 4) (a : BitVec 5) (d : Half) :
    opField (packWord op a d) = op := by
  refine BitVec.eq_of_getLsbD_eq fun i hi => ?_
  rw [opField, BitVec.getLsbD_extractLsb', getLsbD_packWord]
  simp [hi, show ¬ 28 + i < 16 by omega, show ¬ 28 + i < 21 by omega]

@[simp] theorem rsvField_packWord (op : BitVec 4) (a : BitVec 5) (d : Half) :
    rsvField (packWord op a d) = 0 := by
  refine BitVec.eq_of_getLsbD_eq fun i hi => ?_
  rw [rsvField, BitVec.getLsbD_extractLsb', getLsbD_packWord]
  simp [show ¬ 21 + i < 16 by omega, show 21 + i < 28 by omega]

@[simp] theorem aField_packWord (op : BitVec 4) (a : BitVec 5) (d : Half) :
    aField (packWord op a d) = a := by
  refine BitVec.eq_of_getLsbD_eq fun i hi => ?_
  rw [aField, BitVec.getLsbD_extractLsb', getLsbD_packWord]
  simp [hi, show 16 + i < 21 by omega]

@[simp] theorem dField_packWord (op : BitVec 4) (a : BitVec 5) (d : Half) :
    dField (packWord op a d) = d := by
  refine BitVec.eq_of_getLsbD_eq fun i hi => ?_
  rw [dField, BitVec.getLsbD_extractLsb', getLsbD_packWord]
  simp [hi]

/-- A word with RSV = 0 is packed from its fields (R81). -/
theorem packWord_fields {w : Word} (h : rsvField w = 0) :
    packWord (opField w) (aField w) (dField w) = w := by
  refine BitVec.eq_of_getLsbD_eq fun i hi => ?_
  rw [getLsbD_packWord]
  by_cases c1 : i < 16
  · simp [c1, dField]
  · by_cases c2 : i < 21
    · simp [c1, c2, aField, show i - 16 < 5 by omega,
        show 16 + (i - 16) = i by omega]
    · by_cases c3 : i < 28
      · have hz := congrArg (fun v => BitVec.getLsbD v (i - 21)) h
        simp only [rsvField, BitVec.getLsbD_extractLsb', show i - 21 < 7 by omega, decide_true,
          Bool.true_and, show 21 + (i - 21) = i by omega, BitVec.ofNat_eq_ofNat,
          BitVec.getLsbD_zero] at hz
        simp [c1, c2, c3, hz]
      · simp [c1, c2, c3, opField, show i - 28 < 4 by omega,
          show 28 + (i - 28) = i by omega]

end Sys2Proof
end

