-- ==== Sys2Proof/Laws/State.lean ====
section
/-! SUPPORT. One lemma per field per named update of State. -/

namespace Sys2Proof.Machine

@[simp] theorem respond_acc (c d : BitVec 4) (v : BitVec 24) (s : State) : (respond c d v s).acc = s.acc :=
  rfl
@[simp] theorem respond_cnt (c d : BitVec 4) (v : BitVec 24) (s : State) : (respond c d v s).cnt = s.cnt :=
  rfl
@[simp] theorem respond_opened (c d : BitVec 4) (v : BitVec 24) (s : State) : (respond c d v s).opened = s.opened :=
  rfl
@[simp] theorem respond_dir (c d : BitVec 4) (v : BitVec 24) (s : State) : (respond c d v s).dir = s.dir :=
  rfl
@[simp] theorem respond_cause (c d : BitVec 4) (v : BitVec 24) (s : State) : (respond c d v s).cause = s.cause :=
  rfl
@[simp] theorem respond_detail (c d : BitVec 4) (v : BitVec 24) (s : State) : (respond c d v s).detail = s.detail :=
  rfl
@[simp] theorem respond_width (c d : BitVec 4) (v : BitVec 24) (s : State) : (respond c d v s).width = s.width :=
  rfl
@[simp] theorem respond_height (c d : BitVec 4) (v : BitVec 24) (s : State) : (respond c d v s).height = s.height :=
  rfl
@[simp] theorem respond_padwY (c d : BitVec 4) (v : BitVec 24) (s : State) : (respond c d v s).padwY = s.padwY :=
  rfl
@[simp] theorem respond_padhY (c d : BitVec 4) (v : BitVec 24) (s : State) : (respond c d v s).padhY = s.padhY :=
  rfl
@[simp] theorem respond_padwC (c d : BitVec 4) (v : BitVec 24) (s : State) : (respond c d v s).padwC = s.padwC :=
  rfl
@[simp] theorem respond_padhC (c d : BitVec 4) (v : BitVec 24) (s : State) : (respond c d v s).padhC = s.padhC :=
  rfl
@[simp] theorem respond_frameValid (c d : BitVec 4) (v : BitVec 24) (s : State) : (respond c d v s).frameValid = s.frameValid :=
  rfl
@[simp] theorem respond_planeY (c d : BitVec 4) (v : BitVec 24) (s : State) : (respond c d v s).planeY = s.planeY :=
  rfl
@[simp] theorem respond_planeU (c d : BitVec 4) (v : BitVec 24) (s : State) : (respond c d v s).planeU = s.planeU :=
  rfl
@[simp] theorem respond_planeV (c d : BitVec 4) (v : BitVec 24) (s : State) : (respond c d v s).planeV = s.planeV :=
  rfl
@[simp] theorem respond_chan (c d : BitVec 4) (v : BitVec 24) (s : State) : (respond c d v s).chan = s.chan :=
  rfl
@[simp] theorem respond_events (c d : BitVec 4) (v : BitVec 24) (s : State) : (respond c d v s).events = s.events :=
  rfl
@[simp] theorem respond_responses (c d : BitVec 4) (v : BitVec 24) (s : State) : (respond c d v s).responses = s.responses ++ [responseWord c d v] :=
  rfl
@[simp] theorem respond_planeReads (c d : BitVec 4) (v : BitVec 24) (s : State) : (respond c d v s).planeReads = s.planeReads :=
  rfl
@[simp] theorem respond_waiting (c d : BitVec 4) (v : BitVec 24) (s : State) : (respond c d v s).waiting = s.waiting :=
  rfl
@[simp] theorem respond_draws (c d : BitVec 4) (v : BitVec 24) (s : State) : (respond c d v s).draws = s.draws :=
  rfl

@[simp] theorem latch_acc (k : FaultKind) (s : State) : (latch k s).acc = s.acc :=
  by unfold latch; split <;> rfl
@[simp] theorem latch_cnt (k : FaultKind) (s : State) : (latch k s).cnt = s.cnt :=
  by unfold latch; split <;> rfl
@[simp] theorem latch_opened (k : FaultKind) (s : State) : (latch k s).opened = s.opened :=
  by unfold latch; split <;> rfl
@[simp] theorem latch_dir (k : FaultKind) (s : State) : (latch k s).dir = s.dir :=
  by unfold latch; split <;> rfl
@[simp] theorem latch_width (k : FaultKind) (s : State) : (latch k s).width = s.width :=
  by unfold latch; split <;> rfl
@[simp] theorem latch_height (k : FaultKind) (s : State) : (latch k s).height = s.height :=
  by unfold latch; split <;> rfl
@[simp] theorem latch_padwY (k : FaultKind) (s : State) : (latch k s).padwY = s.padwY :=
  by unfold latch; split <;> rfl
@[simp] theorem latch_padhY (k : FaultKind) (s : State) : (latch k s).padhY = s.padhY :=
  by unfold latch; split <;> rfl
@[simp] theorem latch_padwC (k : FaultKind) (s : State) : (latch k s).padwC = s.padwC :=
  by unfold latch; split <;> rfl
@[simp] theorem latch_padhC (k : FaultKind) (s : State) : (latch k s).padhC = s.padhC :=
  by unfold latch; split <;> rfl
@[simp] theorem latch_frameValid (k : FaultKind) (s : State) : (latch k s).frameValid = s.frameValid :=
  by unfold latch; split <;> rfl
@[simp] theorem latch_planeY (k : FaultKind) (s : State) : (latch k s).planeY = s.planeY :=
  by unfold latch; split <;> rfl
@[simp] theorem latch_planeU (k : FaultKind) (s : State) : (latch k s).planeU = s.planeU :=
  by unfold latch; split <;> rfl
@[simp] theorem latch_planeV (k : FaultKind) (s : State) : (latch k s).planeV = s.planeV :=
  by unfold latch; split <;> rfl
@[simp] theorem latch_chan (k : FaultKind) (s : State) : (latch k s).chan = s.chan :=
  by unfold latch; split <;> rfl
@[simp] theorem latch_events (k : FaultKind) (s : State) : (latch k s).events = s.events :=
  by unfold latch; split <;> rfl
@[simp] theorem latch_responses (k : FaultKind) (s : State) : (latch k s).responses = s.responses :=
  by unfold latch; split <;> rfl
@[simp] theorem latch_planeReads (k : FaultKind) (s : State) : (latch k s).planeReads = s.planeReads :=
  by unfold latch; split <;> rfl
@[simp] theorem latch_waiting (k : FaultKind) (s : State) : (latch k s).waiting = s.waiting :=
  by unfold latch; split <;> rfl
@[simp] theorem latch_draws (k : FaultKind) (s : State) : (latch k s).draws = s.draws :=
  by unfold latch; split <;> rfl

@[simp] theorem drawContext_acc (s : State) : (drawContext s).acc = Config.freeAcc s.draws :=
  rfl
@[simp] theorem drawContext_cnt (s : State) : (drawContext s).cnt = Config.freeCnt s.draws :=
  rfl
@[simp] theorem drawContext_opened (s : State) : (drawContext s).opened = s.opened :=
  rfl
@[simp] theorem drawContext_dir (s : State) : (drawContext s).dir = s.dir :=
  rfl
@[simp] theorem drawContext_cause (s : State) : (drawContext s).cause = s.cause :=
  rfl
@[simp] theorem drawContext_detail (s : State) : (drawContext s).detail = s.detail :=
  rfl
@[simp] theorem drawContext_width (s : State) : (drawContext s).width = s.width :=
  rfl
@[simp] theorem drawContext_height (s : State) : (drawContext s).height = s.height :=
  rfl
@[simp] theorem drawContext_padwY (s : State) : (drawContext s).padwY = s.padwY :=
  rfl
@[simp] theorem drawContext_padhY (s : State) : (drawContext s).padhY = s.padhY :=
  rfl
@[simp] theorem drawContext_padwC (s : State) : (drawContext s).padwC = s.padwC :=
  rfl
@[simp] theorem drawContext_padhC (s : State) : (drawContext s).padhC = s.padhC :=
  rfl
@[simp] theorem drawContext_frameValid (s : State) : (drawContext s).frameValid = s.frameValid :=
  rfl
@[simp] theorem drawContext_planeY (s : State) : (drawContext s).planeY = s.planeY :=
  rfl
@[simp] theorem drawContext_planeU (s : State) : (drawContext s).planeU = s.planeU :=
  rfl
@[simp] theorem drawContext_planeV (s : State) : (drawContext s).planeV = s.planeV :=
  rfl
@[simp] theorem drawContext_chan (s : State) : (drawContext s).chan = s.chan :=
  rfl
@[simp] theorem drawContext_events (s : State) : (drawContext s).events = s.events :=
  rfl
@[simp] theorem drawContext_responses (s : State) : (drawContext s).responses = s.responses :=
  rfl
@[simp] theorem drawContext_planeReads (s : State) : (drawContext s).planeReads = s.planeReads :=
  rfl
@[simp] theorem drawContext_waiting (s : State) : (drawContext s).waiting = s.waiting :=
  rfl
@[simp] theorem drawContext_draws (s : State) : (drawContext s).draws = s.draws + 1 :=
  rfl

@[simp] theorem hang_acc (c : Channels) (s : State) : (hang c s).acc = s.acc :=
  rfl
@[simp] theorem hang_cnt (c : Channels) (s : State) : (hang c s).cnt = s.cnt :=
  rfl
@[simp] theorem hang_opened (c : Channels) (s : State) : (hang c s).opened = s.opened :=
  rfl
@[simp] theorem hang_dir (c : Channels) (s : State) : (hang c s).dir = s.dir :=
  rfl
@[simp] theorem hang_cause (c : Channels) (s : State) : (hang c s).cause = s.cause :=
  rfl
@[simp] theorem hang_detail (c : Channels) (s : State) : (hang c s).detail = s.detail :=
  rfl
@[simp] theorem hang_width (c : Channels) (s : State) : (hang c s).width = s.width :=
  rfl
@[simp] theorem hang_height (c : Channels) (s : State) : (hang c s).height = s.height :=
  rfl
@[simp] theorem hang_padwY (c : Channels) (s : State) : (hang c s).padwY = s.padwY :=
  rfl
@[simp] theorem hang_padhY (c : Channels) (s : State) : (hang c s).padhY = s.padhY :=
  rfl
@[simp] theorem hang_padwC (c : Channels) (s : State) : (hang c s).padwC = s.padwC :=
  rfl
@[simp] theorem hang_padhC (c : Channels) (s : State) : (hang c s).padhC = s.padhC :=
  rfl
@[simp] theorem hang_frameValid (c : Channels) (s : State) : (hang c s).frameValid = s.frameValid :=
  rfl
@[simp] theorem hang_planeY (c : Channels) (s : State) : (hang c s).planeY = s.planeY :=
  rfl
@[simp] theorem hang_planeU (c : Channels) (s : State) : (hang c s).planeU = s.planeU :=
  rfl
@[simp] theorem hang_planeV (c : Channels) (s : State) : (hang c s).planeV = s.planeV :=
  rfl
@[simp] theorem hang_chan (c : Channels) (s : State) : (hang c s).chan = s.chan :=
  rfl
@[simp] theorem hang_events (c : Channels) (s : State) : (hang c s).events = s.events :=
  rfl
@[simp] theorem hang_responses (c : Channels) (s : State) : (hang c s).responses = s.responses :=
  rfl
@[simp] theorem hang_planeReads (c : Channels) (s : State) : (hang c s).planeReads = s.planeReads :=
  rfl
@[simp] theorem hang_waiting (c : Channels) (s : State) : (hang c s).waiting = some c :=
  rfl
@[simp] theorem hang_draws (c : Channels) (s : State) : (hang c s).draws = s.draws :=
  rfl

@[simp] theorem setContext_acc (a c : Nat) (s : State) : (setContext a c s).acc = BitVec.ofNat 31 a :=
  rfl
@[simp] theorem setContext_cnt (a c : Nat) (s : State) : (setContext a c s).cnt = BitVec.ofNat 5 c :=
  rfl
@[simp] theorem setContext_opened (a c : Nat) (s : State) : (setContext a c s).opened = s.opened :=
  rfl
@[simp] theorem setContext_dir (a c : Nat) (s : State) : (setContext a c s).dir = s.dir :=
  rfl
@[simp] theorem setContext_cause (a c : Nat) (s : State) : (setContext a c s).cause = s.cause :=
  rfl
@[simp] theorem setContext_detail (a c : Nat) (s : State) : (setContext a c s).detail = s.detail :=
  rfl
@[simp] theorem setContext_width (a c : Nat) (s : State) : (setContext a c s).width = s.width :=
  rfl
@[simp] theorem setContext_height (a c : Nat) (s : State) : (setContext a c s).height = s.height :=
  rfl
@[simp] theorem setContext_padwY (a c : Nat) (s : State) : (setContext a c s).padwY = s.padwY :=
  rfl
@[simp] theorem setContext_padhY (a c : Nat) (s : State) : (setContext a c s).padhY = s.padhY :=
  rfl
@[simp] theorem setContext_padwC (a c : Nat) (s : State) : (setContext a c s).padwC = s.padwC :=
  rfl
@[simp] theorem setContext_padhC (a c : Nat) (s : State) : (setContext a c s).padhC = s.padhC :=
  rfl
@[simp] theorem setContext_frameValid (a c : Nat) (s : State) : (setContext a c s).frameValid = s.frameValid :=
  rfl
@[simp] theorem setContext_planeY (a c : Nat) (s : State) : (setContext a c s).planeY = s.planeY :=
  rfl
@[simp] theorem setContext_planeU (a c : Nat) (s : State) : (setContext a c s).planeU = s.planeU :=
  rfl
@[simp] theorem setContext_planeV (a c : Nat) (s : State) : (setContext a c s).planeV = s.planeV :=
  rfl
@[simp] theorem setContext_chan (a c : Nat) (s : State) : (setContext a c s).chan = s.chan :=
  rfl
@[simp] theorem setContext_events (a c : Nat) (s : State) : (setContext a c s).events = s.events :=
  rfl
@[simp] theorem setContext_responses (a c : Nat) (s : State) : (setContext a c s).responses = s.responses :=
  rfl
@[simp] theorem setContext_planeReads (a c : Nat) (s : State) : (setContext a c s).planeReads = s.planeReads :=
  rfl
@[simp] theorem setContext_waiting (a c : Nat) (s : State) : (setContext a c s).waiting = s.waiting :=
  rfl
@[simp] theorem setContext_draws (a c : Nat) (s : State) : (setContext a c s).draws = s.draws :=
  rfl

@[simp] theorem forgetPlanes_acc (s : State) : (forgetPlanes s).acc = s.acc :=
  rfl
@[simp] theorem forgetPlanes_cnt (s : State) : (forgetPlanes s).cnt = s.cnt :=
  rfl
@[simp] theorem forgetPlanes_opened (s : State) : (forgetPlanes s).opened = s.opened :=
  rfl
@[simp] theorem forgetPlanes_dir (s : State) : (forgetPlanes s).dir = s.dir :=
  rfl
@[simp] theorem forgetPlanes_cause (s : State) : (forgetPlanes s).cause = s.cause :=
  rfl
@[simp] theorem forgetPlanes_detail (s : State) : (forgetPlanes s).detail = s.detail :=
  rfl
@[simp] theorem forgetPlanes_width (s : State) : (forgetPlanes s).width = s.width :=
  rfl
@[simp] theorem forgetPlanes_height (s : State) : (forgetPlanes s).height = s.height :=
  rfl
@[simp] theorem forgetPlanes_padwY (s : State) : (forgetPlanes s).padwY = s.padwY :=
  rfl
@[simp] theorem forgetPlanes_padhY (s : State) : (forgetPlanes s).padhY = s.padhY :=
  rfl
@[simp] theorem forgetPlanes_padwC (s : State) : (forgetPlanes s).padwC = s.padwC :=
  rfl
@[simp] theorem forgetPlanes_padhC (s : State) : (forgetPlanes s).padhC = s.padhC :=
  rfl
@[simp] theorem forgetPlanes_frameValid (s : State) : (forgetPlanes s).frameValid = s.frameValid :=
  rfl
@[simp] theorem forgetPlanes_planeY (s : State) : (forgetPlanes s).planeY = [] :=
  rfl
@[simp] theorem forgetPlanes_planeU (s : State) : (forgetPlanes s).planeU = [] :=
  rfl
@[simp] theorem forgetPlanes_planeV (s : State) : (forgetPlanes s).planeV = [] :=
  rfl
@[simp] theorem forgetPlanes_chan (s : State) : (forgetPlanes s).chan = s.chan :=
  rfl
@[simp] theorem forgetPlanes_events (s : State) : (forgetPlanes s).events = s.events :=
  rfl
@[simp] theorem forgetPlanes_responses (s : State) : (forgetPlanes s).responses = s.responses :=
  rfl
@[simp] theorem forgetPlanes_planeReads (s : State) : (forgetPlanes s).planeReads = s.planeReads :=
  rfl
@[simp] theorem forgetPlanes_waiting (s : State) : (forgetPlanes s).waiting = s.waiting :=
  rfl
@[simp] theorem forgetPlanes_draws (s : State) : (forgetPlanes s).draws = s.draws :=
  rfl

@[simp] theorem setPlane_acc (s : State) (p : PlaneId) (m : Memory) : (s.setPlane p m).acc = s.acc :=
  by cases p <;> rfl
@[simp] theorem setPlane_cnt (s : State) (p : PlaneId) (m : Memory) : (s.setPlane p m).cnt = s.cnt :=
  by cases p <;> rfl
@[simp] theorem setPlane_opened (s : State) (p : PlaneId) (m : Memory) : (s.setPlane p m).opened = s.opened :=
  by cases p <;> rfl
@[simp] theorem setPlane_dir (s : State) (p : PlaneId) (m : Memory) : (s.setPlane p m).dir = s.dir :=
  by cases p <;> rfl
@[simp] theorem setPlane_cause (s : State) (p : PlaneId) (m : Memory) : (s.setPlane p m).cause = s.cause :=
  by cases p <;> rfl
@[simp] theorem setPlane_detail (s : State) (p : PlaneId) (m : Memory) : (s.setPlane p m).detail = s.detail :=
  by cases p <;> rfl
@[simp] theorem setPlane_width (s : State) (p : PlaneId) (m : Memory) : (s.setPlane p m).width = s.width :=
  by cases p <;> rfl
@[simp] theorem setPlane_height (s : State) (p : PlaneId) (m : Memory) : (s.setPlane p m).height = s.height :=
  by cases p <;> rfl
@[simp] theorem setPlane_padwY (s : State) (p : PlaneId) (m : Memory) : (s.setPlane p m).padwY = s.padwY :=
  by cases p <;> rfl
@[simp] theorem setPlane_padhY (s : State) (p : PlaneId) (m : Memory) : (s.setPlane p m).padhY = s.padhY :=
  by cases p <;> rfl
@[simp] theorem setPlane_padwC (s : State) (p : PlaneId) (m : Memory) : (s.setPlane p m).padwC = s.padwC :=
  by cases p <;> rfl
@[simp] theorem setPlane_padhC (s : State) (p : PlaneId) (m : Memory) : (s.setPlane p m).padhC = s.padhC :=
  by cases p <;> rfl
@[simp] theorem setPlane_frameValid (s : State) (p : PlaneId) (m : Memory) : (s.setPlane p m).frameValid = s.frameValid :=
  by cases p <;> rfl
@[simp] theorem setPlane_chan (s : State) (p : PlaneId) (m : Memory) : (s.setPlane p m).chan = s.chan :=
  by cases p <;> rfl
@[simp] theorem setPlane_events (s : State) (p : PlaneId) (m : Memory) : (s.setPlane p m).events = s.events :=
  by cases p <;> rfl
@[simp] theorem setPlane_responses (s : State) (p : PlaneId) (m : Memory) : (s.setPlane p m).responses = s.responses :=
  by cases p <;> rfl
@[simp] theorem setPlane_planeReads (s : State) (p : PlaneId) (m : Memory) : (s.setPlane p m).planeReads = s.planeReads :=
  by cases p <;> rfl
@[simp] theorem setPlane_waiting (s : State) (p : PlaneId) (m : Memory) : (s.setPlane p m).waiting = s.waiting :=
  by cases p <;> rfl
@[simp] theorem setPlane_draws (s : State) (p : PlaneId) (m : Memory) : (s.setPlane p m).draws = s.draws :=
  by cases p <;> rfl

@[simp] theorem setReg_acc (s : State) (reg : Nat) (v : Half) : (s.setReg reg v).acc = s.acc :=
  by unfold State.setReg; split <;> rfl
@[simp] theorem setReg_cnt (s : State) (reg : Nat) (v : Half) : (s.setReg reg v).cnt = s.cnt :=
  by unfold State.setReg; split <;> rfl
@[simp] theorem setReg_opened (s : State) (reg : Nat) (v : Half) : (s.setReg reg v).opened = s.opened :=
  by unfold State.setReg; split <;> rfl
@[simp] theorem setReg_dir (s : State) (reg : Nat) (v : Half) : (s.setReg reg v).dir = s.dir :=
  by unfold State.setReg; split <;> rfl
@[simp] theorem setReg_cause (s : State) (reg : Nat) (v : Half) : (s.setReg reg v).cause = s.cause :=
  by unfold State.setReg; split <;> rfl
@[simp] theorem setReg_detail (s : State) (reg : Nat) (v : Half) : (s.setReg reg v).detail = s.detail :=
  by unfold State.setReg; split <;> rfl
@[simp] theorem setReg_frameValid (s : State) (reg : Nat) (v : Half) : (s.setReg reg v).frameValid = s.frameValid :=
  by unfold State.setReg; split <;> rfl
@[simp] theorem setReg_planeY (s : State) (reg : Nat) (v : Half) : (s.setReg reg v).planeY = s.planeY :=
  by unfold State.setReg; split <;> rfl
@[simp] theorem setReg_planeU (s : State) (reg : Nat) (v : Half) : (s.setReg reg v).planeU = s.planeU :=
  by unfold State.setReg; split <;> rfl
@[simp] theorem setReg_planeV (s : State) (reg : Nat) (v : Half) : (s.setReg reg v).planeV = s.planeV :=
  by unfold State.setReg; split <;> rfl
@[simp] theorem setReg_chan (s : State) (reg : Nat) (v : Half) : (s.setReg reg v).chan = s.chan :=
  by unfold State.setReg; split <;> rfl
@[simp] theorem setReg_events (s : State) (reg : Nat) (v : Half) : (s.setReg reg v).events = s.events :=
  by unfold State.setReg; split <;> rfl
@[simp] theorem setReg_responses (s : State) (reg : Nat) (v : Half) : (s.setReg reg v).responses = s.responses :=
  by unfold State.setReg; split <;> rfl
@[simp] theorem setReg_planeReads (s : State) (reg : Nat) (v : Half) : (s.setReg reg v).planeReads = s.planeReads :=
  by unfold State.setReg; split <;> rfl
@[simp] theorem setReg_waiting (s : State) (reg : Nat) (v : Half) : (s.setReg reg v).waiting = s.waiting :=
  by unfold State.setReg; split <;> rfl
@[simp] theorem setReg_draws (s : State) (reg : Nat) (v : Half) : (s.setReg reg v).draws = s.draws :=
  by unfold State.setReg; split <;> rfl

@[simp] theorem resetBlock_acc (s : State) : (resetBlock s).acc = 0 :=
  rfl
@[simp] theorem resetBlock_cnt (s : State) : (resetBlock s).cnt = 0 :=
  rfl
@[simp] theorem resetBlock_opened (s : State) : (resetBlock s).opened = false :=
  rfl
@[simp] theorem resetBlock_dir (s : State) : (resetBlock s).dir = .write :=
  rfl
@[simp] theorem resetBlock_cause (s : State) : (resetBlock s).cause = 0 :=
  rfl
@[simp] theorem resetBlock_detail (s : State) : (resetBlock s).detail = 0 :=
  rfl
@[simp] theorem resetBlock_width (s : State) : (resetBlock s).width = 0 :=
  rfl
@[simp] theorem resetBlock_height (s : State) : (resetBlock s).height = 0 :=
  rfl
@[simp] theorem resetBlock_padwY (s : State) : (resetBlock s).padwY = 0 :=
  rfl
@[simp] theorem resetBlock_padhY (s : State) : (resetBlock s).padhY = 0 :=
  rfl
@[simp] theorem resetBlock_padwC (s : State) : (resetBlock s).padwC = 0 :=
  rfl
@[simp] theorem resetBlock_padhC (s : State) : (resetBlock s).padhC = 0 :=
  rfl
@[simp] theorem resetBlock_frameValid (s : State) : (resetBlock s).frameValid = false :=
  rfl
@[simp] theorem resetBlock_planeY (s : State) : (resetBlock s).planeY = [] :=
  rfl
@[simp] theorem resetBlock_planeU (s : State) : (resetBlock s).planeU = [] :=
  rfl
@[simp] theorem resetBlock_planeV (s : State) : (resetBlock s).planeV = [] :=
  rfl
@[simp] theorem resetBlock_chan (s : State) : (resetBlock s).chan = s.chan :=
  rfl
@[simp] theorem resetBlock_events (s : State) : (resetBlock s).events = s.events :=
  rfl
@[simp] theorem resetBlock_responses (s : State) : (resetBlock s).responses = s.responses :=
  rfl
@[simp] theorem resetBlock_planeReads (s : State) : (resetBlock s).planeReads = s.planeReads :=
  rfl
@[simp] theorem resetBlock_waiting (s : State) : (resetBlock s).waiting = none :=
  rfl
@[simp] theorem resetBlock_draws (s : State) : (resetBlock s).draws = s.draws :=
  rfl

/-! ### The latch, and the views of the state -/

@[simp] theorem latch_cause_of_none (k : FaultKind) {s : State} (h : s.cause = 0) :
    (latch k s).cause = k.code := by simp [latch, h]

@[simp] theorem latch_detail_of_none (k : FaultKind) {s : State} (h : s.cause = 0) :
    (latch k s).detail = k.detail := by simp [latch, h]

theorem latch_of_faulted (k : FaultKind) {s : State} (h : s.cause ≠ 0) : latch k s = s :=
  if_neg h

@[simp] theorem faulted_eq_false {s : State} : s.faulted = false ↔ s.cause = 0 := by
  simp [State.faulted]

@[simp] theorem faulted_eq_true {s : State} : s.faulted = true ↔ s.cause ≠ 0 := by
  simp [State.faulted]

@[simp] theorem plane_setPlane (s : State) (p : PlaneId) (m : Memory) : (s.setPlane p m).plane p = m := by
  cases p <;> rfl

theorem plane_setPlane_of_ne {p q : PlaneId} (h : q ≠ p) (s : State) (m : Memory) :
    (s.setPlane p m).plane q = s.plane q := by
  cases p <;> cases q <;> first | rfl | exact absurd rfl h

@[simp] theorem plane_forgetPlanes (s : State) (p : PlaneId) : (forgetPlanes s).plane p = [] := by
  cases p <;> rfl

end Sys2Proof.Machine
end

