-- ==== Sys2Proof/Laws/Memory.lean ====
section
/-! SUPPORT. The plane memories: a read after a write, and that every operation keeps the canonical
form. -/

namespace Sys2Proof.Machine

@[simp] theorem Memory.read_nil (off : Nat) : Memory.read off [] = none := rfl

@[simp] theorem Memory.read_write_same (off : Nat) (v : Byte) (m : Memory) :
    Memory.read off (Memory.write off v m) = some v := by
  induction m with
  | nil => simp [Memory.write, Memory.read]
  | cons c m ih =>
    obtain ⟨a, b⟩ := c
    simp only [Memory.write]
    split
    · simp [Memory.read]
    · split
      · simp [Memory.read]
      · rename_i h
        simp [Memory.read, Ne.symm h, ih]

theorem Memory.read_write_of_ne {off x : Nat} (h : x ≠ off) (v : Byte) (m : Memory) :
    Memory.read x (Memory.write off v m) = Memory.read x m := by
  induction m with
  | nil => simp [Memory.write, Memory.read, Ne.symm h]
  | cons c m ih =>
    obtain ⟨a, b⟩ := c
    simp only [Memory.write]
    split
    · simp [Memory.read, Ne.symm h]
    · split
      · rename_i h'
        subst h'
        simp [Memory.read, Ne.symm h]
      · simp only [Memory.read, ih]

theorem Memory.wfFrom_write {lo off : Nat} {m : Memory} (v : Byte) (hm : Memory.wfFrom lo m = true)
    (hlo : lo ≤ off) (hoff : off < 2 ^ 32) : Memory.wfFrom lo (Memory.write off v m) = true := by
  induction m generalizing lo with
  | nil => simp only [Memory.write, Memory.wfFrom, hlo, hoff, decide_true, Bool.and_self]
  | cons c m ih =>
    obtain ⟨a, b⟩ := c
    simp only [Memory.wfFrom, Bool.and_eq_true, decide_eq_true_eq] at hm
    obtain ⟨⟨h1, h2⟩, h3⟩ := hm
    simp only [Memory.write]
    split
    · rename_i h
      simp only [Memory.wfFrom, Bool.and_eq_true, decide_eq_true_eq]
      exact ⟨⟨hlo, hoff⟩, ⟨by omega, h2⟩, h3⟩
    · split
      · rename_i h
        subst h
        simp only [Memory.wfFrom, Bool.and_eq_true, decide_eq_true_eq]
        exact ⟨⟨hlo, hoff⟩, h3⟩
      · simp only [Memory.wfFrom, Bool.and_eq_true, decide_eq_true_eq]
        exact ⟨⟨h1, h2⟩, ih h3 (by omega)⟩

/-- `MemWrite` keeps the canonical form (R60). -/
theorem Memory.wf_write {off : Nat} {m : Memory} (v : Byte) (hm : Memory.wf m = true)
    (hoff : off < 2 ^ 32) : Memory.wf (Memory.write off v m) = true :=
  Memory.wfFrom_write v hm (Nat.zero_le off) hoff

/-- The zero fill keeps the canonical form (R148). -/
theorem Memory.wf_zeroBelow {n : Nat} {m : Memory} (hm : Memory.wf m = true) (hn : n ≤ 2 ^ 32) :
    Memory.wf (Memory.zeroBelow n m) = true := by
  induction n generalizing m with
  | zero => exact hm
  | succ n ih => exact ih (Memory.wf_write _ hm (by omega)) (by omega)

/-- Unspecified planes are in canonical form (R42, R151). -/
theorem Memory.wf_nil : Memory.wf [] = true := rfl

theorem State.reset_planes_wf (p : PlaneId) : Memory.wf (State.reset.plane p) = true := by
  cases p <;> rfl

/-- What the zero fill leaves: zero below the size, all else as it was (R148). -/
theorem Memory.read_zeroBelow (n x : Nat) (m : Memory) :
    Memory.read x (Memory.zeroBelow n m) = if x < n then some 0x00#8 else Memory.read x m := by
  induction n generalizing m with
  | zero => simp [Memory.zeroBelow]
  | succ n ih =>
    rw [Memory.zeroBelow, ih]
    by_cases h : x < n
    · simp [h, show x < n + 1 by omega]
    · by_cases h' : x = n
      · subst h'; simp
      · simp [h, show ¬ x < n + 1 by omega, Memory.read_write_of_ne h']

@[simp] theorem memRead_memWrite_same (p : PlaneId) (off : Nat) (v : Byte) (s : State) :
    memRead p off (memWrite p off v s) = some v := by
  simp [memRead, memWrite]

/-- `MemWrite` has no effect beyond its byte (R60). -/
theorem memRead_memWrite_of_ne {p q : PlaneId} {off x : Nat} (h : (q, x) ≠ (p, off)) (v : Byte)
    (s : State) : memRead q x (memWrite p off v s) = memRead q x s := by
  unfold memRead memWrite
  by_cases hq : q = p
  · subst hq
    rw [plane_setPlane, Memory.read_write_of_ne]
    rintro rfl
    exact h rfl
  · rw [plane_setPlane_of_ne hq]

@[simp] theorem memRead_forgetPlanes (p : PlaneId) (off : Nat) (s : State) :
    memRead p off (forgetPlanes s) = none := by
  simp [memRead]

end Sys2Proof.Machine
end

