-- ==== Sys2Proof/Laws/Ops.lean ====
section
/-! SUPPORT. What each shared operation can do: raising a fault, pushing, pulling, the accumulator. -/

namespace Sys2Proof.Machine

open Sys2Proof.Safety

/-! ### Responses and faults -/

/-- The bits of a response word (R84). -/
theorem getLsbD_responseWord (c d : BitVec 4) (v : BitVec 24) (i : Nat) :
    (responseWord c d v).getLsbD i =
      if i < 24 then v.getLsbD i else if i < 28 then d.getLsbD (i - 24) else c.getLsbD (i - 28) := by
  have h1 := BitVec.getLsbD_append (x := c ++ d) (y := v) (i := i)
  have h2 := BitVec.getLsbD_append (x := c) (y := d) (i := i - 24)
  refine h1.trans ?_
  by_cases h : i < 24
  · simp [h]
  · simp only [h, if_false]
    refine h2.trans ?_
    by_cases h' : i < 28
    · simp [h', show i - 24 < 4 by omega]
    · simp [h', show ¬ i - 24 < 4 by omega, show i - 24 - 4 = i - 28 by omega]

@[simp] theorem codeOf_responseWord (c d : BitVec 4) (v : BitVec 24) :
    codeOf (responseWord c d v) = c.toNat := by
  refine congrArg BitVec.toNat (BitVec.eq_of_getLsbD_eq fun i hi => ?_)
  rw [BitVec.getLsbD_extractLsb', getLsbD_responseWord]
  simp [hi, show ¬ 28 + i < 24 by omega]

@[simp] theorem detailOf_responseWord (c d : BitVec 4) (v : BitVec 24) :
    detailOf (responseWord c d v) = d.toNat := by
  refine congrArg BitVec.toNat (BitVec.eq_of_getLsbD_eq fun i hi => ?_)
  rw [BitVec.getLsbD_extractLsb', getLsbD_responseWord]
  simp [hi, show 24 + i < 28 by omega]

@[simp] theorem valueOf_responseWord (c d : BitVec 4) (v : BitVec 24) :
    (responseWord c d v).extractLsb' 0 24 = v := by
  refine BitVec.eq_of_getLsbD_eq fun i hi => ?_
  rw [BitVec.getLsbD_extractLsb', getLsbD_responseWord]
  simp [hi]

/-- The response of an OK command is its value, zero-extended. -/
theorem responseWord_ok (v : BitVec 24) : responseWord 0 0 v = v.zeroExtend 32 := by
  refine BitVec.eq_of_getLsbD_eq fun i hi => ?_
  rw [getLsbD_responseWord, BitVec.zeroExtend, BitVec.getLsbD_setWidth]
  by_cases h : i < 24
  · simp [h, hi]
  · simp [h, BitVec.getLsbD_of_ge v i (by omega)]

@[simp] theorem raise_eq (k : FaultKind) (s : State) :
    raise k s = respond k.code k.detail 0 (latch k s) := rfl

@[simp] theorem raiseMid_eq (k : FaultKind) (s : State) :
    raiseMid k s = respond k.code k.detail 0 (latch k (drawContext s)) := rfl

@[simp] theorem respondOk_eq (v : BitVec 24) (s : State) : respondOk v s = respond 0 0 v s := rfl

/-- The codes of the latched faults (R85). -/
theorem FaultKind.code_cases (k : FaultKind) :
    k.code = 1 ∨ k.code = 4 ∨ k.code = 5 ∨ k.code = 6 := by
  cases k <;> decide

theorem FaultKind.code_ne_zero (k : FaultKind) : k.code ≠ 0 := by
  cases k <;> decide

/-- Every latched fault is a pair of the table of R191. -/
theorem FaultKind.pair_listed (k : FaultKind) : (k.code.toNat, k.detail.toNat) ∈ faultPairs := by
  cases k <;> decide

/-- With no fault latched a command's own body runs (R89). -/
theorem unlessFaulted_of_none {s : State} (h : s.cause = 0) (f : State → State) :
    unlessFaulted f s = f s := by
  simp [unlessFaulted, faulted_eq_false.mpr h]

/-- In the FAULTED state the latched pair is answered, and nothing else happens (R196). -/
theorem unlessFaulted_of_faulted {s : State} (h : s.cause ≠ 0) (f : State → State) :
    unlessFaulted f s = respond s.cause s.detail 0 s := by
  simp [unlessFaulted, faulted_eq_true.mpr h, refuseLatched]

/-! ### Pushing -/

/-- The channels after a list of accepted pushes. -/
def Channels.pushed (bs : List Byte) (c : Channels) : Channels :=
  { c with sinkOut := c.sinkOut ++ bs, sinkPlan := c.sinkPlan.after bs.length }

/-- `s` after a list of accepted pushes. -/
def State.pushed (bs : List Byte) (s : State) : State := { s with chan := s.chan.pushed bs }

@[simp] theorem SinkPlan.after_zero (p : SinkPlan) : p.after 0 = p := by
  cases p <;> rfl

theorem SinkPlan.after_after (p : SinkPlan) (j k : Nat) : (p.after j).after k = p.after (j + k) := by
  cases p <;> simp [SinkPlan.after] <;> omega

@[simp] theorem State.pushed_nil (s : State) : s.pushed [] = s := by
  simp [State.pushed, Channels.pushed]

theorem State.pushed_append (s : State) (xs ys : List Byte) :
    (s.pushed xs).pushed ys = s.pushed (xs ++ ys) := by
  simp [State.pushed, Channels.pushed, SinkPlan.after_after]

theorem acceptsNext_append {p : SinkPlan} {j k : Nat} (h : acceptsNext (j + k) p = true) :
    acceptsNext j p = true ∧ acceptsNext k (p.after j) = true := by
  cases p <;> simp_all [acceptsNext, SinkPlan.after] <;> omega

/-- A push that is accepted (R53). -/
theorem sinkPush_ok {s : State} (start : Channels) (b : Byte) (h : acceptsNext 1 s.chan.sinkPlan = true) :
    sinkPush start b s = .cont (s.pushed [b]) := by
  unfold sinkPush Channels.push
  rcases hp : s.chan.sinkPlan with _ | n | n
  · simp [State.pushed, Channels.pushed, SinkPlan.after, hp]
  · rcases n with _ | n
    · simp [acceptsNext, hp] at h
    · simp [State.pushed, Channels.pushed, SinkPlan.after, hp]
  · rcases n with _ | n
    · simp [acceptsNext, hp] at h
    · simp [State.pushed, Channels.pushed, SinkPlan.after, hp]

/-- A push that answers `error` (R53, R107). -/
theorem sinkPush_error {s : State} (start : Channels) (b : Byte) (h : s.chan.sinkPlan = .failsAfter 0) :
    sinkPush start b s = .over (raiseMid .echPush s) := by
  simp [sinkPush, Channels.push, h]

/-- A push that is never answered (R57). -/
theorem sinkPush_silent {s : State} (start : Channels) (b : Byte)
    (h : s.chan.sinkPlan = .silentAfter 0) : sinkPush start b s = .over (hang start s) := by
  simp [sinkPush, Channels.push, h]

/-- A push is accepted, fails, or is never answered. -/
theorem sinkPush_cases (start : Channels) (b : Byte) (s : State) :
    sinkPush start b s = .cont (s.pushed [b]) ∨
    sinkPush start b s = .over (raiseMid .echPush s) ∨
    sinkPush start b s = .over (hang start s) := by
  rcases hp : s.chan.sinkPlan with _ | n | n
  · exact .inl (sinkPush_ok start b (by simp [hp, acceptsNext]))
  · rcases n with _ | n
    · exact .inr (.inl (sinkPush_error start b hp))
    · exact .inl (sinkPush_ok start b (by simp [hp, acceptsNext]))
  · rcases n with _ | n
    · exact .inr (.inr (sinkPush_silent start b hp))
    · exact .inl (sinkPush_ok start b (by simp [hp, acceptsNext]))

/-! ### Pulling -/

/-- `s` with ECH's read side replaced. -/
def State.withEch (src : Source) (s : State) : State := { s with chan := { s.chan with ech := src } }

/-- `s` with FCH replaced. -/
def State.withFch (src : Source) (s : State) : State := { s with chan := { s.chan with fch := src } }

theorem srcPull_cons {s : State} (start : Channels) {b : Byte} {bs : List Byte}
    (h : s.chan.ech.bytes = b :: bs) :
    srcPull start s = .byte b (s.withEch { s.chan.ech with bytes := bs }) := by
  simp [srcPull, Source.pull, h, State.withEch]

/-- A pull at the end of ECH's bytes, by what follows them (R54 to R57). -/
theorem srcPull_eof {s : State} (start : Channels) (h : s.chan.ech.bytes = [])
    (he : s.chan.ech.ending = .eof) : srcPull start s = .eof := by
  simp [srcPull, Source.pull, h, he]

theorem srcPull_error {s : State} (start : Channels) (h : s.chan.ech.bytes = [])
    (he : s.chan.ech.ending = .error) : srcPull start s = .over (raiseMid .echPull s) := by
  simp [srcPull, Source.pull, h, he]

theorem srcPull_silent {s : State} (start : Channels) (h : s.chan.ech.bytes = [])
    (he : s.chan.ech.ending = .silent) : srcPull start s = .over (hang start s) := by
  simp [srcPull, Source.pull, h, he]

theorem fPull_cons {s : State} (start : Channels) {b : Byte} {bs : List Byte}
    (h : s.chan.fch.bytes = b :: bs) :
    fPull start s = .byte b (s.withFch { s.chan.fch with bytes := bs }) := by
  simp [fPull, Source.pull, h, State.withFch]

/-- A pull at the end of FCH's bytes, by what follows them (R54 to R57). -/
theorem fPull_eof {s : State} (start : Channels) (h : s.chan.fch.bytes = [])
    (he : s.chan.fch.ending = .eof) : fPull start s = .eof := by
  simp [fPull, Source.pull, h, he]

theorem fPull_error {s : State} (start : Channels) (h : s.chan.fch.bytes = [])
    (he : s.chan.fch.ending = .error) : fPull start s = .over (raiseMid .fchPull (forgetPlanes s)) := by
  simp [fPull, Source.pull, h, he]

theorem fPull_silent {s : State} (start : Channels) (h : s.chan.fch.bytes = [])
    (he : s.chan.fch.ending = .silent) : fPull start s = .over (hang start s) := by
  simp [fPull, Source.pull, h, he]

/-! ### The accumulator -/

theorem mask_and (x k : Nat) : x &&& mask k = x % 2 ^ k := by
  simp [mask, Nat.and_two_pow_sub_one_eq_mod]

/-- The field appended is the n low bits of the operand (R102). -/
theorem fieldOf_eq {bits : Half} {n : Nat} : fieldOf bits n = bits.toNat % 2 ^ n := by
  have h := bits.isLt
  simp only [fieldOf, mask_and, BitVec.truncate_eq_setWidth, BitVec.toNat_setWidth]
  rw [Nat.mod_eq_of_lt (show bits.toNat < 2 ^ 24 by omega)]

/-- `setContext` stores exact results that fit the registers (R8). -/
theorem setContext_toNat {a c : Nat} (s : State) (ha : a < 2 ^ 31) (hc : c < 32) :
    (setContext a c s).acc.toNat = a ∧ (setContext a c s).cnt.toNat = c := by
  rw [setContext_acc, setContext_cnt, BitVec.toNat_ofNat, BitVec.toNat_ofNat]
  exact ⟨Nat.mod_eq_of_lt ha, Nat.mod_eq_of_lt hc⟩

/-- Nothing is shifted out of the register (R26), and the n new bits follow the held ones (R102). -/
theorem appendBits_spec {s : State} {bits : Half} {n : Nat} (hs : s.acc.toNat < 2 ^ s.cnt.toNat)
    (hn : s.cnt.toNat + n ≤ 31) :
    (appendBits bits n s).cnt.toNat = s.cnt.toNat + n ∧
    (appendBits bits n s).acc.toNat < 2 ^ (s.cnt.toNat + n) ∧
    heldBits (appendBits bits n s) = heldBits s ++ bitString n bits.toNat := by
  have hf : fieldOf bits n < 2 ^ n := by rw [fieldOf_eq]; exact Nat.mod_lt _ (by positivity)
  have hlt : (s.acc.toNat <<< n) ||| fieldOf bits n < 2 ^ (s.cnt.toNat + n) := by
    apply Nat.or_lt_two_pow
    · rw [Nat.shiftLeft_eq, pow_add]
      exact Nat.mul_lt_mul_of_pos_right hs (by positivity)
    · exact lt_of_lt_of_le hf (Nat.pow_le_pow_right (by omega) (by omega))
  have h31 : (s.acc.toNat <<< n) ||| fieldOf bits n < 2 ^ 31 :=
    lt_of_lt_of_le hlt (Nat.pow_le_pow_right (by omega) (by omega))
  obtain ⟨ha, hc⟩ := setContext_toNat s h31 (show s.cnt.toNat + n < 32 by omega)
  refine ⟨hc, by rw [appendBits, ha]; exact hlt, ?_⟩
  rw [heldBits, appendBits, ha, hc, bitString_append_field _ _ _ _ hf, fieldOf_eq,
    bitString_mod (Nat.le_refl n)]
  rfl

/-- A data byte goes in below the held bits (R123). -/
theorem appendByte_spec {s : State} {b : Byte} (hs : s.acc.toNat < 2 ^ s.cnt.toNat)
    (hn : s.cnt.toNat + 8 ≤ 31) :
    (appendByte b s).cnt.toNat = s.cnt.toNat + 8 ∧
    (appendByte b s).acc.toNat < 2 ^ (s.cnt.toNat + 8) ∧
    heldBits (appendByte b s) = heldBits s ++ bitString 8 b.toNat := by
  have hf : b.toNat < 2 ^ 8 := b.isLt
  have hlt : (s.acc.toNat <<< 8) ||| b.toNat < 2 ^ (s.cnt.toNat + 8) := by
    apply Nat.or_lt_two_pow
    · rw [Nat.shiftLeft_eq, pow_add]
      exact Nat.mul_lt_mul_of_pos_right hs (by positivity)
    · exact lt_of_lt_of_le hf (Nat.pow_le_pow_right (by omega) (by omega))
  have h31 : (s.acc.toNat <<< 8) ||| b.toNat < 2 ^ 31 :=
    lt_of_lt_of_le hlt (Nat.pow_le_pow_right (by omega) (by omega))
  obtain ⟨ha, hc⟩ := setContext_toNat s h31 (show s.cnt.toNat + 8 < 32 by omega)
  refine ⟨hc, by rw [appendByte, ha]; exact hlt, ?_⟩
  rw [heldBits, appendByte, ha, hc, bitString_append_field _ _ _ _ hf]
  rfl

/-- The n oldest held bits, as a number, and what is left (R103, R124). -/
theorem dropOldest_spec {s : State} {n : Nat} (hs : s.acc.toNat < 2 ^ s.cnt.toNat)
    (hn : n ≤ s.cnt.toNat) :
    (dropOldest n s).cnt.toNat = s.cnt.toNat - n ∧
    (dropOldest n s).acc.toNat < 2 ^ (s.cnt.toNat - n) ∧
    oldestBits n s < 2 ^ n ∧
    heldBits s = bitString n (oldestBits n s) ++ heldBits (dropOldest n s) := by
  have hc32 := s.cnt.isLt
  have hlt : s.acc.toNat &&& mask (s.cnt.toNat - n) < 2 ^ (s.cnt.toNat - n) := by
    rw [mask_and]; exact Nat.mod_lt _ (by positivity)
  have h31 : s.acc.toNat &&& mask (s.cnt.toNat - n) < 2 ^ 31 :=
    lt_of_lt_of_le hlt (Nat.pow_le_pow_right (by omega) (by omega))
  obtain ⟨ha, hc⟩ := setContext_toNat s h31 (show s.cnt.toNat - n < 32 by omega)
  refine ⟨hc, by rw [dropOldest, ha]; exact hlt, ?_, ?_⟩
  · rw [oldestBits, Nat.shiftRight_eq_div_pow]
    apply Nat.div_lt_of_lt_mul
    rw [← pow_add, show s.cnt.toNat - n + n = s.cnt.toNat by omega]
    exact hs
  · rw [heldBits, heldBits, dropOldest, ha, hc, mask_and, bitString_mod (Nat.le_refl _), oldestBits,
      ← bitString_add, show n + (s.cnt.toNat - n) = s.cnt.toNat by omega]

end Sys2Proof.Machine
end

