-- ==== Sys2Proof/Laws/Frame.lean ====
section
/-! SUPPORT. What FRAME_LOAD's shared operations can do: the zero fill and the pull loop. -/

namespace Sys2Proof.Machine

open Sys2Proof.Safety

/-- `t` is `s` with other plane memories. -/
def PlanesOnly (s t : State) : Prop := forgetPlanes t = forgetPlanes s

theorem PlanesOnly.refl (s : State) : PlanesOnly s s := rfl

theorem PlanesOnly.trans {s t u : State} (h : PlanesOnly s t) (g : PlanesOnly t u) : PlanesOnly s u :=
  Eq.trans g h

/-- A part of the state that does not look at the planes is the same on both sides. -/
theorem PlanesOnly.eq {s t : State} (h : PlanesOnly s t) {α : Type} (f : State → α)
    (hf : ∀ s, f (forgetPlanes s) = f s) : f t = f s := by
  rw [← hf t, h, hf s]

theorem PlanesOnly.setPlane (s : State) (p : PlaneId) (m : Memory) : PlanesOnly s (s.setPlane p m) := by
  cases p <;> rfl

theorem PlanesOnly.zeroFill (s : State) : PlanesOnly s (zeroFill s) :=
  ((PlanesOnly.setPlane _ _ _).trans (PlanesOnly.setPlane _ _ _)).trans (PlanesOnly.setPlane _ _ _)

theorem planeSize_of_planesOnly {s t : State} (h : PlanesOnly s t) (p : PlaneId) :
    t.planeSize p = s.planeSize p :=
  h.eq (fun u => u.planeSize p) fun _ => by cases p <;> rfl

theorem place_of_planesOnly {s t : State} (h : PlanesOnly s t) (mode : FillMode) (i : Nat) :
    t.place mode i = s.place mode i :=
  h.eq (fun u => u.place mode i) fun _ => rfl

/-- After the zero fill every byte below SIZE(P) is zero, all others are as before (R148). -/
theorem memRead_zeroFill (s : State) (p : PlaneId) (off : Nat) :
    memRead p off (zeroFill s) = if off < s.planeSize p then some 0x00#8 else memRead p off s := by
  cases p <;> exact Memory.read_zeroBelow _ _ _

/-- A list of stream bytes stored from byte `i` of the frame on (R149). -/
def storeAll (mode : FillMode) : Nat → List Byte → State → State
  | _, [], s => s
  | i, b :: bs, s => storeAll mode (i + 1) bs (storeByte mode i b s)

theorem PlanesOnly.storeByte (mode : FillMode) (i : Nat) (b : Byte) (s : State) :
    PlanesOnly s (storeByte mode i b s) := PlanesOnly.setPlane _ _ _

theorem PlanesOnly.storeAll (mode : FillMode) (i : Nat) (bs : List Byte) (s : State) :
    PlanesOnly s (storeAll mode i bs s) := by
  induction bs generalizing i s with
  | nil => rfl
  | cons b bs ih => exact (PlanesOnly.storeByte mode i b s).trans (ih _ _)

theorem storeByte_withFch (mode : FillMode) (i : Nat) (b : Byte) (src : Source) (s : State) :
    storeByte mode i b (s.withFch src) = (storeByte mode i b s).withFch src := by
  have hp : (s.withFch src).place mode i = s.place mode i := rfl
  unfold storeByte memWrite
  rw [hp]
  cases (s.place mode i).1 <;> rfl

theorem storeAll_withFch (mode : FillMode) (i : Nat) (bs : List Byte) (src : Source) (s : State) :
    storeAll mode i bs (s.withFch src) = (storeAll mode i bs s).withFch src := by
  induction bs generalizing i s with
  | nil => rfl
  | cons b bs ih =>
    rw [storeAll, storeByte_withFch, ih]
    rfl

/-- A byte no stored byte goes to is as before (R149). -/
theorem memRead_storeAll_of_not_placed (mode : FillMode) {p : PlaneId} {off : Nat} (bs : List Byte)
    (i : Nat) (s : State) (h : ∀ j < bs.length, s.place mode (i + j) ≠ (p, off)) :
    memRead p off (storeAll mode i bs s) = memRead p off s := by
  induction bs generalizing i s with
  | nil => rfl
  | cons b bs ih =>
    rw [storeAll, ih]
    · exact memRead_memWrite_of_ne (fun e => h 0 (by simp) (by simpa using e.symm)) _ _
    · intro j hj
      rw [place_of_planesOnly (PlanesOnly.storeByte mode i b s)]
      have := h (j + 1) (by simp; omega)
      rwa [show i + (j + 1) = i + 1 + j by omega] at this

/-- Where no two bytes go to the same place, every byte is found at its place (R149). -/
theorem memRead_storeAll_of_placed (mode : FillMode) (bs : List Byte) (i : Nat) (s : State)
    (h : ∀ j k, j < bs.length → k < bs.length → s.place mode (i + j) = s.place mode (i + k) → j = k)
    {j : Nat} (hj : j < bs.length) :
    memRead (s.place mode (i + j)).1 (s.place mode (i + j)).2 (storeAll mode i bs s) = bs[j]? := by
  induction bs generalizing i s j with
  | nil => simp at hj
  | cons b bs ih =>
    have hp := place_of_planesOnly (PlanesOnly.storeByte mode i b s) (mode := mode)
    rw [storeAll]
    rcases j with _ | j
    · rw [memRead_storeAll_of_not_placed]
      · exact memRead_memWrite_same _ _ _ _
      · intro k hk e
        rw [hp] at e
        have e' : s.place mode (i + (k + 1)) = s.place mode (i + 0) := by
          rw [show i + (k + 1) = i + 1 + k by omega]
          exact e
        have := h (k + 1) 0 (by simp; omega) (by simp) e'
        omega
    · have hj' : j < bs.length := by simpa using hj
      have := ih (i + 1) (storeByte mode i b s) (fun a c ha hc e => by
        rw [hp, hp] at e
        have := h (a + 1) (c + 1) (by simp; omega) (by simp; omega) (by
          rw [show i + (a + 1) = i + 1 + a by omega, show i + (c + 1) = i + 1 + c by omega]
          exact e)
        omega) hj'
      rw [hp] at this
      rw [show i + (j + 1) = i + 1 + j by omega]
      simpa using this

/-- The pull loop on a channel that has the bytes (R149). -/
theorem loadLoop_enough (mode : FillMode) (start : Channels) (k i : Nat) (s : State)
    (h : k ≤ s.chan.fch.bytes.length) :
    loadLoop mode start k i s = .stopped (i + k) (storeAll mode i (s.chan.fch.bytes.take k)
      (s.withFch { s.chan.fch with bytes := s.chan.fch.bytes.drop k })) := by
  induction k generalizing i s with
  | zero => rfl
  | succ k ih =>
    rcases hb : s.chan.fch.bytes with _ | ⟨b, bs⟩
    · simp [hb] at h
    · obtain ⟨u, hu⟩ : ∃ u, u = storeByte mode i b (s.withFch { s.chan.fch with bytes := bs }) :=
        ⟨_, rfl⟩
      have hf : u.chan.fch = { s.chan.fch with bytes := bs } := by
        rw [hu]
        exact (PlanesOnly.storeByte mode i b _).eq (fun u => u.chan.fch) fun _ => rfl
      have hk : k ≤ u.chan.fch.bytes.length := by
        rw [hf]
        simpa [hb] using h
      rw [loadLoop, fPull_cons start hb]
      show loadLoop mode start k (i + 1) (storeByte mode i b (s.withFch _)) = _
      rw [← hu, ih (i + 1) u hk, hf, show i + 1 + k = i + (k + 1) by omega]
      congr 1
      show storeAll mode (i + 1) (bs.take k) _ = storeAll mode (i + 1) (bs.take k) _
      rw [hu, storeByte_withFch, storeByte_withFch]
      rfl

/-- How the pull loop ends that meets the end of FCH's bytes: `u` is the state there, `i` the count
(R149, R150, R154). -/
def loadEnd (start : Channels) (ending : Ending) (i : Nat) (u : State) : Loaded :=
  match ending with
  | .eof => .stopped i u
  | .error => .over (raiseMid .fchPull (forgetPlanes u))
  | .silent => .over (hang start u)

/-- The pull loop on a channel that runs out of bytes: all of them have been consumed. -/
theorem loadLoop_short (mode : FillMode) (start : Channels) (k i : Nat) (s : State)
    (h : s.chan.fch.bytes.length < k) :
    loadLoop mode start k i s = loadEnd start s.chan.fch.ending (i + s.chan.fch.bytes.length)
      (storeAll mode i s.chan.fch.bytes (s.withFch { s.chan.fch with bytes := [] })) := by
  induction k generalizing i s with
  | zero => omega
  | succ k ih =>
    rcases hb : s.chan.fch.bytes with _ | ⟨b, bs⟩
    · have e : s.withFch { s.chan.fch with bytes := [] } = s := by rw [← hb]; rfl
      rw [e, loadLoop]
      rcases he : s.chan.fch.ending with _ | _ | _
      · rw [fPull_eof start hb he]; rfl
      · rw [fPull_error start hb he]; rfl
      · rw [fPull_silent start hb he]; rfl
    · obtain ⟨u, hu⟩ : ∃ u, u = storeByte mode i b (s.withFch { s.chan.fch with bytes := bs }) :=
        ⟨_, rfl⟩
      have hf : u.chan.fch = { s.chan.fch with bytes := bs } := by
        rw [hu]
        exact (PlanesOnly.storeByte mode i b _).eq (fun u => u.chan.fch) fun _ => rfl
      have hk : u.chan.fch.bytes.length < k := by
        rw [hf]
        simpa [hb] using h
      rw [loadLoop, fPull_cons start hb]
      show loadLoop mode start k (i + 1) (storeByte mode i b (s.withFch _)) = _
      rw [← hu, ih (i + 1) u hk, hf]
      show loadEnd start s.chan.fch.ending (i + 1 + bs.length) _ = _
      rw [List.length_cons, show i + (bs.length + 1) = i + 1 + bs.length by omega]
      congr 1
      show storeAll mode (i + 1) bs _ = storeAll mode (i + 1) bs _
      rw [hu, storeByte_withFch, storeByte_withFch]
      rfl

end Sys2Proof.Machine
end

