-- ==== Sys2Proof/Laws/PerInstr.lean ====
section
/-! SUPPORT. Statements for all instructions, one lemma per constructor. -/

/-- The word of a command is well-formed for the command's row of the opcode map (R83). -/
def Sys2Proof.Laws.EncodesItsRow.Statement (i : Sys2Proof.Instr) : Prop :=
  (Sys2Proof.rowOf i).Fits (Sys2Proof.encode i)

namespace Sys2Proof.Laws.EncodesItsRow

/-- Words agree where their bits do. -/
theorem fits_of_bits {r : OpcodeRow} {w : Word}
    (h : ∀ i < 32, (w.getLsbD i && r.care.getLsbD i) = r.bits.getLsbD i) : r.Fits w :=
  BitVec.eq_of_getLsbD_eq fun i hi => by rw [BitVec.getLsbD_and]; exact h i hi

theorem writeBits (bits : Half) (n : Nat) : Statement (.writeBits bits n) :=
  fits_of_bits fun i hi => by
    rw [encode, getLsbD_packWord]
    interval_cases i <;> simp [rowOf]

theorem flush : Statement .flush := by unfold Statement; decide

theorem readBits (n : Nat) : Statement (.readBits n) :=
  fits_of_bits fun i hi => by
    rw [encode, getLsbD_packWord]
    interval_cases i <;> simp [rowOf]

theorem openCtx (dir : Dir) : Statement (.openCtx dir) := by
  unfold Statement
  cases dir <;> decide

theorem wrreg (reg : Nat) (value : Half) : Statement (.wrreg reg value) :=
  fits_of_bits fun i hi => by
    rw [encode, getLsbD_packWord]
    interval_cases i <;> simp [rowOf]

theorem rdreg (reg : Nat) : Statement (.rdreg reg) :=
  fits_of_bits fun i hi => by
    rw [encode, getLsbD_packWord]
    interval_cases i <;> simp [rowOf]

theorem frameLoad : Statement .frameLoad := by unfold Statement; decide

end Sys2Proof.Laws.EncodesItsRow
end

