-- ==== Sys2Proof/Laws/Reader.lean ====
section
/-! SUPPORT. What the reader's shared operations can do: filling the accumulator from the stream. -/

namespace Sys2Proof.Machine

open Sys2Proof.Safety

/-- The accumulator after a list of data bytes went in. -/
def appendAll : List Byte → State → State
  | [], s => s
  | b :: bs, s => appendAll bs (appendByte b s)

/-- Filling touches ACC and CNT only. -/
theorem appendAll_eq (bs : List Byte) (s : State) :
    appendAll bs s = { s with acc := (appendAll bs s).acc, cnt := (appendAll bs s).cnt } := by
  induction bs generalizing s with
  | nil => rfl
  | cons b bs ih => exact ih (appendByte b s)

theorem appendAll_withEch (src : Source) (bs : List Byte) (s : State) :
    appendAll bs (s.withEch src) = (appendAll bs s).withEch src := by
  induction bs generalizing s with
  | nil => rfl
  | cons b bs ih => exact ih (appendByte b s)

/-- The data bytes follow the held bits (R123). -/
theorem appendAll_spec (bs : List Byte) (s : State) (hs : s.acc.toNat < 2 ^ s.cnt.toNat)
    (hc : s.cnt.toNat + 8 * bs.length ≤ 31) :
    (appendAll bs s).cnt.toNat = s.cnt.toNat + 8 * bs.length ∧
    (appendAll bs s).acc.toNat < 2 ^ (appendAll bs s).cnt.toNat ∧
    heldBits (appendAll bs s) = heldBits s ++ byteBits bs := by
  induction bs generalizing s with
  | nil => exact ⟨rfl, hs, by simp [appendAll]⟩
  | cons b bs ih =>
    rw [List.length_cons] at hc
    obtain ⟨h1, h2, h3⟩ := appendByte_spec (b := b) hs (by omega)
    obtain ⟨g1, g2, g3⟩ := ih (appendByte b s) (by rw [h1]; exact h2) (by omega)
    refine ⟨by rw [appendAll, g1, h1, List.length_cons]; omega, g2, ?_⟩
    rw [appendAll, g3, h3, byteBits_cons, List.append_assoc]

/-- One round on a data byte that is no marker (R123). -/
theorem fillByte_of_ne {s : State} (start : Channels) {b : Byte} {bs : List Byte} (hb : b ≠ 0xFF#8)
    (h : s.chan.ech.bytes = b :: bs) :
    fillByte start s = .cont ((appendByte b s).withEch { s.chan.ech with bytes := bs }) := by
  rw [fillByte, srcPull_cons start h]
  simp only [Config.marker, if_neg hb, Flow.andThen]
  rfl

/-- One round on a marker and its stuffed byte (R123). -/
theorem fillByte_marker {s : State} (start : Channels) {c : Byte} {bs : List Byte}
    (h : s.chan.ech.bytes = 0xFF#8 :: c :: bs) :
    fillByte start s = .cont ((appendByte 0xFF#8 s).withEch { s.chan.ech with bytes := bs }) := by
  have h' : (s.withEch { s.chan.ech with bytes := c :: bs }).chan.ech.bytes = c :: bs := rfl
  rw [fillByte, srcPull_cons start h]
  simp only [Config.marker, if_true, discardStuffed, srcPull_cons start h', Flow.andThen]
  rfl

/-- The rounds find all the data bytes they need (R123). -/
theorem fillRounds_ok (start : Channels) (k : Nat) (s : State) {data rest : List Byte}
    (h : takeData k s.chan.ech.bytes = some (data, rest)) :
    data.length = k ∧
    fillRounds start k s = .cont (appendAll data (s.withEch { s.chan.ech with bytes := rest })) := by
  induction k generalizing s data with
  | zero =>
    simp only [takeData, Option.some.injEq, Prod.mk.injEq] at h
    obtain ⟨rfl, rfl⟩ := h
    exact ⟨rfl, rfl⟩
  | succ k ih =>
    rcases hb : s.chan.ech.bytes with _ | ⟨b, bs⟩
    · simp [hb, takeData] at h
    · by_cases hm : b = 0xFF#8
      · subst hm
        rcases bs with _ | ⟨c, bs⟩
        · simp [hb, takeData] at h
        · simp only [hb, takeData, if_true, Option.map_eq_some_iff] at h
          obtain ⟨⟨d, r⟩, h1, h2⟩ := h
          simp only [Prod.mk.injEq] at h2
          obtain ⟨rfl, rfl⟩ := h2
          obtain ⟨g1, g2⟩ := ih ((appendByte 0xFF#8 s).withEch { s.chan.ech with bytes := bs }) h1
          refine ⟨by simp [g1], ?_⟩
          rw [fillRounds, fillByte_marker start hb, Flow.andThen, g2]
          rfl
      · simp only [hb, takeData, if_neg hm, Option.map_eq_some_iff] at h
        obtain ⟨⟨d, r⟩, h1, h2⟩ := h
        simp only [Prod.mk.injEq] at h2
        obtain ⟨rfl, rfl⟩ := h2
        obtain ⟨g1, g2⟩ := ih ((appendByte b s).withEch { s.chan.ech with bytes := bs }) h1
        refine ⟨by simp [g1], ?_⟩
        rw [fillRounds, fillByte_of_ne start hm hb, Flow.andThen, g2]
        rfl

/-- How a fill ends that meets the end of the stream: `u` is the state there (R125). -/
def fillEnd (start : Channels) (src : Source) (u : State) : Flow :=
  match src.ending with
  | .eof => .over (raiseMid (if endsBeforeStuffed src.bytes then .eofAtStuffed else .eofAtData) u)
  | .error => .over (raiseMid .echPull u)
  | .silent => .over (hang start u)

/-- The stream runs out of data bytes: all of it has been consumed (R125). -/
theorem fillRounds_short (start : Channels) (k : Nat) (s : State)
    (h : takeData k s.chan.ech.bytes = none) :
    ∃ bs, fillRounds start k s = fillEnd start s.chan.ech
      (appendAll bs (s.withEch { s.chan.ech with bytes := [] })) := by
  induction k generalizing s with
  | zero => simp [takeData] at h
  | succ k ih =>
    rcases hb : s.chan.ech.bytes with _ | ⟨b, bs⟩
    · refine ⟨[], ?_⟩
      have e : s.withEch { s.chan.ech with bytes := [] } = s := by rw [← hb]; rfl
      rw [appendAll, e, fillRounds, fillByte, fillEnd, hb]
      rcases he : s.chan.ech.ending with _ | _ | _
      · rw [srcPull_eof start hb he]; rfl
      · rw [srcPull_error start hb he]; rfl
      · rw [srcPull_silent start hb he]; rfl
    · by_cases hm : b = 0xFF#8
      · subst hm
        rcases bs with _ | ⟨c, bs⟩
        · refine ⟨[], ?_⟩
          rw [appendAll, fillRounds, fillByte, srcPull_cons start hb]
          simp only [Config.marker, if_true]
          obtain ⟨u, hu⟩ : ∃ u, u = s.withEch { s.chan.ech with bytes := [] } := ⟨_, rfl⟩
          have e : u.chan.ech.bytes = [] := by rw [hu]; rfl
          have e' : u.chan.ech.ending = s.chan.ech.ending := by rw [hu]; rfl
          rw [← hu, discardStuffed, fillEnd, hb]
          rcases he : s.chan.ech.ending with _ | _ | _
          · rw [srcPull_eof start e (e'.trans he)]; rfl
          · rw [srcPull_error start e (e'.trans he)]; rfl
          · rw [srcPull_silent start e (e'.trans he)]; rfl
        · simp only [hb, takeData, if_true, Option.map_eq_none_iff] at h
          obtain ⟨cs, g⟩ := ih ((appendByte 0xFF#8 s).withEch { s.chan.ech with bytes := bs }) h
          refine ⟨0xFF#8 :: cs, ?_⟩
          rw [fillRounds, fillByte_marker start hb, Flow.andThen, g, fillEnd, fillEnd, hb]
          have e : endsBeforeStuffed (0xFF#8 :: c :: bs) = endsBeforeStuffed bs := by
            simp [endsBeforeStuffed]
          rw [e]
          rfl
      · simp only [hb, takeData, if_neg hm, Option.map_eq_none_iff] at h
        obtain ⟨cs, g⟩ := ih ((appendByte b s).withEch { s.chan.ech with bytes := bs }) h
        refine ⟨b :: cs, ?_⟩
        rw [fillRounds, fillByte_of_ne start hm hb, Flow.andThen, g, fillEnd, fillEnd, hb]
        have e : endsBeforeStuffed (b :: bs) = endsBeforeStuffed bs := by
          rcases bs with _ | ⟨c, bs⟩ <;> simp [endsBeforeStuffed, hm]
        rw [e]
        rfl

end Sys2Proof.Machine
end

