-- ==== Sys2Proof/Laws/Writer.lean ====
section
/-! SUPPORT. What the writer's shared operations can do: emitting a byte, draining whole bytes, and the
padded byte of FLUSH. -/

namespace Sys2Proof.Machine

open Sys2Proof.Safety

/-- The bytes `k` rounds of the drain loop emit. -/
def drained : Nat → State → List Byte
  | 0, _ => []
  | k + 1, s => topByte s :: drained k (dropOldest 8 s)

/-- The accumulator after `k` rounds of the drain loop. -/
def dropRounds : Nat → State → State
  | 0, s => s
  | k + 1, s => dropRounds k (dropOldest 8 s)

theorem stuff_singleton (b : Byte) :
    stuff [b] = if b = 0xFF#8 then [b, 0x00#8] else [b] := by
  by_cases h : b = 0xFF#8 <;> simp [stuff, h]

/-! ### Emitting a byte -/

theorem emit_marker (start : Channels) (s : State) :
    emit start 0xFF#8 s = (sinkPush start 0xFF#8 s).andThen (sinkPush start 0x00#8) := rfl

theorem emit_of_ne {b : Byte} (h : b ≠ 0xFF#8) (start : Channels) (s : State) :
    emit start b s = (sinkPush start b s).andThen .cont := by
  simp [emit, Config.marker, h]

/-- The byte and its stuffed byte are accepted (R104). -/
theorem emit_ok {s : State} (start : Channels) (b : Byte)
    (h : acceptsNext (stuff [b]).length s.chan.sinkPlan = true) :
    emit start b s = .cont (s.pushed (stuff [b])) := by
  by_cases hb : b = 0xFF#8
  · subst hb
    obtain ⟨h0, h1⟩ := acceptsNext_append (j := 1) (k := 1) h
    have h1' : acceptsNext 1 (s.pushed [0xFF#8]).chan.sinkPlan = true := h1
    rw [emit_marker, sinkPush_ok start _ h0, Flow.andThen, sinkPush_ok start _ h1',
      State.pushed_append]
    rfl
  · have h1 : acceptsNext 1 s.chan.sinkPlan = true := by simpa [stuff_singleton, hb] using h
    rw [emit_of_ne hb, sinkPush_ok start b h1, stuff_singleton, if_neg hb]
    rfl

/-- A push inside `emit` answers `error` (R104, R107). -/
theorem emit_error {s : State} {m : Nat} (start : Channels) (b : Byte)
    (h : s.chan.sinkPlan = .failsAfter m) (hm : m < (stuff [b]).length) :
    emit start b s = .over (raiseMid .echPush (s.pushed ((stuff [b]).take m))) := by
  by_cases hb : b = 0xFF#8
  · subst hb
    have hm2 : m < 2 := hm
    rw [emit_marker]
    match m, hm2 with
    | 0, _ => rw [sinkPush_error start _ h, List.take_zero, State.pushed_nil]; rfl
    | 1, _ =>
      have h0 : acceptsNext 1 s.chan.sinkPlan = true := by simp [h, acceptsNext]
      have h1 : (s.pushed [0xFF#8]).chan.sinkPlan = .failsAfter 0 := by
        simp [State.pushed, Channels.pushed, h, SinkPlan.after]
      rw [sinkPush_ok start _ h0, Flow.andThen, sinkPush_error start _ h1]
      rfl
  · rw [stuff_singleton, if_neg hb] at hm ⊢
    have hm0 : m = 0 := by simpa using hm
    subst hm0
    rw [emit_of_ne hb, sinkPush_error start b h, List.take_zero, State.pushed_nil]
    rfl

/-- A push inside `emit` is never answered (R57). -/
theorem emit_silent {s : State} {m : Nat} (start : Channels) (b : Byte)
    (h : s.chan.sinkPlan = .silentAfter m) (hm : m < (stuff [b]).length) :
    emit start b s = .over (hang start (s.pushed ((stuff [b]).take m))) := by
  by_cases hb : b = 0xFF#8
  · subst hb
    have hm2 : m < 2 := hm
    rw [emit_marker]
    match m, hm2 with
    | 0, _ => rw [sinkPush_silent start _ h, List.take_zero, State.pushed_nil]; rfl
    | 1, _ =>
      have h0 : acceptsNext 1 s.chan.sinkPlan = true := by simp [h, acceptsNext]
      have h1 : (s.pushed [0xFF#8]).chan.sinkPlan = .silentAfter 0 := by
        simp [State.pushed, Channels.pushed, h, SinkPlan.after]
      rw [sinkPush_ok start _ h0, Flow.andThen, sinkPush_silent start _ h1]
      rfl
  · rw [stuff_singleton, if_neg hb] at hm ⊢
    have hm0 : m = 0 := by simpa using hm
    subst hm0
    rw [emit_of_ne hb, sinkPush_silent start b h, List.take_zero, State.pushed_nil]
    rfl

/-! ### Draining whole bytes -/

theorem drained_pushed (xs : List Byte) (k : Nat) (s : State) :
    drained k (s.pushed xs) = drained k s := by
  induction k generalizing s with
  | zero => rfl
  | succ k ih => exact congrArg (topByte s :: ·) (ih (dropOldest 8 s))

theorem dropRounds_pushed (xs : List Byte) (k : Nat) (s : State) :
    dropRounds k (s.pushed xs) = (dropRounds k s).pushed xs := by
  induction k generalizing s with
  | zero => rfl
  | succ k ih => exact ih (dropOldest 8 s)

theorem dropOldest_pushed (xs : List Byte) (n : Nat) (s : State) :
    dropOldest n (s.pushed xs) = (dropOldest n s).pushed xs := rfl

/-- Rounds of the drain loop touch ACC and CNT only. -/
theorem dropRounds_eq (k : Nat) (s : State) :
    dropRounds k s = { s with acc := (dropRounds k s).acc, cnt := (dropRounds k s).cnt } := by
  induction k generalizing s with
  | zero => rfl
  | succ k ih => exact ih (dropOldest 8 s)

theorem plan_pushed (xs : List Byte) (s : State) :
    (s.pushed xs).chan.sinkPlan = s.chan.sinkPlan.after xs.length := rfl

/-- Every byte of the drain loop is accepted (R103). -/
theorem drainRounds_ok (start : Channels) (k : Nat) (s : State)
    (h : acceptsNext (stuff (drained k s)).length s.chan.sinkPlan = true) :
    drainRounds start k s = .cont ((dropRounds k s).pushed (stuff (drained k s))) := by
  induction k generalizing s with
  | zero => simp [drainRounds, drained, dropRounds]
  | succ k ih =>
    rw [drained, stuff_cons, List.length_append] at h
    obtain ⟨h0, h1⟩ := acceptsNext_append h
    have h1' : acceptsNext (stuff (drained k (dropOldest 8 (s.pushed (stuff [topByte s]))))).length
        (dropOldest 8 (s.pushed (stuff [topByte s]))).chan.sinkPlan = true := by
      rw [dropOldest_pushed, drained_pushed]
      exact h1
    rw [drainRounds, emit_ok start _ h0, Flow.andThen, ih _ h1', dropOldest_pushed, drained_pushed,
      dropRounds_pushed, State.pushed_append, ← stuff_cons]
    rfl

/-- A push of the drain loop answers `error`: the bytes before it are in the stream (R103, R107). -/
theorem drainRounds_error (start : Channels) (k : Nat) (s : State) {m : Nat}
    (h : s.chan.sinkPlan = .failsAfter m) (hm : m < (stuff (drained k s)).length) :
    drainRounds start k s = .over (raiseMid .echPush (s.pushed ((stuff (drained k s)).take m))) := by
  induction k generalizing s m with
  | zero => simp [drained] at hm
  | succ k ih =>
    rw [drained, stuff_cons, List.length_append] at hm
    rw [drainRounds, drained, stuff_cons]
    by_cases hlt : m < (stuff [topByte s]).length
    · rw [emit_error start _ h hlt, List.take_append_of_le_length hlt.le]
      rfl
    · have h0 : acceptsNext (stuff [topByte s]).length s.chan.sinkPlan = true := by
        simp [h, acceptsNext]; omega
      have h1 : (dropOldest 8 (s.pushed (stuff [topByte s]))).chan.sinkPlan =
          .failsAfter (m - (stuff [topByte s]).length) := by
        rw [dropOldest_pushed, plan_pushed]
        exact congrArg (SinkPlan.after (stuff [topByte s]).length) h
      have hd : drained k (dropOldest 8 (s.pushed (stuff [topByte s]))) =
          drained k (dropOldest 8 s) := by
        rw [dropOldest_pushed, drained_pushed]
      rw [emit_ok start _ h0, Flow.andThen, ih _ h1 (by rw [hd]; omega), hd, dropOldest_pushed,
        State.pushed_append, List.take_append, List.take_of_length_le (not_lt.mp hlt)]
      rfl

/-- A push of the drain loop is never answered (R57). -/
theorem drainRounds_silent (start : Channels) (k : Nat) (s : State) {m : Nat}
    (h : s.chan.sinkPlan = .silentAfter m) (hm : m < (stuff (drained k s)).length) :
    ∃ j, drainRounds start k s =
      .over (hang start ((dropRounds j s).pushed ((stuff (drained k s)).take m))) := by
  induction k generalizing s m with
  | zero => simp [drained] at hm
  | succ k ih =>
    rw [drained, stuff_cons, List.length_append] at hm
    rw [drainRounds, drained, stuff_cons]
    by_cases hlt : m < (stuff [topByte s]).length
    · refine ⟨0, ?_⟩
      rw [emit_silent start _ h hlt, List.take_append_of_le_length hlt.le]
      rfl
    · have h0 : acceptsNext (stuff [topByte s]).length s.chan.sinkPlan = true := by
        simp [h, acceptsNext]; omega
      have h1 : (dropOldest 8 (s.pushed (stuff [topByte s]))).chan.sinkPlan =
          .silentAfter (m - (stuff [topByte s]).length) := by
        rw [dropOldest_pushed, plan_pushed]
        exact congrArg (SinkPlan.after (stuff [topByte s]).length) h
      have hd : drained k (dropOldest 8 (s.pushed (stuff [topByte s]))) =
          drained k (dropOldest 8 s) := by
        rw [dropOldest_pushed, drained_pushed]
      obtain ⟨j, hj⟩ := ih _ h1 (by rw [hd]; omega)
      refine ⟨j + 1, ?_⟩
      rw [emit_ok start _ h0, Flow.andThen, hj, hd, dropOldest_pushed, dropRounds_pushed,
        State.pushed_append, List.take_append, List.take_of_length_le (not_lt.mp hlt)]
      rfl

/-- The bytes drained and the bits left are the cut of the held bits (R103). -/
theorem drained_spec (k r : Nat) (s : State) (hr : r < 8) (hc : s.cnt.toNat = 8 * k + r)
    (hs : s.acc.toNat < 2 ^ s.cnt.toNat) :
    cutBytes (heldBits s) = (drained k s, heldBits (dropRounds k s)) ∧
    (drained k s).length = k ∧ (dropRounds k s).cnt.toNat = r ∧
    (dropRounds k s).acc.toNat < 2 ^ r := by
  induction k generalizing s with
  | zero =>
    refine ⟨cutBytes_short (by simp [hc]; omega), rfl, by simpa [dropRounds] using hc, ?_⟩
    rw [hc] at hs
    simpa [dropRounds] using hs
  | succ k ih =>
    obtain ⟨h1, h2, h3, h4⟩ := dropOldest_spec (n := 8) hs (by omega)
    have h1' : (dropOldest 8 s).cnt.toNat = 8 * k + r := by omega
    obtain ⟨g1, g2, g3, g4⟩ := ih (dropOldest 8 s) h1' (by rw [h1]; exact h2)
    refine ⟨?_, by simp [drained, g2], g3, g4⟩
    rw [h4, cutBytes_eight, g1]
    rfl

/-! ### The padded byte of FLUSH -/

/-- The padded byte is the held bits, then zeros (R105). -/
theorem paddedByte_eq {s : State} (hs : s.acc.toNat < 2 ^ s.cnt.toNat) :
    paddedByte s =
      BitVec.ofNat 8 (natOfBits (heldBits s ++ List.replicate (8 - s.cnt.toNat) false)) := by
  rw [natOfBits_append, natOfBits_replicate_false, heldBits, natOfBits_bitString,
    Nat.mod_eq_of_lt hs, List.length_replicate, paddedByte, Nat.shiftLeft_eq, Nat.add_zero]

/-- Its low bit is zero, so it is not the marker (R106 (d)). -/
theorem paddedByte_ne_marker {s : State} (hc : s.cnt.toNat ≤ 7) : paddedByte s ≠ 0xFF#8 := by
  intro h
  obtain ⟨k, hk⟩ : ∃ k, 8 - s.cnt.toNat = k + 1 := ⟨7 - s.cnt.toNat, by omega⟩
  have h0 : s.acc.toNat * 2 ^ k * 2 % 2 ^ 8 = 255 := by
    have := congrArg BitVec.toNat h
    rw [paddedByte, BitVec.toNat_ofNat, hk, Nat.shiftLeft_eq, pow_succ, ← Nat.mul_assoc] at this
    exact this
  omega

end Sys2Proof.Machine
end

