-- ==== Sys2Proof/Tests/Slice0.lean ====
section
/-! SUPPORT. Tests of single steps against the vectors of spec/95_test_vectors.md and the words of
spec/30_encoding.md, and for every statement with hypotheses a witness that meets them. -/

namespace Sys2Proof.Tests

open Sys2Proof.Machine
open Sys2Proof.Safety

/-! ### Small states -/

/-- An open writer context holding `cnt` bits. -/
def writer (cnt : BitVec 5) (acc : BitVec 31) (plan : SinkPlan) : State :=
  { State.reset with
    opened := true, cnt := cnt, acc := acc
    chan := { State.reset.chan with sinkPlan := plan } }

/-- An open reader context holding `cnt` bits. -/
def reader (cnt : BitVec 5) (acc : BitVec 31) (bytes : List Byte) (ending : Ending) : State :=
  { State.reset with
    opened := true, dir := .read, cnt := cnt, acc := acc
    chan := { State.reset.chan with ech := ⟨bytes, ending⟩ } }

/-- The smallest legal geometry (vector F10). -/
def framed (bytes : List Byte) (ending : Ending) : State :=
  { State.reset with
    width := 2, height := 2, padwY := 2, padhY := 2, padwC := 1, padhC := 1
    chan := { State.reset.chan with fch := ⟨bytes, ending⟩ } }

/-- The same with one padding column in Y. -/
def framedWide (bytes : List Byte) : State := { framed bytes .eof with padwY := 3 }

/-- The FAULTED block of vector C13. -/
def faultedBlock : State := { State.reset with cause := 6, detail := 1 }

/-- The block with a plan of the host. -/
def plan (events : List Event) (s : State) : State := { s with events := events }

/-- A command that waits for ever. -/
def stuckBlock (events : List Event) : State :=
  { State.reset with events := events, waiting := some State.reset.chan }

/-- The outcome is a next state of which `p` holds. -/
def gives (o : Host.Outcome State Fault Refusal) (p : State → Bool) : Bool :=
  match o with
  | .next t => p t
  | .fault _ => false
  | .refused _ => false

/-! ### Well-formedness: each check refuses a term -/

theorem test_wellformed_refuses_write_count : ¬ WellFormed (.writeBits 0#16 32) := by decide
theorem test_wellformed_refuses_read_count : ¬ WellFormed (.readBits 32) := by decide
theorem test_wellformed_refuses_wrreg_index : ¬ WellFormed (.wrreg 32 0#16) := by decide
theorem test_wellformed_refuses_rdreg_index : ¬ WellFormed (.rdreg 32) := by decide

/-! ### Decoding: words written out field by field, OP, RSV, A, D (R81 to R83) -/

theorem test_decode_write_bits :
    decode (0b0001#4 ++ 0b0000000#7 ++ 0b11000#5 ++ 0b1010101111001101#16)
      = .ok (.writeBits 0xABCD#16 24) := by decide
theorem test_decode_flush :
    decode (0b0010#4 ++ 0b0000000#7 ++ 0b00000#5 ++ 0b0000000000000000#16) = .ok .flush := by decide
theorem test_decode_read_bits :
    decode (0b0011#4 ++ 0b0000000#7 ++ 0b01001#5 ++ 0b0000000000000000#16)
      = .ok (.readBits 9) := by decide
theorem test_decode_open_write :
    decode (0b0100#4 ++ 0b0000000#7 ++ 0b00000#5 ++ 0b0000000000000000#16)
      = .ok (.openCtx .write) := by decide
theorem test_decode_open_read :
    decode (0b0100#4 ++ 0b0000000#7 ++ 0b00000#5 ++ 0b0000000000000001#16)
      = .ok (.openCtx .read) := by decide
theorem test_decode_wrreg :
    decode (0b0101#4 ++ 0b0000000#7 ++ 0b00110#5 ++ 0b0000000000001000#16)
      = .ok (.wrreg 6 8#16) := by decide
theorem test_decode_rdreg :
    decode (0b0110#4 ++ 0b0000000#7 ++ 0b11111#5 ++ 0b0000000000000000#16)
      = .ok (.rdreg 31) := by decide
theorem test_decode_frame_load :
    decode (0b0111#4 ++ 0b0000000#7 ++ 0b00000#5 ++ 0b0000000000000000#16)
      = .ok .frameLoad := by decide

/-- The words of vectors C13, C14, C15: OP 0, 15 and 8. -/
theorem test_decode_reserved_opcode :
    decode 0x00000000#32 = .error .reservedOpcode ∧ decode 0xFFFFFFFF#32 = .error .reservedOpcode ∧
    decode 0x80000000#32 = .error .reservedOpcode := by decide

/-- The words of vectors C16, C17, C18, RF9. -/
theorem test_decode_reserved_field :
    decode 0x20010000#32 = .error .reservedField ∧ decode 0x10230005#32 = .error .reservedField ∧
    decode 0x40000002#32 = .error .reservedField ∧ decode 0x30080001#32 = .error .reservedField := by
  decide

/-! ### One step, against the vectors -/

/-- W15: the most pushes of one command. -/
theorem test_write_bits_w15 :
    gives (exec (.writeBits 0xFFFF#16 17) (writer 7 0x7F .accepts)) (fun t =>
      t.chan.sinkOut == [0xFE#8, 0xFF#8, 0x00#8, 0xFF#8, 0x00#8] && t.acc == 0 && t.cnt == 0
        && t.responses == [0#32]) = true := by decide

/-- WF9: `FF` stays without its `00`. -/
theorem test_write_bits_wf9 :
    gives (exec (.writeBits 0x00FF#16 8) (writer 0 0 (.failsAfter 1))) (fun t =>
      t.chan.sinkOut == [0xFF#8] && t.cause == 1 && t.detail == 1
        && t.responses == [0x11000000#32]) = true := by decide

/-- W5c: the last held bits, padded with a zero. -/
theorem test_flush_w5c :
    gives (exec .flush (writer 7 0x4D .accepts)) (fun t =>
      t.chan.sinkOut == [0x9A#8] && t.acc == 0 && t.cnt == 0 && t.opened) = true := by decide

/-- WF6. -/
theorem test_flush_wf6 :
    gives (exec .flush (reader 0 0 [] .eof)) (fun t =>
      t.responses == [0x53000000#32] && t.faultWord == 0x35#16) = true := by decide

/-- P2, command 3: held bits first, two stuffed bytes skipped. -/
theorem test_read_bits_p2 :
    gives (exec (.readBits 16) (reader 4 0xF [0xFF#8, 0x00#8, 0xFA#8, 0xAE#8] .eof)) (fun t =>
      t.responses == [0x0000FFFF#32] && t.acc == 0xA && t.cnt == 4
        && t.chan.ech.bytes == [0xAE#8]) = true := by decide

/-- RF2: the stream ends where a stuffed byte was needed. -/
theorem test_read_bits_rf2 :
    gives (exec (.readBits 8) (reader 0 0 [0xFF#8] .eof)) (fun t =>
      t.responses == [0x42000000#32] && t.faultWord == 0x24#16) = true := by decide

/-- C7: a writer that holds bits is not opened over. -/
theorem test_open_c7 :
    gives (exec (.openCtx .read) (writer 3 5 .accepts)) (fun t =>
      t.responses == [0x55000000#32] && t.faultWord == 0x55#16 && t.acc == 5 && t.cnt == 3
        && t.dir == .write) = true := by decide

/-- C8: a reader that holds bits is. -/
theorem test_open_c8 :
    gives (exec (.openCtx .write) (reader 4 0xF [] .eof)) (fun t =>
      t.responses == [0#32] && t.acc == 0 && t.cnt == 0 && t.dir == .write) = true := by decide

/-- F11: the same value again, and the frame is not valid any more. -/
theorem test_wrreg_f11 :
    gives (exec (.wrreg 0x05 2#16) { framed [] .eof with frameValid := true }) (fun t =>
      t.responses == [0#32] && t.height == 2 && t.statusWord == 0) = true := by decide

/-- C11. -/
theorem test_wrreg_c11 :
    gives (exec (.wrreg 0x00 1#16) State.reset) (fun t =>
      t.responses == [0x64000000#32] && t.faultWord == 0x46#16) = true := by decide

/-- P4, command 5: STATUS of a FAULTED writer. -/
theorem test_rdreg_p4 :
    gives (exec (.rdreg 0x00) { writer 2 3 .accepts with cause := 5, detail := 1 }) (fun t =>
      t.responses == [0x25#32]) = true := by decide

/-- C22: the latched pair, not the new condition. -/
theorem test_rdreg_c22 :
    gives (exec (.rdreg 0x0A) faultedBlock) (fun t =>
      t.responses == [0x61000000#32] && t.cause == 6 && t.detail == 1) = true := by decide

/-- F10, either mode. -/
theorem test_frame_load_f10 : ∀ mode ∈ [FillMode.linear, FillMode.strided],
    ((frameLoadIn mode (framed [1, 2, 3, 4, 5, 6] .eof)).planeY,
      (frameLoadIn mode (framed [1, 2, 3, 4, 5, 6] .eof)).planeU,
      (frameLoadIn mode (framed [1, 2, 3, 4, 5, 6] .eof)).planeV)
    = ([(0, 1#8), (1, 2#8), (2, 3#8), (3, 4#8)], [(0, 5#8)], [(0, 6#8)]) := by decide

/-- A padded row (R143, R144, and the zeros of R148): the two modes differ. -/
theorem test_frame_load_padded :
    (frameLoadIn .linear (framedWide [1, 2, 3, 4, 5, 6])).planeY
      = [(0, 1#8), (1, 2#8), (2, 3#8), (3, 4#8), (4, 0#8), (5, 0#8)] ∧
    (frameLoadIn .strided (framedWide [1, 2, 3, 4, 5, 6])).planeY
      = [(0, 1#8), (1, 2#8), (2, 0#8), (3, 3#8), (4, 4#8), (5, 0#8)] := by decide

/-- A word placed as the next action runs at once. -/
theorem test_with_fetch_word :
    gives (step (State.reset.withFetchWord 32 0x60000000)) (fun t =>
      t.responses == [0#32] && t.events == []) = true := by decide

/-- C13, through a step. -/
theorem test_reserved_opcode_c13 :
    gives (step (State.reset.withFetchWord 32 0)) (fun t =>
      t.responses == [0x61000000#32] && t.faultWord == 0x16#16) = true := by decide

/-! ### Witnesses: concrete states that meet the hypotheses of the statements -/

/-- For DecodeOfEncodeIsTheCommand. -/
theorem test_witness_encode : WellFormed (.writeBits 0xFFFF#16 31) ∧ WellFormed (.readBits 0) ∧
    WellFormed (.wrreg 31 0#16) ∧ WellFormed (.rdreg 31) := by decide

/-- For EncodeOfDecodeIsTheWord, WordsDecodeExactlyByTheirRow. -/
theorem test_witness_decode : decode 0x501F8001#32 = .ok (.wrreg 31 0x8001#16) ∧
    (rowOf (.wrreg 0 0)).Fits 0x501F8001#32 ∧ rowOf (.wrreg 0 0) ∈ opcodeRows := by decide

/-- The lowest and the highest reserved opcodes. For ReservedOpcodeIsIllegal. -/
theorem test_witness_reserved_opcode :
    (plan [.command 0x8FFFFFFF#32] State.reset).events = .command 0x8FFFFFFF#32 :: [] ∧
    (plan [.command 0x8FFFFFFF#32] State.reset).waiting = none ∧ NoFault State.reset ∧
    (0x0FFFFFFF#32).extractLsb' 28 4 = 0x0#4 ∧ 0x8#4 ≤ (0x8FFFFFFF#32).extractLsb' 28 4 ∧
    0x8#4 ≤ (0xF0000000#32).extractLsb' 28 4 := by decide

/-- Both ends of the range of opcodes, with one bit too many. For ReservedFieldIsIllegal. -/
theorem test_witness_reserved_field :
    NoFault (plan [.command 0x10200000#32] State.reset) ∧
    0x1#4 ≤ (0x10200000#32).extractLsb' 28 4 ∧ (∀ r ∈ opcodeRows, ¬ r.Fits 0x10200000#32) ∧
    (0x70000001#32).extractLsb' 28 4 ≤ 0x7#4 ∧ (∀ r ∈ opcodeRows, ¬ r.Fits 0x70000001#32) := by
  decide

/-- For StepRunsTheDecodedCommand. -/
theorem test_witness_step :
    (plan [.command 0x600A0000#32] State.reset).events = .command 0x600A0000#32 :: [] ∧
    (plan [.command 0x600A0000#32] State.reset).waiting = none ∧
    decode 0x600A0000#32 = .ok (.rdreg 0x0A) ∧ decode (BitVec.ofNat 32 0x70000000) = .ok .frameLoad := by
  decide

/-- The last index that reads and the first that does not. For FaultedBlockRefusesAllButRdreg. -/
theorem test_witness_faulted : faultedBlock.cause ≠ 0 ∧ faultedBlock.waiting = none ∧
    ((0x60090000#32) &&& 0xFFE0FFFF#32 = 0x60000000#32 ∧ (0x60090000#32).extractLsb' 16 5 ≤ 0x09#5) ∧
    ((0x600A0000#32) &&& 0xFFE0FFFF#32 = 0x60000000#32 ∧
      ¬ (0x600A0000#32).extractLsb' 16 5 ≤ 0x09#5) := by decide

/-- For FaultLatchKeptUntilReset. -/
theorem test_witness_fault_kept : (plan [.command 0#32] faultedBlock).cause ≠ 0 ∧
    (plan [.command 0#32] faultedBlock).events.head? ≠ some .reset ∧
    (∀ w, (plan [.command 0#32] faultedBlock).events.head? ≠ some (.commandReset w)) ∧
    ∃ t, step (plan [.command 0#32] faultedBlock) = .next t :=
  ⟨by decide, by decide, fun w h => by simp [plan] at h, _, rfl⟩

/-- Canonical states at both ends. For AccumulatorReadsAsTwoRegisters, FlushNeverPushesTheMarker,
CommandsMoveBoundedlyManyBytes. -/
theorem test_witness_canonical : Canonical (writer 0 0 .accepts) ∧ Canonical (writer 7 0x7F .accepts) := by
  decide

/-- RDREG and WRREG: with no fault, and with one. For RdregReadsTheRegister, WrregWritesOneRegister. -/
theorem test_witness_registers : NoFault State.reset ∧ faultedBlock.cause ≠ 0 ∧
    (0x04 ≤ 0x09 ∧ 0x09 < 0x0A ∧ 0x03 ≤ 0x03) := by decide

/-- Both branches of OPEN. For OpenMakesAFreshContext. -/
theorem test_witness_open : NoFault (writer 1 1 .accepts) ∧
    ((writer 1 1 .accepts).opened = true ∧ (writer 1 1 .accepts).dir = .write ∧
      (writer 1 1 .accepts).cnt ≠ 0) ∧
    NoFault (reader 1 1 [] .eof) ∧ ¬ (reader 1 1 [] .eof).dir = .write := by decide

/-- The preconditions of the writer and of the reader, broken and met. For WriterNeedsAnOpenWriter,
WriteOfNoBitsOrTooManyMovesNothing, ReaderNeedsAnOpenReaderAndALegalCount. -/
theorem test_witness_directions : NoFault State.reset ∧ State.reset.opened = false ∧
    NoFault (reader 0 0 [] .eof) ∧ (reader 0 0 [] .eof).opened = true ∧
    (reader 0 0 [] .eof).dir = .read ∧ OpenIn .read (reader 0 0 [] .eof) ∧
    OpenIn .write (writer 0 0 .accepts) ∧ (writer 0 0 .accepts).dir = .write := by decide

/-- WRITE_BITS at the smallest and at the largest n, the sink accepting exactly what is pushed (the
second is the five bytes of W15). For WriteAppendsBitsAndEmitsBytes. -/
theorem test_witness_write :
    (OpenIn .write (writer 7 0x7F (.failsAfter 2)) ∧ Canonical (writer 7 0x7F (.failsAfter 2)) ∧
      acceptsNext (stuff (writeCut (writer 7 0x7F (.failsAfter 2)) 1#16 1).1).length (.failsAfter 2)
        = true) ∧
    (OpenIn .write (writer 7 0x7F (.silentAfter 3)) ∧
      acceptsNext (stuff (writeCut (writer 7 0x7F (.silentAfter 3)) 0#16 24).1).length (.silentAfter 3)
        = true) ∧
    (stuff (writeCut (writer 7 0x7F .accepts) 0xFFFF#16 17).1).length = 5 := by decide

/-- For FlushEmitsThePaddedByte. -/
theorem test_witness_flush :
    OpenIn .write (writer 7 0x7F (.failsAfter 1)) ∧ Canonical (writer 7 0x7F (.failsAfter 1)) ∧
    acceptsNext (flushData (writer 7 0x7F (.failsAfter 1))).length (.failsAfter 1) = true ∧
    acceptsNext (flushData (writer 0 0 (.failsAfter 0))).length (.failsAfter 0) = true := by decide

/-- A push refused: at once, and after the marker. For WriterStopsAtAChannelError. -/
theorem test_witness_sink_error :
    OpenIn .write (writer 7 0x7F (.failsAfter 1)) ∧ Canonical (writer 7 0x7F (.failsAfter 1)) ∧
    1 < (stuff (writeCut (writer 7 0x7F (.failsAfter 1)) 1#16 1).1).length ∧
    0 < (flushData (writer 7 0x7F (.failsAfter 0))).length := by decide

/-- A push never answered: at once, and after the marker. For WriterWaitsForASilentSink. -/
theorem test_witness_sink_silent :
    OpenIn .write (writer 7 0x7F (.silentAfter 1)) ∧ Canonical (writer 7 0x7F (.silentAfter 1)) ∧
    1 < (stuff (writeCut (writer 7 0x7F (.silentAfter 1)) 1#16 1).1).length ∧
    0 < (flushData (writer 7 0x7F (.silentAfter 0))).length := by decide

/-- A writer command that responds OK on a stream that is well stuffed. For
WriterKeepsTheStreamStuffed. -/
theorem test_witness_stuffed : Canonical (writer 7 0x7F .accepts) ∧
    wellStuffed (writer 7 0x7F .accepts).chan.sinkOut = true ∧
    ∃ t, exec (.writeBits 1#16 1) (writer 7 0x7F .accepts) = .next t ∧
      Responded 0#32 (writer 7 0x7F .accepts) t := by
  refine ⟨by decide, by decide, _, rfl, ?_⟩
  unfold Responded
  decide

/-- For WriterTouchesNothingElse, CommandsMoveBoundedlyManyBytes,
FrameAndEntropyPartsShareOnlyTheLatch, ResponsesAreOfTheTable, FlushNeverPushesTheMarker. -/
theorem test_witness_any_command (i : Instr) (hi : i = .flush ∨ i = .readBits 1 ∨ i = .frameLoad) :
    ∃ t, exec i (writer 7 0x7F .accepts) = .next t := by
  rcases hi with rfl | rfl | rfl <;> exact ⟨_, rfl⟩

/-- READ_BITS: with bytes pulled (a marker among them), and with none needed. For
ReadPullsBytesAndReturnsTheOldestBits. -/
theorem test_witness_read :
    OpenIn .read (reader 7 0x7F [0xFF#8, 0x01#8, 0x02#8, 0x03#8] .error) ∧
    Canonical (reader 7 0x7F [0xFF#8, 0x01#8, 0x02#8, 0x03#8] .error) ∧
    takeData ((24 - 7 + 7) / 8) [0xFF#8, 0x01#8, 0x02#8, 0x03#8]
      = some ([0xFF#8, 0x02#8, 0x03#8], []) ∧
    takeData ((1 - 7 + 7) / 8) [] = some ([], []) := by decide

/-- A stream too short: at a data byte, and at a stuffed byte. For ReadFaultsWhereTheStreamRunsOut,
ReaderWaitsForASilentChannel. -/
theorem test_witness_read_end :
    OpenIn .read (reader 0 0 [0xFF#8] .eof) ∧ Canonical (reader 0 0 [0xFF#8] .eof) ∧
    takeData ((8 - 0 + 7) / 8) [0xFF#8] = none ∧ endsBeforeStuffed [0xFF#8] = true ∧
    takeData ((9 - 0 + 7) / 8) [0x12#8] = none ∧ endsBeforeStuffed [0x12#8] = false ∧
    (reader 0 0 [] .error).chan.ech.ending = .error ∧ takeData ((1 - 0 + 7) / 8) [] = none ∧
    (reader 0 0 [] .silent).chan.ech.ending = .silent ∧
    (OpenIn .read (reader 7 1 [] .eof) ∧ Canonical (reader 7 1 [] .eof) ∧
      7 ≤ (reader 7 1 [] .eof).cnt.toNat) := by decide

/-- Two streams that differ in a stuffed byte. For StuffedByteIsNotLookedAt. -/
theorem test_witness_stuffed_byte : (reader 0 0 [0xFF#8, 0x00#8] .eof).cnt.toNat < 8 ∧
    OpenIn .read (reader 0 0 [0xFF#8, 0x00#8] .eof) ∧
    (∃ t, exec (.readBits 8) (reader 0 0 [0xFF#8, 0x00#8] .eof) = .next t) ∧
    ∃ v, exec (.readBits 8) (reader 0 0 [0xFF#8, 0xD9#8] .eof) = .next v :=
  ⟨by decide, by decide, ⟨_, rfl⟩, _, rfl⟩

/-- A fresh writer, fields of the smallest and the largest width, and a fresh reader of the stream
`FF 00 80` they give (spec/95 section 6). For RoundTripGivesTheFieldsBack. -/
theorem test_witness_round_trip :
    (∀ f ∈ [(0xFF#16, 8), (0#16, 0), (1#16, 1)], f.2 ≤ 24) ∧
    OpenIn .write (writer 0 0 .accepts) ∧ (writer 0 0 .accepts).acc = 0 ∧
    gives (execAll (writeFields [(0xFF#16, 8), (0#16, 0), (1#16, 1)]) (writer 0 0 .accepts))
      (fun t => t.chan.sinkOut == [0xFF#8, 0x00#8, 0x80#8]) = true ∧
    OpenIn .read (reader 0 0 [0xFF#8, 0x00#8, 0x80#8] .eof) ∧
    (reader 0 0 [0xFF#8, 0x00#8, 0x80#8] .eof).cnt = 0 := by decide

/-- The smallest geometry is legal, its parts at the edge; one less is not. For
LegalGeometryHasConsistentSizes, IllegalGeometryIsRefused. -/
theorem test_witness_geometry : (framed [] .eof).GeometryLegal ∧ NoFault (framed [] .eof) ∧
    ¬ { framed [] .eof with padwC := 0 }.GeometryLegal ∧ NoFault State.reset ∧
    ¬ (2 ≤ State.reset.width.toNat) := by decide

/-- Bytes 0, 4 and 5 of the smallest frame are the first of Y, U and V. For
FrameBytesAreInPlaneOrder. -/
theorem test_witness_segment : 3 < (framed [] .eof).sampleCount .Y ∧
    0 < (framed [] .eof).sampleCount .U ∧ 0 < (framed [] .eof).sampleCount .V ∧
    (framed [] .eof).segment 3 = (.Y, 3) ∧ (framed [] .eof).segment 4 = (.U, 0) ∧
    (framed [] .eof).segment 5 = (.V, 0) := by decide

/-- F2: places in a padded plane; `paddedWidth = logicalWidth` in the chroma of the smallest frame.
For PlacementIsInjectiveAndInRange. -/
theorem test_witness_place :
    (framedWide []).GeometryLegal ∧ (framedWide []).place .linear 3 = (.Y, 3) ∧
    (framedWide []).place .strided 3 = (.Y, 4) ∧ 5 < (framedWide []).frameBytes ∧
    (framedWide []).paddedWidth .U = (framedWide []).logicalWidth .U ∧
    0 < (framedWide []).logicalWidth .U := by decide

/-- Exactly one frame; and an offset that is padding. For FrameLoadStoresTheFrame. -/
theorem test_witness_frame : (framedWide [1, 2, 3, 4, 5, 6]).GeometryLegal ∧
    NoFault (framedWide [1, 2, 3, 4, 5, 6]) ∧
    (framedWide [1, 2, 3, 4, 5, 6]).frameBytes ≤ (framedWide [1, 2, 3, 4, 5, 6]).chan.fch.bytes.length ∧
    (∀ i < 6, (framedWide []).place .linear i ≠ (.Y, 5)) ∧
    (∀ i < 6, (framedWide []).place .strided i ≠ (.Y, 5)) ∧ 5 < (framedWide []).planeSize .Y := by
  decide

/-- The end of the stream, a frame one byte short and one of one byte, a failing and a silent
channel. For FrameLoadAtTheEndOfTheStream, FrameLoadOfATruncatedFrame,
FrameLoadStopsAtAChannelError, FrameLoadWaitsForASilentChannel. -/
theorem test_witness_frame_ends :
    (framed [] .eof).chan.fch = ⟨[], .eof⟩ ∧
    ((framed [1, 2, 3, 4, 5] .eof).chan.fch.bytes ≠ [] ∧
      (framed [1, 2, 3, 4, 5] .eof).chan.fch.bytes.length < (framed [] .eof).frameBytes) ∧
    ((framed [1] .error).GeometryLegal ∧ (framed [1] .error).chan.fch.ending = .error) ∧
    ((framed [1] .silent).GeometryLegal ∧ (framed [1] .silent).chan.fch.ending = .silent) ∧
    (frameLoadIn .linear (framed [] .eof)).responses = [0x20000000#32] ∧
    (frameLoadIn .strided (framed [1] .eof)).responses = [0x30000000#32] := by decide

/-- A precise fault through a command word, and a fault in mid-operation. For
PreciseFaultsChangeNothingElse, MidOperationFaultsKeepTheRest. -/
theorem test_witness_faults :
    gives (runWord 0x30000000#32 (reader 0 0 [] .eof)) (fun t => t.cause == 5) = true ∧
    gives (runWord 0x60100000#32 State.reset) (fun t => t.cause == 6) = true ∧
    gives (exec (.readBits 1) (reader 0 0 [] .eof)) (fun t => t.cause == 4) = true ∧
    (frameLoadIn .linear (framed [1] .error)).cause = 1 := by decide

/-- The flags' clauses: OPEN sets both, a fault sets FAULTED, FRAME_LOAD and WRREG move FRAME_VALID.
For FlagsChangeOnlyAsListed. -/
theorem test_witness_flags :
    gives (exec (.openCtx .read) State.reset) (fun t => t.opened && t.dir == .read) = true ∧
    gives (exec .flush faultedBlock) (fun t => t.faulted) = true ∧
    (frameLoadIn .linear (framed [1, 2, 3, 4, 5, 6] .eof)).frameValid = true ∧
    gives (exec (.wrreg 9 0#16) { State.reset with frameValid := true }) (fun t => !t.frameValid)
      = true := by decide

/-- The invariants in a state in which they say something, from which a step is taken. For
StepKeepsHeldBitsFew, StepKeepsFaultPairsListed, StepKeepsPlanesCanonical. -/
theorem test_witness_invariants :
    ContextInv (writer 7 0x7F .accepts) ∧ FaultInv faultedBlock ∧
    PlanesInv { State.reset with planeY := [(0, 1#8), (4294967295, 2#8)] } ∧
    ∃ t, step (plan [.command 0x10180000#32] (writer 7 0x7F .accepts)) = .next t :=
  ⟨by decide, by decide, by decide, _, rfl⟩

/-- FrameInv with a valid frame. For StepKeepsValidFramesComplete. -/
theorem test_witness_frame_inv :
    FrameInv { framed [] .eof with
      frameValid := true, planeY := [(0, 1), (1, 2), (2, 3), (3, 4)], planeU := [(0, 5)],
      planeV := [(0, 6)] } := by
  refine fun _ => ⟨by decide, fun p off h => ?_⟩
  have h4 : off < 4 := Nat.lt_of_lt_of_le h (by cases p <;> decide)
  cases p <;> interval_cases off <;> first | rfl | exact absurd h (by decide)

/-- WaitingInv with a waiting command, which is what a silent channel leaves. For
StepKeepsWaitingCommandsSound, ResetDuringACommandAbandonsIt. -/
theorem test_witness_waiting_inv : WaitingInv (stuckBlock [.reset]) ∧
    (stuckBlock [.reset]).waiting = some State.reset.chan ∧
    ∃ t, step (stuckBlock [.reset]) = .next t := by
  refine ⟨fun start h => ?_, rfl, _, rfl⟩
  cases h
  exact ⟨by decide, List.prefix_refl _, List.suffix_refl _, List.suffix_refl _⟩

/-- Reset from a used block, and in mid-command. For HostResetRestoresTheResetValues,
ResetDuringACommandAbandonsIt. -/
theorem test_witness_reset :
    (plan [.reset] faultedBlock).events = .reset :: [] ∧ (plan [.reset] faultedBlock).waiting = none ∧
    (plan [.commandReset 0x20000000#32] (writer 3 5 .accepts)).waiting = none ∧
    gives (runWord 0x20000000#32 (plan [] (writer 3 5 .accepts))) (fun t =>
      t.chan.sinkOut == [0xA0#8]) = true := by decide

/-- The consumer reads a byte of a valid frame, the last of its plane. For
ConsumerReadsTheValidFrame. -/
theorem test_witness_consumer :
    gives (step (plan [.planeRead .Y 3#32] { framed [] .eof with
      frameValid := true, planeY := [(3, 9#8)] })) (fun t => t.planeReads == [9#8]) = true ∧
    3 < (framed [] .eof).planeSize .Y := by decide

/-- A waiting command with nothing planned, a command, and a reset in mid-command. For
WaitingCommandIsStuckUntilReset. -/
theorem test_witness_stuck :
    step (stuckBlock []) = .fault .channelNeverAnswers ∧
    step (stuckBlock [.command 0#32]) = .fault .channelNeverAnswers ∧
    step (stuckBlock [.commandReset 0#32]) = .fault .channelNeverAnswers := ⟨rfl, rfl, rfl⟩

/-- Nothing planned and nothing waiting. For IdleBlockStaysAsItIs. -/
theorem test_witness_idle : State.reset.events = [] ∧ State.reset.waiting = none := by decide

end Sys2Proof.Tests
end

section
/-! PROOFS. What the registers read as (spec/10_state.md R34 to R36), through RDREG
(spec/43_control.md R172), and the values of R42. -/

namespace Sys2Proof.Machine

open Sys2Proof.Safety

/-! ### An OK response -/

/-- The response word of an OK command is its value (R84). -/
theorem responded_respondOk (v : BitVec 24) (s : State) :
    Responded (v.zeroExtend 32) s (respondOk v s) :=
  ⟨congrArg (s.responses ++ [·]) (responseWord_ok v), rfl⟩

theorem keepsFault_respond (c d : BitVec 4) (v : BitVec 24) (s : State) :
    KeepsFault s (respond c d v s) := ⟨rfl, rfl⟩

/-- A response is no state of the block (R40). -/
theorem keepsAllButFault_respond (c d : BitVec 4) (v : BitVec 24) (s : State) :
    KeepsAllButFault s (respond c d v s) :=
  ⟨⟨rfl, rfl⟩, ⟨rfl, rfl⟩, ⟨rfl, rfl, rfl, rfl, rfl, rfl⟩, ⟨rfl, fun _ _ => rfl⟩, ⟨rfl, rfl⟩, rfl,
    rfl, ⟨rfl, rfl⟩⟩

/-! ### RDREG of an implemented index (R172) -/

theorem exec_rdreg_of_valid {reg : Nat} (h : RegIndexValid reg) (s : State) :
    exec (.rdreg reg) s = .next (respondOk ((s.regValue reg).zeroExtend 24) s) :=
  congrArg Host.Outcome.next (if_pos h)

/-- RDREG of an implemented index answers the register, faulted or not, and has no side effect. -/
theorem exec_rdreg_reads {reg : Nat} (h : RegIndexValid reg) (s : State) :
    ∃ t, exec (.rdreg reg) s = .next t ∧ Responded ((s.regValue reg).zeroExtend 32) s t ∧
      KeepsFault s t ∧ KeepsAllButFault s t := by
  refine ⟨_, exec_rdreg_of_valid h s, ?_, keepsFault_respond .., keepsAllButFault_respond ..⟩
  have hz : ((s.regValue reg).zeroExtend 24).zeroExtend 32 = (s.regValue reg).zeroExtend 32 :=
    BitVec.setWidth_setWidth (by decide)
  exact hz ▸ responded_respondOk _ s

theorem getLsbD_zeroExtend_half (v : Half) (i : Nat) :
    (v.zeroExtend 32).getLsbD i = v.getLsbD i := by
  rw [BitVec.zeroExtend, BitVec.getLsbD_setWidth]
  by_cases h : i < 32
  · simp [h]
  · simp [h, BitVec.getLsbD_of_ge v i (by omega)]

/-- A field of a response of RDREG is that field of the register (R172). -/
theorem extractLsb'_zeroExtend_half (v : Half) (i n : Nat) :
    (v.zeroExtend 32).extractLsb' i n = v.extractLsb' i n :=
  BitVec.eq_of_getLsbD_eq fun k _ => by
    simp only [BitVec.getLsbD_extractLsb', getLsbD_zeroExtend_half]

/-! ### A word whose lowest field is one flag -/

theorem getLsbD_append_flag_zero {n : Nat} (x : BitVec n) (b : Bool) :
    (x ++ BitVec.ofBool b).getLsbD 0 = b :=
  BitVec.getLsbD_append.trans (BitVec.getLsbD_ofBool b 0)

theorem getLsbD_append_flag_succ {n : Nat} (x : BitVec n) (b : Bool) (i : Nat) :
    (x ++ BitVec.ofBool b).getLsbD (i + 1) = x.getLsbD i := by
  simp [BitVec.getLsbD_append]

theorem extractLsb'_append_flag_succ {n : Nat} (x : BitVec n) (b : Bool) (i len : Nat) :
    (x ++ BitVec.ofBool b).extractLsb' (i + 1) len = x.extractLsb' i len :=
  BitVec.extractLsb'_append_eq_of_le (by omega)

/-! ### STATUS (R34) -/

theorem dir_bit_eq_decide (d : Dir) : d.bit = decide (d = .read) := by
  cases d <;> rfl

theorem faulted_eq_decide (s : State) : s.faulted = decide (s.cause ≠ 0) :=
  Bool.eq_iff_iff.mpr (faulted_eq_true.trans decide_eq_true_iff.symm)

theorem statusWord_flags (s : State) :
    s.statusWord.getLsbD 0 = s.opened ∧ s.statusWord.getLsbD 1 = decide (s.dir = .read) ∧
    s.statusWord.getLsbD 2 = decide (s.cause ≠ 0) ∧ s.statusWord.getLsbD 3 = s.frameValid := by
  rw [← dir_bit_eq_decide, ← faulted_eq_decide]
  exact ⟨getLsbD_append_flag_zero ..,
    (getLsbD_append_flag_succ ..).trans (getLsbD_append_flag_zero ..),
    (getLsbD_append_flag_succ ..).trans <|
      (getLsbD_append_flag_succ ..).trans (getLsbD_append_flag_zero ..),
    (getLsbD_append_flag_succ ..).trans <| (getLsbD_append_flag_succ ..).trans <|
      (getLsbD_append_flag_succ ..).trans (getLsbD_append_flag_zero ..)⟩

/-- Above its four flags STATUS is CNT below zeros. -/
theorem extractLsb'_statusWord (s : State) (i len : Nat) :
    s.statusWord.extractLsb' (i + 4) len = (0#7 ++ s.cnt).extractLsb' i len :=
  (extractLsb'_append_flag_succ ..).trans <| (extractLsb'_append_flag_succ ..).trans <|
    (extractLsb'_append_flag_succ ..).trans (extractLsb'_append_flag_succ ..)

theorem statusWord_cnt (s : State) : s.statusWord.extractLsb' 4 5 = s.cnt :=
  (extractLsb'_statusWord s 0 5).trans BitVec.extractLsb'_append_eq_right

theorem statusWord_high (s : State) : s.statusWord.extractLsb' 9 23 = 0 :=
  calc s.statusWord.extractLsb' 9 23
    _ = (0#7 ++ s.cnt).extractLsb' 5 23 := extractLsb'_statusWord s 5 23
    _ = (0#7).extractLsb' 0 23 := BitVec.extractLsb'_append_eq_of_le (by decide)
    _ = 0 := BitVec.extractLsb'_zero

/-! ### FAULT (R35) -/

theorem faultWord_fields (s : State) :
    s.faultWord.extractLsb' 0 4 = s.cause ∧ s.faultWord.extractLsb' 4 4 = s.detail ∧
    s.faultWord.extractLsb' 8 24 = 0 := by
  have above (i len : Nat) :
      s.faultWord.extractLsb' (i + 4) len = (0#8 ++ s.detail).extractLsb' i len :=
    BitVec.extractLsb'_append_eq_of_le (by omega)
  exact ⟨BitVec.extractLsb'_append_eq_right,
    (above 0 4).trans BitVec.extractLsb'_append_eq_right,
    (above 4 24).trans <| (BitVec.extractLsb'_append_eq_of_le (by decide)).trans
      BitVec.extractLsb'_zero⟩

/-! ### ACC_LO and ACC_HI (R36) -/

theorem accLoWord_fields (s : State) :
    s.accLoWord.extractLsb' 0 16 = s.acc.extractLsb' 0 16 ∧ s.accLoWord.extractLsb' 16 16 = 0 := by
  refine ⟨BitVec.extractLsb'_eq_self, BitVec.eq_of_getLsbD_eq fun i _ => ?_⟩
  rw [BitVec.getLsbD_extractLsb', BitVec.getLsbD_of_ge s.accLoWord (16 + i) (by omega)]
  simp

theorem accHiWord_fields (s : State) :
    s.accHiWord.extractLsb' 0 15 = s.acc.extractLsb' 16 15 ∧ s.accHiWord.extractLsb' 15 17 = 0 :=
  ⟨BitVec.extractLsb'_append_eq_right,
    (BitVec.extractLsb'_append_eq_of_le (by decide)).trans BitVec.extractLsb'_zero⟩

/-- ACC_LO has no bit that ACC has not. -/
theorem getLsbD_accLoWord_of_acc_lt {s : State} {c k : Nat} (h : s.acc.toNat < 2 ^ c) (hk : c ≤ k) :
    s.accLoWord.getLsbD k = false := by
  have hacc : s.acc.getLsbD k = false := by
    rw [← BitVec.testBit_toNat]
    exact Nat.testBit_lt_two_pow (h.trans_le (Nat.pow_le_pow_right (by decide) hk))
  simp [State.accLoWord, BitVec.getLsbD_extractLsb', hacc]

theorem toNat_accLoWord_le (s : State) : s.accLoWord.toNat ≤ s.acc.toNat := by
  rw [State.accLoWord, BitVec.extractLsb'_toNat, Nat.shiftRight_zero]
  exact Nat.mod_le ..

theorem accHiWord_eq_zero {s : State} (h : s.acc.toNat < 2 ^ 16) : s.accHiWord = 0 := by
  have hx : s.acc.extractLsb' 16 15 = 0#15 := by
    apply BitVec.eq_of_toNat_eq
    rw [BitVec.extractLsb'_toNat, Nat.shiftRight_eq_div_pow, Nat.div_eq_of_lt h]
    rfl
  rw [State.accHiWord, hx]
  rfl

/-- Canonical held bits fill at most the low seven bits of ACC (R24, R25). -/
theorem acc_lt_of_canonical {s : State} (h : Canonical s) : s.acc.toNat < 2 ^ 7 :=
  h.2.trans_le (Nat.pow_le_pow_right (by decide) h.1)

/-! ### Reset (R42) -/

theorem regValue_reset (reg : Nat) : State.reset.regValue reg = 0 := by
  unfold State.regValue
  split <;> decide

theorem planesUnspecified_reset : PlanesUnspecified State.reset := by
  intro p off
  cases p <;> rfl

end Sys2Proof.Machine
end

section
/-! PROOFS. The statements about the state of the block and its registers (spec/10_state.md). -/

namespace Sys2Proof.Proofs

open Sys2Proof.Machine
open Sys2Proof.Safety

/-- Settles O13: each half of ACC is the field of its register; canonical held bits bound ACC by
2^7, so by 2^16. -/
theorem accumulatorReadsAsTwoRegisters : Obligations.AccumulatorReadsAsTwoRegisters := by
  intro s
  obtain ⟨t, ht, htw, htf, htk⟩ := exec_rdreg_reads (reg := 0x02) (by decide) s
  obtain ⟨u, hu, huw, huf, huk⟩ := exec_rdreg_reads (reg := 0x03) (by decide) s
  refine ⟨t, u, s.accLoWord.zeroExtend 32, s.accHiWord.zeroExtend 32, ht, htw, htf, htk, hu, huw,
    huf, huk, ?_⟩
  simp only [extractLsb'_zeroExtend_half, getLsbD_zeroExtend_half]
  obtain ⟨hlo, hloHigh⟩ := accLoWord_fields s
  obtain ⟨hhi, hhiHigh⟩ := accHiWord_fields s
  refine ⟨hlo, hloHigh, hhi, hhiHigh, fun hc => ⟨?bits, ?lo, ?hi⟩⟩
  case bits => exact fun k hk => getLsbD_accLoWord_of_acc_lt hc.2 hk
  case lo =>
    rw [BitVec.zeroExtend, BitVec.toNat_setWidth_of_le (by decide)]
    exact (toNat_accLoWord_le s).trans_lt (acc_lt_of_canonical hc)
  case hi =>
    rw [accHiWord_eq_zero ((acc_lt_of_canonical hc).trans (by decide))]
    rfl

/-- Settles O11: STATUS is its fields in their places, and RDREG answers it. -/
theorem statusReadsItsFields : Obligations.StatusReadsItsFields := by
  intro s
  obtain ⟨t, ht, hw, hf, hk⟩ := exec_rdreg_reads (reg := 0x00) (by decide) s
  refine ⟨t, s.statusWord.zeroExtend 32, ht, hw, hf, hk, ?_⟩
  simp only [extractLsb'_zeroExtend_half, getLsbD_zeroExtend_half]
  obtain ⟨hopened, hdir, hfaulted, hvalid⟩ := statusWord_flags s
  exact ⟨hopened, hdir, hfaulted, hvalid, statusWord_cnt s, statusWord_high s⟩

/-- Settles O12: FAULT is its fields in their places, and RDREG answers it and keeps the latch. -/
theorem faultReadsItsFields : Obligations.FaultReadsItsFields := by
  intro s
  obtain ⟨t, ht, hw, hf, hk⟩ := exec_rdreg_reads (reg := 0x01) (by decide) s
  refine ⟨t, s.faultWord.zeroExtend 32, ht, hw, hf, hk, ?_⟩
  simp only [extractLsb'_zeroExtend_half]
  exact faultWord_fields s

/-- Settles O53: the fields are those of `State.reset`, the registers are made of them, and no plane
lists a byte. -/
theorem resetStateHasTheListedValues : Obligations.ResetStateHasTheListedValues :=
  ⟨rfl, rfl, rfl, rfl, rfl, rfl, fun reg _ => regValue_reset reg, rfl, planesUnspecified_reset⟩

end Sys2Proof.Proofs
end

section
/-! PROOFS. The decoder against the opcode map (spec/30_encoding.md R83, R87, R88), and the step on a
command word that does not decode (R89, R192). -/

namespace Sys2Proof

/-! ### Well-formedness for a row, by the fields of the word (R82, R83) -/

theorem eq_packWord_iff {v : Word} {op : BitVec 4} {a : BitVec 5} {d : Half} :
    v = packWord op a d ↔ opField v = op ∧ rsvField v = 0 ∧ aField v = a ∧ dField v = d := by
  constructor
  · rintro rfl
    simp
  · rintro ⟨rfl, hr, rfl, rfl⟩
    exact (packWord_fields hr).symm

/-- A mask that covers OP and RSV, as every mask of the map does, and the parts `ma` of A and `md` of
D: those parts must be 0. -/
theorem fits_iff_fields {care : Word} {ma : BitVec 5} {md : Half}
    (ho : opField care = BitVec.allOnes 4) (hr : rsvField care = BitVec.allOnes 7)
    (ha : aField care = ma) (hd : dField care = md) (op : BitVec 4) (w : Word) :
    (⟨packWord op 0 0, care⟩ : OpcodeRow).Fits w ↔
      opField w = op ∧ rsvField w = 0 ∧ aField w &&& ma = 0 ∧ dField w &&& md = 0 := by
  have hop : opField (w &&& care) = opField w :=
    BitVec.extractLsb'_and.trans ((congrArg (opField w &&& ·) ho).trans BitVec.and_allOnes)
  have hrsv : rsvField (w &&& care) = rsvField w :=
    BitVec.extractLsb'_and.trans ((congrArg (rsvField w &&& ·) hr).trans BitVec.and_allOnes)
  have hA : aField (w &&& care) = aField w &&& ma := ha ▸ BitVec.extractLsb'_and
  have hD : dField (w &&& care) = dField w &&& md := hd ▸ BitVec.extractLsb'_and
  rw [OpcodeRow.Fits, eq_packWord_iff, hop, hrsv, hA, hD]

/-- WRITE_BITS and WRREG: A and D are free. -/
theorem fits_of_free_operands (op : BitVec 4) (w : Word) :
    (⟨packWord op 0 0, 0xFFE00000#32⟩ : OpcodeRow).Fits w ↔ opField w = op ∧ rsvField w = 0 := by
  rw [fits_iff_fields (ma := 0) (md := 0) rfl rfl rfl rfl]
  simp

/-- READ_BITS and RDREG: A is free. -/
theorem fits_of_free_a (op : BitVec 4) (w : Word) :
    (⟨packWord op 0 0, 0xFFE0FFFF#32⟩ : OpcodeRow).Fits w ↔
      opField w = op ∧ rsvField w = 0 ∧ dField w = 0 := by
  rw [fits_iff_fields (ma := 0) (md := BitVec.allOnes 16) rfl rfl rfl rfl, BitVec.and_allOnes]
  simp

/-- FLUSH and FRAME_LOAD: nothing is free. -/
theorem fits_of_no_operand (op : BitVec 4) (w : Word) :
    (⟨packWord op 0 0, 0xFFFFFFFF#32⟩ : OpcodeRow).Fits w ↔
      opField w = op ∧ rsvField w = 0 ∧ aField w = 0 ∧ dField w = 0 := by
  rw [fits_iff_fields (ma := BitVec.allOnes 5) (md := BitVec.allOnes 16) rfl rfl rfl rfl,
    BitVec.and_allOnes, BitVec.and_allOnes]

theorem and_fffe_eq_zero_iff {d : Half} : d &&& 0xFFFE#16 = 0 ↔ d.extractLsb' 1 15 = 0 := by
  have eq_zero_iff (u : Half) : u = 0 ↔ u.extractLsb' 1 15 = 0 ∧ u.extractLsb' 0 1 = 0 := by
    refine ⟨by rintro rfl; decide, fun ⟨hhi, hlo⟩ => ?_⟩
    rw [← BitVec.extractLsb'_append_extractLsb' (w := 15) (len := 1) (x := u), hhi, hlo]
    rfl
  have hhi : (d &&& 0xFFFE#16).extractLsb' 1 15 = d.extractLsb' 1 15 :=
    BitVec.extractLsb'_and.trans BitVec.and_allOnes
  have hlo : (d &&& 0xFFFE#16).extractLsb' 0 1 = 0 := BitVec.extractLsb'_and.trans BitVec.and_zero
  rw [eq_zero_iff, hhi, hlo]
  exact and_iff_left rfl

/-- OPEN: `D[0]` is free. -/
theorem fits_of_free_d0 (op : BitVec 4) (w : Word) :
    (⟨packWord op 0 0, 0xFFFFFFFE#32⟩ : OpcodeRow).Fits w ↔
      opField w = op ∧ rsvField w = 0 ∧ aField w = 0 ∧ (dField w).extractLsb' 1 15 = 0 := by
  rw [fits_iff_fields (ma := BitVec.allOnes 5) (md := 0xFFFE#16) rfl rfl rfl rfl,
    BitVec.and_allOnes, and_fffe_eq_zero_iff]

/-! ### What a word decodes to -/

theorem rowOf_mem_opcodeRows (i : Instr) : rowOf i ∈ opcodeRows := by
  cases i <;> simp [rowOf, opcodeRows]

/-- OP differs from row to row (R83). -/
theorem row_eq_of_opField_eq : ∀ r ∈ opcodeRows, ∀ q ∈ opcodeRows,
    opField r.bits = opField q.bits → r = q := by
  decide

/-- A word that is well-formed for a row has the row's OP, one of 1 to 7 (R83). -/
theorem opField_of_fits {r : OpcodeRow} {w : Word} (hr : r ∈ opcodeRows) (h : r.Fits w) :
    opField w = opField r.bits ∧ 0x1#4 ≤ opField w ∧ opField w ≤ 0x7#4 := by
  have covered : ∀ r ∈ opcodeRows,
      opField r.care = BitVec.allOnes 4 ∧ 0x1#4 ≤ opField r.bits ∧ opField r.bits ≤ 0x7#4 := by
    decide
  obtain ⟨hcare, hbounds⟩ := covered r hr
  have hop : opField w = opField r.bits :=
    calc opField w
      _ = opField w &&& opField r.care := by rw [hcare, BitVec.and_allOnes]
      _ = opField (w &&& r.care) := BitVec.extractLsb'_and.symm
      _ = opField r.bits := congrArg opField h
  exact ⟨hop, hop ▸ hbounds⟩

theorem decode_of_reserved_opcode {w : Word} (h : opField w = 0x0#4 ∨ 0x8#4 ≤ opField w) :
    decode w = .error .reservedOpcode := by
  have hop : (opField w).toNat = 0 ∨ 8 ≤ (opField w).toNat := h.imp (congrArg BitVec.toNat) id
  unfold decode
  split
  case h_8 => rfl
  all_goals omega

theorem checked_eq_decide {zero : Bool} {P : Prop} [Decidable P] (h : P ↔ zero = true) (i : Instr) :
    checked zero i = checked (decide P) i :=
  congrArg (checked · i) (Bool.eq_iff_iff.mpr (h.symm.trans decide_eq_true_iff.symm))

theorem checked_eq_ok {zero : Bool} {i j : Instr} : checked zero i = .ok j ↔ zero = true ∧ i = j := by
  cases zero <;> simp [checked]

/-- A word whose OP names a command decodes to a command of that OP, where the word is well-formed
for the command's row (R83), and is refused by R88 otherwise. -/
theorem decode_of_opcode {w : Word} (hlo : 0x1#4 ≤ opField w) (hhi : opField w ≤ 0x7#4) :
    ∃ i, opField (rowOf i).bits = opField w ∧ decode w = checked (decide ((rowOf i).Fits w)) i := by
  have opcodes : ∀ op : BitVec 4, 0x1#4 ≤ op → op ≤ 0x7#4 → op = 0x1#4 ∨ op = 0x2#4 ∨ op = 0x3#4 ∨
      op = 0x4#4 ∨ op = 0x5#4 ∨ op = 0x6#4 ∨ op = 0x7#4 := by decide
  rcases opcodes _ hlo hhi with h | h | h | h | h | h | h <;> rw [decode, h]
  · exact ⟨.writeBits (dField w) (aField w).toNat, by rw [rowOf]; rfl,
      checked_eq_decide ((fits_of_free_operands 0x1#4 w).trans (by simp [h])) _⟩
  · exact ⟨.flush, rfl,
      checked_eq_decide ((fits_of_no_operand 0x2#4 w).trans (by simp [h, and_assoc])) _⟩
  · exact ⟨.readBits (aField w).toNat, by rw [rowOf]; rfl,
      checked_eq_decide ((fits_of_free_a 0x3#4 w).trans (by simp [h])) _⟩
  · exact ⟨.openCtx (dirOfBit ((dField w).getLsbD 0)), by rw [rowOf]; rfl,
      checked_eq_decide ((fits_of_free_d0 0x4#4 w).trans (by simp [h, and_assoc])) _⟩
  · exact ⟨.wrreg (aField w).toNat (dField w), by rw [rowOf]; rfl,
      checked_eq_decide ((fits_of_free_operands 0x5#4 w).trans (by simp [h])) _⟩
  · exact ⟨.rdreg (aField w).toNat, by rw [rowOf]; rfl,
      checked_eq_decide ((fits_of_free_a 0x6#4 w).trans (by simp [h])) _⟩
  · exact ⟨.frameLoad, rfl,
      checked_eq_decide ((fits_of_no_operand 0x7#4 w).trans (by simp [h, and_assoc])) _⟩

/-- A word decodes to a command only where it is well-formed for the command's row (R83). -/
theorem fits_of_decode {w : Word} {i : Instr} (h : decode w = .ok i) : (rowOf i).Fits w := by
  have hop : (opField w = 0x0#4 ∨ 0x8#4 ≤ opField w) ∨ (0x1#4 ≤ opField w ∧ opField w ≤ 0x7#4) := by
    bv_omega
  rcases hop with hres | ⟨hlo, hhi⟩
  · cases (decode_of_reserved_opcode hres).symm.trans h
  · obtain ⟨j, -, hj⟩ := decode_of_opcode hlo hhi
    obtain ⟨hfit, rfl⟩ := checked_eq_ok.mp (hj.symm.trans h)
    exact of_decide_eq_true hfit

/-- A word that is well-formed for a row decodes to a command of the row (R83). -/
theorem decode_of_fits {w : Word} {r : OpcodeRow} (hr : r ∈ opcodeRows) (h : r.Fits w) :
    ∃ i, decode w = .ok i ∧ rowOf i = r := by
  obtain ⟨hop, hlo, hhi⟩ := opField_of_fits hr h
  obtain ⟨i, hi, hdec⟩ := decode_of_opcode hlo hhi
  have hrow : rowOf i = r := row_eq_of_opField_eq _ (rowOf_mem_opcodeRows i) r hr (hi.trans hop)
  refine ⟨i, ?_, hrow⟩
  rw [hdec, decide_eq_true (hrow ▸ h)]
  rfl

/-- A word whose OP names a command and that is well-formed for no row is refused (R88). -/
theorem decode_of_not_fits {w : Word} (hlo : 0x1#4 ≤ opField w) (hhi : opField w ≤ 0x7#4)
    (h : ∀ r ∈ opcodeRows, ¬ r.Fits w) : decode w = .error .reservedField := by
  obtain ⟨i, -, hdec⟩ := decode_of_opcode hlo hhi
  rw [hdec, decide_eq_false (h _ (rowOf_mem_opcodeRows i))]
  rfl

end Sys2Proof

namespace Sys2Proof.Machine

open Sys2Proof.Safety

/-! ### The step on a command word -/

/-- A command word runs on the rest of the plan, where no command waits (R89, D2). -/
theorem step_command {s : State} {w : Word} {rest : List Event} (he : s.events = .command w :: rest)
    (hw : s.waiting = none) : step s = runWord w { s with events := rest } := by
  simp [step, nextAction, he, act, whenReady, hw]

/-- Raising a fault while none is latched is precise (R192, R193). -/
theorem preciseFault_raise (k : FaultKind) {s : State} (h : NoFault s) :
    PreciseFault k.code k.detail (responseWord k.code k.detail 0) s (raise k s) := by
  have hl : latch k s = { s with cause := k.code, detail := k.detail } := if_pos h
  rw [raise_eq, hl]
  exact ⟨rfl, rfl, ⟨rfl, rfl⟩,
    keepsAllButFault_respond _ _ _ { s with cause := k.code, detail := k.detail }⟩

/-- A command word that does not decode raises its fault (R87, R88, R89). -/
theorem step_of_decode_error {s : State} {w : Word} {rest : List Event} {e : DecodeError}
    (he : s.events = .command w :: rest) (hw : s.waiting = none) (hf : NoFault s)
    (hd : decode w = .error e) :
    ∃ t, step s = .next t ∧
      PreciseFault (decodeFault e).code (decodeFault e).detail
        (responseWord (decodeFault e).code (decodeFault e).detail 0) { s with events := rest } t := by
  have hf' : NoFault { s with events := rest } := hf
  refine ⟨raise (decodeFault e) { s with events := rest }, ?_, preciseFault_raise _ hf'⟩
  rw [step_command he hw, runWord, hd]
  exact congrArg Host.Outcome.next (unlessFaulted_of_none hf' _)

end Sys2Proof.Machine
end

section
/-! PROOFS. The statements about the encoding (spec/30_encoding.md). -/

namespace Sys2Proof.Proofs

open Sys2Proof.Machine
open Sys2Proof.Safety

/-- Settles O3: the rows differ in OP, and OP selects the one row the decoder checks the word
against; two rows that a word fits are both the row of what it decodes to. -/
theorem wordsDecodeExactlyByTheirRow : Obligations.WordsDecodeExactlyByTheirRow := by
  refine ⟨fun w i => fits_of_decode, fun w r => decode_of_fits, fun w r q hr hq hrw hqw => ?_⟩
  obtain ⟨i, hi, rfl⟩ := decode_of_fits hr hrw
  obtain ⟨j, hj, rfl⟩ := decode_of_fits hq hqw
  rw [Except.ok.inj (hi.symm.trans hj)]

/-- Settles O6: such a word decodes to the error of R88, which a step raises. -/
theorem reservedFieldIsIllegal : Obligations.ReservedFieldIsIllegal :=
  fun _ _ _ he hw hf hlo hhi hfits =>
    step_of_decode_error he hw hf (decode_of_not_fits hlo hhi hfits)

/-- Settles O5: such a word decodes to the error of R87, which a step raises. -/
theorem reservedOpcodeIsIllegal : Obligations.ReservedOpcodeIsIllegal :=
  fun _ _ _ he hw hf hop => step_of_decode_error he hw hf (decode_of_reserved_opcode hop)

end Sys2Proof.Proofs
end

section
/-! PROOFS. The entropy writer (spec/40_writer.md): when WRITE_BITS and FLUSH run, the part of the state
they leave alone, and where a failing push ends them. -/

namespace Sys2Proof.Machine

open Sys2Proof.Safety

/-! ### The part of the state the writer leaves alone (R108) -/

/-- `s` without the fields a writer command may write: ACC, CNT, the latch, the write side of ECH, and
the model's record of responses, waiting and draws. -/
def forgetWriter (s : State) : State :=
  { s with
    acc := 0, cnt := 0, cause := 0, detail := 0,
    chan := { s.chan with sinkOut := [], sinkPlan := .accepts },
    responses := [], waiting := none, draws := 0 }

/-- `t` differs from `s` at most in the fields a writer command may write. -/
def WriterOnly (s t : State) : Prop := forgetWriter t = forgetWriter s

theorem WriterOnly.refl (s : State) : WriterOnly s s := rfl

theorem WriterOnly.trans {s t u : State} (h : WriterOnly s t) (g : WriterOnly t u) : WriterOnly s u :=
  Eq.trans g h

theorem WriterOnly.eq {s t : State} (h : WriterOnly s t) {α : Type} (f : State → α)
    (hf : ∀ u, f (forgetWriter u) = f u) : f t = f s :=
  (hf t).symm.trans ((congrArg f h).trans (hf s))

theorem memRead_forgetWriter (p : PlaneId) (off : Nat) (s : State) :
    memRead p off (forgetWriter s) = memRead p off s := by
  cases p <;> rfl

theorem WriterOnly.keepsMode {s t : State} (h : WriterOnly s t) : KeepsMode s t :=
  ⟨h.eq (·.opened) fun _ => rfl, h.eq (·.dir) fun _ => rfl⟩

theorem WriterOnly.keepsEch {s t : State} (h : WriterOnly s t) : KeepsEch s t :=
  h.eq (·.chan.ech) fun _ => rfl

theorem WriterOnly.keepsGeometry {s t : State} (h : WriterOnly s t) : KeepsGeometry s t :=
  ⟨h.eq (·.width) fun _ => rfl, h.eq (·.height) fun _ => rfl, h.eq (·.padwY) fun _ => rfl,
    h.eq (·.padhY) fun _ => rfl, h.eq (·.padwC) fun _ => rfl, h.eq (·.padhC) fun _ => rfl⟩

theorem WriterOnly.keepsOutsideEntropy {s t : State} (h : WriterOnly s t) : KeepsOutsideEntropy s t :=
  ⟨h.keepsGeometry,
    ⟨h.eq (·.frameValid) fun _ => rfl,
      fun p off => h.eq (memRead p off) (memRead_forgetWriter p off)⟩,
    h.eq (·.chan.fch) fun _ => rfl,
    h.eq (·.events) fun _ => rfl, h.eq (·.planeReads) fun _ => rfl⟩

/-! ### The operations of the writer write no other field -/

theorem writerOnly_respond (c d : BitVec 4) (v : BitVec 24) (s : State) :
    WriterOnly s (respond c d v s) := rfl

theorem writerOnly_setContext (a c : Nat) (s : State) : WriterOnly s (setContext a c s) := rfl

theorem writerOnly_drawContext (s : State) : WriterOnly s (drawContext s) := rfl

theorem writerOnly_hang (start : Channels) (s : State) : WriterOnly s (hang start s) := rfl

theorem writerOnly_pushed (bs : List Byte) (s : State) : WriterOnly s (s.pushed bs) := rfl

theorem writerOnly_raise (k : FaultKind) (s : State) : WriterOnly s (raise k s) := by
  by_cases h : s.cause = 0
  · rw [raise, latch, if_pos h]
    rfl
  · rw [raise, latch_of_faulted k h]
    exact writerOnly_respond ..

theorem writerOnly_raiseMid (k : FaultKind) (s : State) : WriterOnly s (raiseMid k s) :=
  (writerOnly_drawContext s).trans (writerOnly_raise k _)

theorem writerOnly_unlessFaulted {body : State → State} (h : ∀ s, WriterOnly s (body s)) (s : State) :
    WriterOnly s (unlessFaulted body s) := by
  unfold unlessFaulted
  split
  · exact writerOnly_respond ..
  · exact h s

theorem writerOnly_asWriter {body : State → State} (h : ∀ s, WriterOnly s (body s)) (s : State) :
    WriterOnly s (asWriter body s) := by
  unfold asWriter
  split
  · exact writerOnly_raise ..
  · split
    · exact writerOnly_raise ..
    · exact h s

/-- The state a part of a command has come to, whether the command goes on or is over. -/
def Flow.state (r : Flow) : State := r.finish id

theorem WriterOnly.andThen {s : State} {r : Flow} {f : State → Flow} (h : WriterOnly s r.state)
    (hf : ∀ t, WriterOnly t (f t).state) : WriterOnly s (r.andThen f).state := by
  rcases r with t | t
  · exact h.trans (hf t)
  · exact h

theorem WriterOnly.finish {s : State} {r : Flow} {f : State → State} (h : WriterOnly s r.state)
    (hf : ∀ t, WriterOnly t (f t)) : WriterOnly s (r.finish f) := by
  rcases r with t | t
  · exact h.trans (hf t)
  · exact h

theorem writerOnly_sinkPush (start : Channels) (b : Byte) (s : State) :
    WriterOnly s (sinkPush start b s).state := by
  obtain h | h | h := sinkPush_cases start b s <;> rw [h]
  · exact writerOnly_pushed ..
  · exact writerOnly_raiseMid ..
  · exact writerOnly_hang ..

theorem writerOnly_emit (start : Channels) (b : Byte) (s : State) :
    WriterOnly s (emit start b s).state := by
  refine (writerOnly_sinkPush start b s).andThen fun t => ?_
  split
  · exact writerOnly_sinkPush ..
  · exact .refl t

theorem writerOnly_drainRounds (start : Channels) (k : Nat) (s : State) :
    WriterOnly s (drainRounds start k s).state := by
  induction k generalizing s with
  | zero => exact .refl s
  | succ k ih =>
    exact (writerOnly_emit start (topByte s) s).andThen fun t =>
      (writerOnly_setContext _ _ t).trans (ih (dropOldest 8 t))

theorem writerOnly_flushHeld (start : Channels) (s : State) :
    WriterOnly s (flushHeld start s).state := by
  unfold flushHeld
  split
  · exact writerOnly_emit ..
  · exact .refl s

/-! ### When a writer command runs (R89, R100, R101) -/

/-- What FLUSH does on an open writer (R105). -/
def flushBody (s : State) : State :=
  (flushHeld s.chan s).finish fun t => respondOk 0 (setContext 0 0 t)

/-- What WRITE_BITS does on an open writer (R101). -/
def writeBody (bits : Half) (n : Nat) (s : State) : State :=
  if n > Config.nMax then raise .nTooLarge s
  else if n = 0 then respondOk 0 s
  else (drain s.chan (appendBits bits n s)).finish (respondOk 0)

theorem exec_flush (s : State) : exec .flush s = .next (unlessFaulted (asWriter flushBody) s) := rfl

theorem exec_writeBits (bits : Half) (n : Nat) (s : State) :
    exec (.writeBits bits n) s = .next (unlessFaulted (asWriter (writeBody bits n)) s) := rfl

theorem writerOnly_flushBody (s : State) : WriterOnly s (flushBody s) :=
  (writerOnly_flushHeld s.chan s).finish fun t =>
    (writerOnly_setContext 0 0 t).trans (writerOnly_respond ..)

theorem writerOnly_writeBody (bits : Half) (n : Nat) (s : State) : WriterOnly s (writeBody bits n s) := by
  unfold writeBody
  split
  · exact writerOnly_raise ..
  · split
    · exact writerOnly_respond ..
    · have happend : WriterOnly s (appendBits bits n s) := writerOnly_setContext ..
      exact (happend.trans (writerOnly_drainRounds ..)).finish fun t => writerOnly_respond ..

/-- Both writer commands check the same preconditions, and then run a body that writes the writer's
fields only. -/
theorem exec_writer {i : Instr} (hi : i = .flush ∨ ∃ bits n, i = .writeBits bits n) :
    ∃ body : State → State, (∀ s, WriterOnly s (body s)) ∧
      ∀ s, exec i s = .next (unlessFaulted (asWriter body) s) := by
  obtain rfl | ⟨bits, n, rfl⟩ := hi
  · exact ⟨flushBody, writerOnly_flushBody, exec_flush⟩
  · exact ⟨writeBody bits n, writerOnly_writeBody bits n, exec_writeBits bits n⟩

theorem asWriter_of_closed {s : State} (h : s.opened = false) (body : State → State) :
    asWriter body s = raise .notOpen s := if_pos h

theorem asWriter_of_reader {s : State} (h : s.opened = true) (hd : s.dir = .read)
    (body : State → State) : asWriter body s = raise .wrongDirection s := by
  simp [asWriter, h, hd]

theorem asWriter_of_writer {s : State} (h : s.opened = true) (hd : s.dir = .write)
    (body : State → State) : asWriter body s = body s := by
  simp [asWriter, h, hd]

theorem unlessFaulted_asWriter_of_openIn {s : State} (h : OpenIn .write s) (body : State → State) :
    unlessFaulted (asWriter body) s = body s := by
  obtain ⟨hfault, hopened, hdir⟩ := h
  rw [unlessFaulted_of_none hfault, asWriter_of_writer hopened hdir]

theorem exec_flush_of_openIn {s : State} (h : OpenIn .write s) :
    exec .flush s = .next (flushBody s) := by
  rw [exec_flush, unlessFaulted_asWriter_of_openIn h]

theorem exec_writeBits_of_openIn {s : State} (h : OpenIn .write s) (bits : Half) {n : Nat}
    (hlo : 1 ≤ n) (hhi : n ≤ 24) :
    exec (.writeBits bits n) s =
      .next ((drain s.chan (appendBits bits n s)).finish (respondOk 0)) := by
  rw [exec_writeBits, unlessFaulted_asWriter_of_openIn h, writeBody, if_neg (not_lt.mpr hhi),
    if_neg (Nat.one_le_iff_ne_zero.mp hlo)]

/-! ### The bytes of a writer command -/

/-- The data byte of FLUSH is no marker, so it is its own stream (R105, R106 (d)). -/
theorem flushData_eq {s : State} (hs : Canonical s) :
    flushData s = if s.cnt = 0 then [] else stuff [paddedByte s] := by
  obtain ⟨hcnt, hacc⟩ := hs
  rw [flushData, ← paddedByte_eq hacc, stuff_singleton, if_neg (paddedByte_ne_marker hcnt)]

/-- The data bytes of WRITE_BITS are those its drain loop takes out of ACC, and the bits over are
those it leaves there (R102, R103). -/
theorem writeCut_eq {s : State} (hs : Canonical s) (bits : Half) {n : Nat} (hn : n ≤ 24) :
    writeCut s bits n =
      (drained ((appendBits bits n s).cnt.toNat / 8) (appendBits bits n s),
        heldBits (dropRounds ((appendBits bits n s).cnt.toNat / 8) (appendBits bits n s))) := by
  obtain ⟨hcnt, hacc⟩ := hs
  have hfits : s.cnt.toNat + n ≤ 31 := by omega
  obtain ⟨hcnt', hacc', hheld⟩ := appendBits_spec (bits := bits) hacc hfits
  rw [writeCut, ← hheld]
  exact (drained_spec _ _ _ (Nat.mod_lt _ (by decide)) (Nat.div_add_mod ..).symm
    (hcnt'.symm ▸ hacc')).1

/-! ### A push that answers `error` (R107) -/

theorem exec_flush_error {s : State} {k : Nat} (h : OpenIn .write s) (hs : Canonical s)
    (hp : s.chan.sinkPlan = .failsAfter k) (hk : k < (flushData s).length) :
    exec .flush s = .next (raiseMid .echPush (s.pushed ((flushData s).take k))) := by
  have hcnt : s.cnt ≠ 0 := by
    intro h0
    simp [flushData, h0] at hk
  have hpos : s.cnt.toNat > 0 := Nat.pos_of_ne_zero fun h0 => hcnt (BitVec.eq_of_toNat_eq h0)
  rw [flushData_eq hs, if_neg hcnt] at hk ⊢
  rw [exec_flush_of_openIn h, flushBody, flushHeld, if_pos hpos, emit_error _ _ hp hk]
  rfl

/-- The bits appended and the rounds made do not show: ACC and CNT become free values. -/
theorem exec_writeBits_error {s : State} {bits : Half} {n k : Nat} (h : OpenIn .write s)
    (hs : Canonical s) (hlo : 1 ≤ n) (hhi : n ≤ 24) (hp : s.chan.sinkPlan = .failsAfter k)
    (hk : k < (stuff (writeCut s bits n).1).length) :
    exec (.writeBits bits n) s =
      .next (raiseMid .echPush (s.pushed ((stuff (writeCut s bits n).1).take k))) := by
  rw [writeCut_eq hs bits hhi] at hk ⊢
  rw [exec_writeBits_of_openIn h bits hlo hhi, drain,
    drainRounds_error _ _ (appendBits bits n s) hp hk]
  rfl

/-- What a failed push leaves: the latched pair, the response, and the bytes accepted before. -/
theorem raiseMid_echPush_pushed {s : State} (h : NoFault s) (bs : List Byte) :
    (raiseMid .echPush (s.pushed bs)).chan.sinkOut = s.chan.sinkOut ++ bs ∧
    (raiseMid .echPush (s.pushed bs)).cause = 1 ∧ (raiseMid .echPush (s.pushed bs)).detail = 1 ∧
    Responded 0x11000000#32 s (raiseMid .echPush (s.pushed bs)) := by
  have hfault : (drawContext (s.pushed bs)).cause = 0 := h
  rw [raiseMid, raise, latch, if_pos hfault]
  exact ⟨rfl, rfl, rfl, rfl, rfl⟩

end Sys2Proof.Machine
end

section
/-! PROOFS. The statements about the entropy writer (spec/40_writer.md). -/

namespace Sys2Proof.Proofs

open Sys2Proof.Machine
open Sys2Proof.Safety

/-- Settles O17: the preconditions come before either command's body, and raising is precise. -/
theorem writerNeedsAnOpenWriter : Obligations.WriterNeedsAnOpenWriter := by
  intro s i hf hi
  obtain ⟨body, -, hexec⟩ := exec_writer hi
  have hchecked : exec i s = .next (asWriter body s) := by rw [hexec, unlessFaulted_of_none hf]
  constructor
  · intro hclosed
    exact ⟨_, hchecked, asWriter_of_closed hclosed body ▸ preciseFault_raise .notOpen hf⟩
  · intro hopened hread
    exact ⟨_, hchecked,
      asWriter_of_reader hopened hread body ▸ preciseFault_raise .wrongDirection hf⟩

/-- Settles O21: either command ends where its stream is cut, by raising the fault there. -/
theorem writerStopsAtAChannelError : Obligations.WriterStopsAtAChannelError := by
  intro s i stream k h hs hi hp hk
  have hexec : exec i s = .next (raiseMid .echPush (s.pushed (stream.take k))) := by
    obtain ⟨rfl, rfl⟩ | ⟨bits, n, rfl, hlo, hhi, rfl⟩ := hi
    · exact exec_flush_error h hs hp hk
    · exact exec_writeBits_error h hs hlo hhi hp hk
  obtain ⟨hout, hcause, hdetail, hresponse⟩ := raiseMid_echPush_pushed h.1 (stream.take k)
  have hframe : WriterOnly s (raiseMid .echPush (s.pushed (stream.take k))) :=
    (writerOnly_pushed ..).trans (writerOnly_raiseMid ..)
  exact ⟨_, hexec, hout, hcause, hdetail, hresponse, hframe.keepsMode, hframe.keepsEch,
    hframe.keepsOutsideEntropy⟩

/-- Settles O25: the preconditions, the bodies and every operation in them write the writer's fields
only. -/
theorem writerTouchesNothingElse : Obligations.WriterTouchesNothingElse := by
  intro s t i hi ht
  obtain ⟨body, hbody, hexec⟩ := exec_writer hi
  obtain rfl : unlessFaulted (asWriter body) s = t :=
    Host.Outcome.next.inj ((hexec s).symm.trans ht)
  have hframe : WriterOnly s (unlessFaulted (asWriter body) s) :=
    writerOnly_unlessFaulted (writerOnly_asWriter hbody) s
  exact ⟨hframe.keepsMode, hframe.keepsEch, hframe.keepsOutsideEntropy⟩

end Sys2Proof.Proofs
end

section
/-! PROOFS. The entropy reader (spec/41_reader.md): when READ_BITS runs, what it answers from the bits
it has, and where the end of the stream ends it. -/

namespace Sys2Proof.Machine

open Sys2Proof.Safety

/-! ### What the reader leaves alone once its bytes are pulled -/

/-- `t` differs from `s` at most in ACC, CNT, the latch and the record: no channel has moved. -/
def ContextOnly (s t : State) : Prop := WriterOnly s t ∧ t.chan = s.chan

theorem ContextOnly.trans {s t u : State} (h : ContextOnly s t) (g : ContextOnly t u) :
    ContextOnly s u := ⟨h.1.trans g.1, g.2.trans h.2⟩

theorem contextOnly_respond (c d : BitVec 4) (v : BitVec 24) (s : State) :
    ContextOnly s (respond c d v s) := ⟨writerOnly_respond .., rfl⟩

theorem contextOnly_setContext (a c : Nat) (s : State) : ContextOnly s (setContext a c s) :=
  ⟨writerOnly_setContext .., rfl⟩

theorem contextOnly_raiseMid (k : FaultKind) (s : State) : ContextOnly s (raiseMid k s) :=
  ⟨writerOnly_raiseMid .., by simp⟩

theorem contextOnly_appendAll (bs : List Byte) (s : State) : ContextOnly s (appendAll bs s) := by
  rw [appendAll_eq]
  exact ⟨rfl, rfl⟩

theorem contextOnly_extractAndRespond (n : Nat) (s : State) :
    ContextOnly s (extractAndRespond n s) :=
  (contextOnly_setContext ..).trans (contextOnly_respond ..)

/-- A command that leaves `src` on ECH's read side, and besides writes the context, the latch and the
record only, keeps the mode, the write side, and all outside the entropy coder. -/
theorem ContextOnly.keepsRest {s t : State} {src : Source} (h : ContextOnly (s.withEch src) t) :
    t.chan.ech = src ∧ KeepsMode s t ∧ KeepsSink s t ∧ KeepsOutsideEntropy s t := by
  obtain ⟨hframe, hchan⟩ := h
  refine ⟨hframe.keepsEch, hframe.keepsMode, ⟨?_, ?_⟩, hframe.keepsOutsideEntropy⟩ <;>
    rw [hchan] <;> rfl

/-- The latch is kept, and the command has neither responded nor come to wait (R84). -/
def StillRuns (s t : State) : Prop :=
  KeepsFault s t ∧ t.responses = s.responses ∧ t.waiting = s.waiting

theorem stillRuns_appendAll_withEch (bs : List Byte) (src : Source) (s : State) :
    StillRuns s (appendAll bs (s.withEch src)) := by
  rw [appendAll_eq]
  exact ⟨⟨rfl, rfl⟩, rfl, rfl⟩

theorem StillRuns.noFault {s t : State} (h : StillRuns s t) (hs : NoFault s) : NoFault t :=
  h.1.1.trans hs

/-- The response of the rest of a command is the command's. -/
theorem StillRuns.responded {s t u : State} {w : Word} (h : StillRuns s t) (g : Responded w t u) :
    Responded w s u := by
  obtain ⟨-, hresponses, hwaiting⟩ := h
  obtain ⟨hword, hwait⟩ := g
  exact ⟨hresponses ▸ hword, hwait.trans hwaiting⟩

/-! ### When READ_BITS runs (R89, R120, R121) -/

/-- What READ_BITS does on an open reader (R121, R122). -/
def readBody (n : Nat) (s : State) : State :=
  if n = 0 then raise .readNZero s
  else if n > Config.nMax then raise .nTooLarge s
  else (fill s.chan n s).finish (extractAndRespond n)

theorem exec_readBits (n : Nat) (s : State) :
    exec (.readBits n) s = .next (unlessFaulted (asReader (readBody n)) s) := rfl

theorem asReader_of_closed {s : State} (h : s.opened = false) (body : State → State) :
    asReader body s = raise .notOpen s := if_pos h

theorem asReader_of_writer {s : State} (h : s.opened = true) (hd : s.dir = .write)
    (body : State → State) : asReader body s = raise .wrongDirection s := by
  simp [asReader, h, hd]

theorem asReader_of_reader {s : State} (h : s.opened = true) (hd : s.dir = .read)
    (body : State → State) : asReader body s = body s := by
  simp [asReader, h, hd]

theorem exec_readBits_of_openIn {s : State} (h : OpenIn .read s) (n : Nat) :
    exec (.readBits n) s = .next (readBody n s) := by
  obtain ⟨hfault, hopened, hdir⟩ := h
  rw [exec_readBits, unlessFaulted_of_none hfault, asReader_of_reader hopened hdir]

theorem readBody_zero (s : State) : readBody 0 s = raise .readNZero s := if_pos rfl

theorem readBody_too_large {n : Nat} (h : 24 < n) (s : State) :
    readBody n s = raise .nTooLarge s := by
  rw [readBody, if_neg (Nat.ne_zero_of_lt h), if_pos h]

theorem exec_readBits_legal {s : State} (h : OpenIn .read s) {n : Nat} (hlo : 1 ≤ n)
    (hhi : n ≤ 24) :
    exec (.readBits n) s = .next ((fill s.chan n s).finish (extractAndRespond n)) := by
  rw [exec_readBits_of_openIn h, readBody, if_neg (Nat.one_le_iff_ne_zero.mp hlo),
    if_neg (not_lt.mpr hhi)]

/-! ### Extracting the oldest bits (R124) -/

/-- The n oldest held bits are the value answered, and the others stay held. -/
theorem extractAndRespond_spec {u : State} {n : Nat} (hacc : u.acc.toNat < 2 ^ u.cnt.toNat)
    (hn : n ≤ u.cnt.toNat) (hhi : n ≤ 24) :
    Responded (BitVec.ofNat 32 (natOfBits ((heldBits u).take n))) u (extractAndRespond n u) ∧
    heldBits (extractAndRespond n u) = (heldBits u).drop n ∧
    (extractAndRespond n u).cnt.toNat = u.cnt.toNat - n ∧
    (extractAndRespond n u).acc.toNat < 2 ^ (u.cnt.toNat - n) := by
  obtain ⟨hcnt, hacc', hvalue, hheld⟩ := dropOldest_spec hacc hn
  have htake : (heldBits u).take n = bitString n (oldestBits n u) := by
    rw [hheld, List.take_left' (bitString_length ..)]
  have hdrop : (heldBits u).drop n = heldBits (dropOldest n u) := by
    rw [hheld, List.drop_left' (bitString_length ..)]
  have hfits : oldestBits n u < 2 ^ 24 :=
    hvalue.trans_le (Nat.pow_le_pow_right (by decide) hhi)
  have hword : BitVec.ofNat 32 (oldestBits n u) =
      (BitVec.ofNat 24 (oldestBits n u)).zeroExtend 32 := by
    apply BitVec.eq_of_toNat_eq
    simp only [BitVec.truncate_eq_setWidth, BitVec.toNat_setWidth, BitVec.toNat_ofNat]
    omega
  rw [htake, hdrop, natOfBits_bitString, Nat.mod_eq_of_lt hvalue, hword]
  exact ⟨responded_respondOk _ (dropOldest n u), rfl, hcnt, hacc'⟩

/-! ### How READ_BITS ends (R123, R125) -/

/-- The stream has the data bytes needed: they follow the held bits in ACC, and the oldest bits are
extracted from there. -/
theorem exec_readBits_enough {s : State} {n : Nat} {data rest : List Byte} (h : OpenIn .read s)
    (hs : Canonical s) (hlo : 1 ≤ n) (hhi : n ≤ 24)
    (hd : takeData ((n - s.cnt.toNat + 7) / 8) s.chan.ech.bytes = some (data, rest)) :
    ∃ u, ContextOnly (s.withEch { s.chan.ech with bytes := rest }) u ∧ StillRuns s u ∧
      data.length = (n - s.cnt.toNat + 7) / 8 ∧ u.cnt.toNat = s.cnt.toNat + 8 * data.length ∧
      u.acc.toNat < 2 ^ u.cnt.toNat ∧ heldBits u = heldBits s ++ byteBits data ∧
      exec (.readBits n) s = .next (extractAndRespond n u) := by
  obtain ⟨hcnt, hacc⟩ := hs
  obtain ⟨hlength, hfill⟩ := fillRounds_ok s.chan _ s hd
  have hfits : s.cnt.toNat + 8 * data.length ≤ 31 := by omega
  obtain ⟨hucnt, huacc, huheld⟩ :=
    appendAll_spec data (s.withEch { s.chan.ech with bytes := rest }) hacc hfits
  refine ⟨_, contextOnly_appendAll data _, stillRuns_appendAll_withEch data _ s, hlength, hucnt, huacc,
    huheld, ?_⟩
  rw [exec_readBits_legal h hlo hhi, fill, hfill]
  rfl

/-- The held bits are enough: no byte is pulled. -/
theorem exec_readBits_of_held {s : State} {n : Nat} (h : OpenIn .read s) (hlo : 1 ≤ n)
    (hhi : n ≤ 24) (hn : n ≤ s.cnt.toNat) :
    exec (.readBits n) s = .next (extractAndRespond n s) := by
  rw [exec_readBits_legal h hlo hhi, fill, Nat.sub_eq_zero_of_le hn]
  rfl

/-- The stream runs out of data bytes: the rounds made before show in ACC and CNT only, and the end of
the stream says how the command ends. -/
theorem exec_readBits_short {s : State} {n : Nat} (h : OpenIn .read s) (hlo : 1 ≤ n) (hhi : n ≤ 24)
    (hd : takeData ((n - s.cnt.toNat + 7) / 8) s.chan.ech.bytes = none) :
    ∃ u, ContextOnly (s.withEch { s.chan.ech with bytes := [] }) u ∧ StillRuns s u ∧
      exec (.readBits n) s =
        .next ((fillEnd s.chan s.chan.ech u).finish (extractAndRespond n)) := by
  obtain ⟨bs, hfill⟩ := fillRounds_short s.chan _ s hd
  refine ⟨_, contextOnly_appendAll bs _, stillRuns_appendAll_withEch bs _ s, ?_⟩
  rw [exec_readBits_legal h hlo hhi, fill, hfill]

/-- A fault in mid-operation latches its pair and answers it (R192, R194). -/
theorem raiseMid_of_noFault (k : FaultKind) {s : State} (h : NoFault s) :
    (raiseMid k s).cause = k.code ∧ (raiseMid k s).detail = k.detail ∧
    Responded (responseWord k.code k.detail 0) s (raiseMid k s) := by
  have hfault : (drawContext s).cause = 0 := h
  rw [raiseMid, raise, latch, if_pos hfault]
  exact ⟨rfl, rfl, rfl, rfl⟩

/-- Where the end of the stream raises the fault `k`, READ_BITS leaves just that fault (R125). -/
theorem exec_readBits_fault {s : State} {n : Nat} {k : FaultKind} (h : OpenIn .read s)
    (hlo : 1 ≤ n) (hhi : n ≤ 24)
    (hd : takeData ((n - s.cnt.toNat + 7) / 8) s.chan.ech.bytes = none)
    (hend : ∀ u, fillEnd s.chan s.chan.ech u = .over (raiseMid k u)) :
    ∃ t, exec (.readBits n) s = .next t ∧ t.chan.ech = ⟨[], s.chan.ech.ending⟩ ∧
      t.cause = k.code ∧ t.detail = k.detail ∧ Responded (responseWord k.code k.detail 0) s t ∧
      KeepsMode s t ∧ KeepsSink s t ∧ KeepsOutsideEntropy s t := by
  obtain ⟨u, hu, hruns, hexec⟩ := exec_readBits_short h hlo hhi hd
  rw [hend] at hexec
  obtain ⟨hcode, hdetail, hword⟩ := raiseMid_of_noFault k (hruns.noFault h.1)
  obtain ⟨hech, hkept⟩ := (hu.trans (contextOnly_raiseMid k u)).keepsRest
  exact ⟨_, hexec, hech, hcode, hdetail, hruns.responded hword, hkept⟩

end Sys2Proof.Machine
end

section
/-! PROOFS. The statements about the entropy reader (spec/41_reader.md). -/

namespace Sys2Proof.Proofs

open Sys2Proof.Machine
open Sys2Proof.Safety

/-- Settles O26: each check stands before any pull, and raising is precise. -/
theorem readerNeedsAnOpenReaderAndALegalCount :
    Obligations.ReaderNeedsAnOpenReaderAndALegalCount := by
  intro s n hf
  have hchecked : exec (.readBits n) s = .next (asReader (readBody n) s) := by
    rw [exec_readBits, unlessFaulted_of_none hf]
  refine ⟨?closed, ?writer, ?zero, ?large⟩
  case closed =>
    intro hclosed
    exact ⟨_, hchecked, asReader_of_closed hclosed _ ▸ preciseFault_raise .notOpen hf⟩
  case writer =>
    intro hopened hwrite
    exact ⟨_, hchecked, asReader_of_writer hopened hwrite _ ▸ preciseFault_raise .wrongDirection hf⟩
  case zero =>
    rintro h rfl
    exact ⟨_, exec_readBits_of_openIn h 0, readBody_zero s ▸ preciseFault_raise .readNZero hf⟩
  case large =>
    intro h hn
    exact ⟨_, exec_readBits_of_openIn h n, readBody_too_large hn s ▸ preciseFault_raise .nTooLarge hf⟩

/-- Settles O27: the bytes pulled follow the held bits, and the oldest n of them all are extracted. -/
theorem readPullsBytesAndReturnsTheOldestBits :
    Obligations.ReadPullsBytesAndReturnsTheOldestBits := by
  intro s n data rest h hs hlo hhi hd
  obtain ⟨u, hu, hruns, hlength, hcnt, hacc, hheld, hexec⟩ := exec_readBits_enough h hs hlo hhi hd
  have hn : n ≤ u.cnt.toNat := by omega
  have hfew : u.cnt.toNat - n ≤ 7 := by omega
  obtain ⟨hword, hrest, htcnt, htacc⟩ := extractAndRespond_spec hacc hn hhi
  obtain ⟨hech, hmode, hsink, houtside⟩ :=
    (hu.trans (contextOnly_extractAndRespond n u)).keepsRest
  rw [hheld] at hword hrest
  exact ⟨_, hexec, hech, hruns.responded hword, hrest, hcnt ▸ htcnt,
    ⟨htcnt.trans_le hfew, htcnt.symm ▸ htacc⟩, hruns.1, hmode, hsink, houtside⟩

/-- Settles O28: the end of the stream raises one fault, by what the channel answers there and by the
byte missing; held bits alone are extracted without a pull. -/
theorem readFaultsWhereTheStreamRunsOut : Obligations.ReadFaultsWhereTheStreamRunsOut := by
  intro s n h _ hlo hhi
  refine ⟨fun hd he => ?eof, fun hd he => ?error, fun hn => ?held⟩
  case eof =>
    have hend (u : State) : fillEnd s.chan s.chan.ech u = .over (raiseMid
        (if endsBeforeStuffed s.chan.ech.bytes then .eofAtStuffed else .eofAtData) u) := by
      rw [fillEnd, he]
    obtain ⟨t, hexec, hech, hcause, hdetail, hword, hkept⟩ := exec_readBits_fault h hlo hhi hd hend
    rw [he] at hech
    by_cases hs : endsBeforeStuffed s.chan.ech.bytes = true
    · rw [if_pos hs] at hcause hdetail hword
      exact ⟨t, hexec, hech, hcause, if_pos hs ▸ ⟨hdetail, hword⟩, hkept⟩
    · rw [if_neg hs] at hcause hdetail hword
      exact ⟨t, hexec, hech, hcause, if_neg hs ▸ ⟨hdetail, hword⟩, hkept⟩
  case error =>
    have hend (u : State) : fillEnd s.chan s.chan.ech u = .over (raiseMid .echPull u) := by
      rw [fillEnd, he]
    obtain ⟨t, hexec, hech, hfault⟩ := exec_readBits_fault h hlo hhi hd hend
    exact ⟨t, hexec, he ▸ hech, hfault⟩
  case held =>
    exact ⟨_, _, exec_readBits_of_held h hlo hhi hn, ⟨rfl, rfl⟩, codeOf_responseWord 0 0 _,
      ⟨rfl, rfl⟩, rfl⟩

end Sys2Proof.Proofs
end

section
/-! PROOFS. FRAME_LOAD (spec/42_frame_layout.md): when it runs, how it ends on a channel that has a
frame's bytes and on one that has not, and what a load without a whole frame leaves. -/

namespace Sys2Proof.Machine

open Sys2Proof.Safety

/-! ### When FRAME_LOAD runs (R89, R146, R147) -/

theorem exec_frameLoad_of_illegal {s : State} (hf : NoFault s) (hg : ¬ s.GeometryLegal) :
    exec .frameLoad s = .next (raise .badDimensions s) := by
  rw [exec, execFrameLoad, frameLoadIn, unlessFaulted_of_none hf, if_neg hg]

theorem exec_frameLoad_of_legal {s : State} (hf : NoFault s) (hg : s.GeometryLegal) :
    exec .frameLoad s = .next (loadFrame Config.fillMode s) := by
  rw [exec, execFrameLoad, frameLoadIn, unlessFaulted_of_none hf, if_pos hg]

/-- A legal geometry has no empty frame (R140, R146). -/
theorem frameBytes_pos_of_legal {s : State} (hg : s.GeometryLegal) : 0 < s.frameBytes := by
  obtain ⟨⟨hwidth, -⟩, ⟨hheight, -⟩, -⟩ := hg
  have hluma : 0 < s.sampleCount .Y :=
    Nat.mul_pos (Nat.zero_lt_of_lt hwidth) (Nat.zero_lt_of_lt hheight)
  unfold State.frameBytes
  omega

/-! ### What a load leaves (R149, R151 to R154) -/

/-- `s` once a load has pulled until `rest` was left on FCH and has set FRAME_VALID to 0, the planes
apart. -/
def pulledFch (rest : Source) (s : State) : State :=
  { s with chan := { s.chan with fch := rest }, frameValid := false }

/-- `s` once a load has stored `bytes` over the zero fill and left `rest` on FCH. -/
def storedFrame (bytes : List Byte) (rest : Source) (s : State) : State :=
  storeAll Config.fillMode 0 bytes ((zeroFill { s with frameValid := false }).withFch rest)

theorem planesOnly_storedFrame (bytes : List Byte) (rest : Source) (s : State) :
    PlanesOnly (pulledFch rest s) (storedFrame bytes rest s) :=
  PlanesOnly.storeAll ..

theorem frameBytes_storedFrame (bytes : List Byte) (rest : Source) (s : State) :
    (storedFrame bytes rest s).frameBytes = s.frameBytes :=
  (planesOnly_storedFrame bytes rest s).eq (·.frameBytes) fun _ => rfl

theorem responses_storedFrame (bytes : List Byte) (rest : Source) (s : State) :
    (storedFrame bytes rest s).responses = s.responses :=
  (planesOnly_storedFrame bytes rest s).eq (·.responses) fun _ => rfl

/-- The state in which a load that runs out of bytes gives its response. -/
def failedLoad (s : State) : State :=
  { s with
    chan := { s.chan with fch := ⟨[], s.chan.fch.ending⟩ }, frameValid := false,
    planeY := [], planeU := [], planeV := [] }

theorem forgetPlanes_storedFrame (bytes : List Byte) (s : State) :
    forgetPlanes (storedFrame bytes ⟨[], s.chan.fch.ending⟩ s) = failedLoad s :=
  planesOnly_storedFrame bytes _ s

/-- A failed load that besides writes the context, the latch and the record only, leaves no frame, has
consumed FCH, and keeps all outside the frame part. -/
theorem ContextOnly.afterFailedLoad {s t : State} (h : ContextOnly (failedLoad s) t) :
    t.frameValid = false ∧ PlanesUnspecified t ∧ t.chan.fch = ⟨[], s.chan.fch.ending⟩ ∧
    KeepsOutsideFrame s t := by
  obtain ⟨hech, hmode, hsink, hgeometry, ⟨hvalid, hplanes⟩, hfch, hplan⟩ :=
    ContextOnly.keepsRest (s := failedLoad s) (src := s.chan.ech) h
  have hforgotten (p : PlaneId) (off : Nat) : memRead p off t = none :=
    (hplanes p off).trans (memRead_forgetPlanes p off (pulledFch _ s))
  exact ⟨hvalid, hforgotten, hfch, hmode, hgeometry, hsink, hech, hplan⟩

/-! ### How FRAME_LOAD ends (R149, R150) -/

/-- The channel has a frame's bytes: the command answers OK. -/
theorem exec_frameLoad_enough {s : State} (hf : NoFault s) (hg : s.GeometryLegal)
    (h : s.frameBytes ≤ s.chan.fch.bytes.length) :
    exec .frameLoad s =
      .next (respondOk 0 { storedFrame (s.chan.fch.bytes.take s.frameBytes)
        ⟨s.chan.fch.bytes.drop s.frameBytes, s.chan.fch.ending⟩ s with frameValid := true }) := by
  have hloop := loadLoop_enough Config.fillMode s.chan s.frameBytes 0
    (zeroFill { s with frameValid := false }) h
  rw [exec_frameLoad_of_legal hf hg, loadFrame, hloop, Nat.zero_add]
  exact congrArg _ (if_pos (frameBytes_storedFrame _ _ s).symm)

/-- The channel runs out of bytes: all are consumed, and its ending says how the command ends. -/
theorem exec_frameLoad_short {s : State} (hf : NoFault s) (hg : s.GeometryLegal)
    (h : s.chan.fch.bytes.length < s.frameBytes) :
    exec .frameLoad s = .next (loadEnd s.chan s.chan.fch.ending s.chan.fch.bytes.length
      (storedFrame s.chan.fch.bytes ⟨[], s.chan.fch.ending⟩ s)).finish := by
  have hloop := loadLoop_short Config.fillMode s.chan s.frameBytes 0
    (zeroFill { s with frameValid := false }) h
  rw [exec_frameLoad_of_legal hf hg, loadFrame, hloop, storedFrame]
  exact congrArg (fun i => Host.Outcome.next (loadEnd _ _ i _).finish) (Nat.zero_add _)

/-- End-of-stream before a whole frame: EndOfStream with no byte, TruncatedFrameError with some
(R152, R153). -/
theorem exec_frameLoad_eof {s : State} (hf : NoFault s) (hg : s.GeometryLegal)
    (h : s.chan.fch.bytes.length < s.frameBytes) (he : s.chan.fch.ending = .eof) :
    exec .frameLoad s =
      .next (respond (if s.chan.fch.bytes.length = 0 then 2 else 3) 0 0 (failedLoad s)) := by
  rw [exec_frameLoad_short hf hg h, he, loadEnd, Loaded.finish, classify, frameBytes_storedFrame,
    if_neg h.ne, ← he, forgetPlanes_storedFrame]
  by_cases hempty : s.chan.fch.bytes.length = 0
  · rw [if_pos hempty, if_pos hempty, respondEndOfStream]
  · rw [if_neg hempty, if_neg hempty, respondTruncated]

/-- A failing channel before a whole frame: ChannelError (R154). -/
theorem exec_frameLoad_error {s : State} (hf : NoFault s) (hg : s.GeometryLegal)
    (h : s.chan.fch.bytes.length < s.frameBytes) (he : s.chan.fch.ending = .error) :
    exec .frameLoad s = .next (raiseMid .fchPull (failedLoad s)) := by
  rw [exec_frameLoad_short hf hg h, he, loadEnd, Loaded.finish, ← he, forgetPlanes_storedFrame]

/-- A silent channel before a whole frame: the command waits (R57, R203). -/
theorem exec_frameLoad_silent {s : State} (hf : NoFault s) (hg : s.GeometryLegal)
    (h : s.chan.fch.bytes.length < s.frameBytes) (he : s.chan.fch.ending = .silent) :
    exec .frameLoad s = .next (hang s.chan
      (storedFrame s.chan.fch.bytes ⟨[], s.chan.fch.ending⟩ s)) := by
  rw [exec_frameLoad_short hf hg h, he]
  rfl

/-- FRAME_LOAD on an exhausted channel at end-of-stream (R152). -/
theorem exec_frameLoad_exhausted {s : State} (hf : NoFault s) (hg : s.GeometryLegal)
    (h : s.chan.fch = ⟨[], .eof⟩) :
    exec .frameLoad s = .next (respond 2 0 0 (failedLoad s)) := by
  have hempty : s.chan.fch.bytes.length = 0 := by rw [h]; rfl
  rw [exec_frameLoad_eof hf hg (hempty ▸ frameBytes_pos_of_legal hg) (by rw [h]), if_pos hempty]

/-- A load that ends by classifying a missing or a cut frame latches nothing, and the next load
answers EndOfStream (R151 to R153). -/
theorem respond_failedLoad_spec (code : BitVec 4) {s t : State} (hf : NoFault s)
    (hg : s.GeometryLegal) (he : s.chan.fch.ending = .eof)
    (ht : t = respond code 0 0 (failedLoad s)) :
    t.frameValid = false ∧ PlanesUnspecified t ∧ t.chan.fch = ⟨[], .eof⟩ ∧
    Responded (responseWord code 0 0) s t ∧ KeepsHeld s t ∧ KeepsFault s t ∧
    KeepsOutsideFrame s t ∧
    ∃ u, exec .frameLoad t = .next u ∧ Responded 0x20000000#32 t u := by
  subst ht
  obtain ⟨hvalid, hplanes, hfch, houtside⟩ :=
    (contextOnly_respond code 0 0 (failedLoad s)).afterFailedLoad
  rw [he] at hfch
  exact ⟨hvalid, hplanes, hfch, ⟨rfl, rfl⟩, ⟨rfl, rfl⟩, ⟨rfl, rfl⟩, houtside,
    _, exec_frameLoad_exhausted hf hg hfch, rfl, rfl⟩

/-- Which response FRAME_LOAD gives says what the channel held (R150, R152 to R154). -/
theorem exec_frameLoad_response {s t : State} {w : Word} (hf : NoFault s) (hg : s.GeometryLegal)
    (hexec : exec .frameLoad s = .next t) (hw : Responded w s t) :
    (w = 0#32 ∧ s.frameBytes ≤ s.chan.fch.bytes.length) ∨
    (w = 0x13000000#32 ∧ s.chan.fch.ending = .error) ∨
    (w = 0x20000000#32 ∧ s.chan.fch = ⟨[], .eof⟩) ∨
    (w = 0x30000000#32 ∧ s.chan.fch.bytes ≠ [] ∧ s.chan.fch.bytes.length < s.frameBytes ∧
      s.chan.fch.ending = .eof) := by
  obtain ⟨hresponses, -⟩ := hw
  have hword {v : Word} (ht : t.responses = s.responses ++ [v]) : w = v :=
    List.singleton_inj.mp (List.append_cancel_left (hresponses.symm.trans ht))
  rcases le_or_gt s.frameBytes s.chan.fch.bytes.length with henough | hshort
  · cases hexec.symm.trans (exec_frameLoad_enough hf hg henough)
    exact .inl ⟨hword (congrArg (· ++ [0#32]) (responses_storedFrame ..)), henough⟩
  · cases he : s.chan.fch.ending with
    | eof =>
      cases hexec.symm.trans (exec_frameLoad_eof hf hg hshort he)
      by_cases hempty : s.chan.fch.bytes.length = 0
      · rw [if_pos hempty] at hword
        have hfch : s.chan.fch = ⟨[], .eof⟩ := by
          rw [← he, ← List.length_eq_zero_iff.mp hempty]
        exact .inr (.inr (.inl ⟨hword rfl, hfch⟩))
      · rw [if_neg hempty] at hword
        exact .inr (.inr (.inr ⟨hword rfl, mt List.length_eq_zero_iff.mpr hempty, hshort, rfl⟩))
    | error =>
      cases hexec.symm.trans (exec_frameLoad_error hf hg hshort he)
      obtain ⟨-, -, hresponded, -⟩ := raiseMid_of_noFault .fchPull (s := failedLoad s) hf
      exact .inr (.inl ⟨hword hresponded, rfl⟩)
    | silent =>
      cases hexec.symm.trans (exec_frameLoad_silent hf hg hshort he)
      have hnone := hresponses.symm.trans (responses_storedFrame ..)
      simp at hnone

end Sys2Proof.Machine
end

section
/-! PROOFS. The statements about the frame layout interpreter (spec/42_frame_layout.md). -/

namespace Sys2Proof.Proofs

open Sys2Proof.Machine
open Sys2Proof.Safety

/-- Settles O38: an exhausted channel ends the load at its first pull, and leaves itself as it was;
no other ending of the load answers this word. -/
theorem frameLoadAtTheEndOfTheStream : Obligations.FrameLoadAtTheEndOfTheStream := by
  intro s hf hg
  refine ⟨fun h => ?answered, fun t hexec hw => ?only⟩
  case answered =>
    obtain ⟨hvalid, hplanes, hfch, hkept⟩ :=
      respond_failedLoad_spec 2 hf hg (congrArg Source.ending h) rfl
    exact ⟨_, exec_frameLoad_exhausted hf hg h, hvalid, hplanes, hfch.trans h.symm, hkept⟩
  case only =>
    simpa using exec_frameLoad_response hf hg hexec hw

/-- Settles O39: the bytes there are leave FCH exhausted, where the next load answers EndOfStream; no
other ending of the load answers this word. -/
theorem frameLoadOfATruncatedFrame : Obligations.FrameLoadOfATruncatedFrame := by
  intro s hf hg
  refine ⟨fun hne hshort he => ?answered, fun t hexec hw => ?only⟩
  case answered =>
    have hexec := exec_frameLoad_eof hf hg hshort he
    rw [if_neg (mt List.length_eq_zero_iff.mp hne)] at hexec
    exact ⟨_, hexec, respond_failedLoad_spec 3 hf hg he rfl⟩
  case only =>
    simpa using exec_frameLoad_response hf hg hexec hw

/-- Settles O40: the failing pull raises its fault in the state the failed load leaves. -/
theorem frameLoadStopsAtAChannelError : Obligations.FrameLoadStopsAtAChannelError := by
  intro s hf hg hshort he
  obtain ⟨hvalid, hplanes, hfch, houtside⟩ :=
    (contextOnly_raiseMid .fchPull (failedLoad s)).afterFailedLoad
  obtain ⟨hcause, hdetail, hword⟩ := raiseMid_of_noFault .fchPull (s := failedLoad s) hf
  exact ⟨_, exec_frameLoad_error hf hg hshort he, hvalid, hplanes, he ▸ hfch, hcause, hdetail, hword,
    houtside⟩

/-- Settles O36: the check stands before any pull, and raising is precise. -/
theorem illegalGeometryIsRefused : Obligations.IllegalGeometryIsRefused := by
  intro s hf hbad
  have hillegal : ¬ s.GeometryLegal := by
    rintro ⟨⟨hwidth, heven⟩, ⟨hheight, heven'⟩, ⟨hpadw, hpadh⟩, hchroma⟩
    exact hbad ⟨hwidth, heven, hheight, heven', hpadw, hpadh, hchroma⟩
  exact ⟨_, exec_frameLoad_of_illegal hf hillegal, preciseFault_raise .badDimensions hf⟩

end Sys2Proof.Proofs
end

section
/-! PROOFS. The control commands (spec/43_control.md): when RDREG, WRREG and OPEN run, what a register
write does to the register map, and what each command leaves as it was. -/

namespace Sys2Proof.Machine

open Sys2Proof.Safety

/-! ### Refusal in the FAULTED state (R196) -/

/-- A refused command answers the latched pair and has no side effect. -/
theorem unlessFaulted_refuses {s : State} (h : s.cause ≠ 0) (body : State → State) :
    Responded (s.cause ++ s.detail ++ 0#24) s (unlessFaulted body s) ∧
      KeepsFault s (unlessFaulted body s) ∧ KeepsAllButFault s (unlessFaulted body s) := by
  rw [unlessFaulted_of_faulted h]
  exact ⟨⟨rfl, rfl⟩, keepsFault_respond .., keepsAllButFault_respond ..⟩

/-! ### RDREG of an index with no register (R172) -/

theorem exec_rdreg_of_invalid {reg : Nat} (h : ¬ RegIndexValid reg) (s : State) :
    exec (.rdreg reg) s = .next (unlessFaulted (raise .badRegisterIndex) s) :=
  congrArg Host.Outcome.next (if_neg h)

/-! ### The register map under a register write (R33, R37) -/

theorem plane_setReg (s : State) (reg : Nat) (v : Half) (p : PlaneId) :
    (s.setReg reg v).plane p = s.plane p := by
  cases p
  exacts [setReg_planeY .., setReg_planeU .., setReg_planeV ..]

/-- A geometry register is read from the geometry fields alone. -/
theorem regValue_of_keepsGeometry {s t : State} (h : KeepsGeometry s t) {r : Nat} (hlo : 0x04 ≤ r)
    (hhi : r ≤ 0x09) : t.regValue r = s.regValue r := by
  obtain ⟨hwidth, hheight, hpadwY, hpadhY, hpadwC, hpadhC⟩ := h
  interval_cases r
  exacts [hwidth, hheight, hpadwY, hpadhY, hpadwC, hpadhC]

theorem regValue_setReg_same (s : State) {reg : Nat} (hlo : 0x04 ≤ reg) (hhi : reg ≤ 0x09)
    (v : Half) : (s.setReg reg v).regValue reg = v := by
  interval_cases reg <;> rfl

theorem regValue_setReg_of_ne (s : State) {r reg : Nat} (hlo : 0x04 ≤ r) (hhi : r ≤ 0x09)
    (hne : r ≠ reg) (v : Half) : (s.setReg reg v).regValue r = s.regValue r := by
  unfold State.setReg
  split <;> interval_cases r <;> trivial

/-! ### WRREG (R171) -/

/-- What WRREG of a geometry register does before it responds: the register, and FRAME_VALID. -/
def storeGeometry (reg : Nat) (value : Half) (s : State) : State :=
  { s.setReg reg value with frameValid := false }

theorem exec_wrreg_of_geometry {s : State} (hf : NoFault s) {reg : Nat} (hlo : 0x04 ≤ reg)
    (hhi : reg ≤ 0x09) (value : Half) :
    exec (.wrreg reg value) s = .next (respondOk 0 (storeGeometry reg value s)) := by
  have hvalid : ¬ ¬ RegIndexValid reg := not_not_intro hhi
  have hwritable : ¬ RegReadOnly reg := Nat.not_le_of_gt hlo
  rw [exec, execWrreg, unlessFaulted_of_none hf, if_neg hvalid, if_neg hwritable, storeGeometry]

theorem exec_wrreg_of_invalid {s : State} (hf : NoFault s) {reg : Nat} (h : ¬ RegIndexValid reg)
    (value : Half) : exec (.wrreg reg value) s = .next (raise .badRegisterIndex s) := by
  rw [exec, execWrreg, unlessFaulted_of_none hf, if_pos h]

theorem exec_wrreg_of_readOnly {s : State} (hf : NoFault s) {reg : Nat} (h : RegReadOnly reg)
    (value : Half) : exec (.wrreg reg value) s = .next (raise .readOnlyRegister s) := by
  have hvalid : ¬ ¬ RegIndexValid reg := not_not_intro (Nat.le_trans h (by decide))
  rw [exec, execWrreg, unlessFaulted_of_none hf, if_neg hvalid, if_pos h]

/-- Clearing FRAME_VALID moves no geometry register. -/
theorem keepsGeometry_storeGeometry (reg : Nat) (value : Half) (s : State) :
    KeepsGeometry (s.setReg reg value) (storeGeometry reg value s) :=
  ⟨rfl, rfl, rfl, rfl, rfl, rfl⟩

/-- A register write is no part of the context, the latch, the planes, a channel or the plan. -/
theorem storeGeometry_keeps (reg : Nat) (value : Half) (s : State) :
    KeepsHeld s (storeGeometry reg value s) ∧ KeepsMode s (storeGeometry reg value s) ∧
      KeepsFault s (storeGeometry reg value s) ∧ KeepsPlanes s (storeGeometry reg value s) ∧
      KeepsSink s (storeGeometry reg value s) ∧ KeepsEch s (storeGeometry reg value s) ∧
      KeepsFch s (storeGeometry reg value s) ∧ KeepsPlan s (storeGeometry reg value s) := by
  have hchan : (s.setReg reg value).chan = s.chan := setReg_chan ..
  exact ⟨⟨setReg_acc .., setReg_cnt ..⟩, ⟨setReg_opened .., setReg_dir ..⟩,
    ⟨setReg_cause .., setReg_detail ..⟩,
    fun p off => congrArg (Memory.read off) (plane_setReg s reg value p),
    ⟨congrArg Channels.sinkOut hchan, congrArg Channels.sinkPlan hchan⟩,
    congrArg Channels.ech hchan, congrArg Channels.fch hchan, setReg_events .., setReg_planeReads ..⟩

/-! ### OPEN (R170) -/

theorem exec_openCtx_of_unflushed {s : State} (hf : NoFault s) (h : s.HoldsUnflushedBits) (d : Dir) :
    exec (.openCtx d) s = .next (raise .unflushedBits s) := by
  rw [exec, execOpenCtx, unlessFaulted_of_none hf, if_pos h]

theorem exec_openCtx_of_flushed {s : State} (hf : NoFault s) (h : ¬ s.HoldsUnflushedBits) (d : Dir) :
    exec (.openCtx d) s = .next (respondOk 0 (freshContext d s)) := by
  rw [exec, execOpenCtx, unlessFaulted_of_none hf, if_neg h]

/-- A fresh context is no part of the latch, the geometry, the frame, a channel or the plan. -/
theorem freshContext_keeps (d : Dir) (s : State) :
    KeepsFault s (freshContext d s) ∧ KeepsGeometry s (freshContext d s) ∧
      KeepsFrame s (freshContext d s) ∧ KeepsSink s (freshContext d s) ∧
      KeepsEch s (freshContext d s) ∧ KeepsFch s (freshContext d s) ∧
      KeepsPlan s (freshContext d s) :=
  ⟨⟨rfl, rfl⟩, ⟨rfl, rfl, rfl, rfl, rfl, rfl⟩, ⟨rfl, fun _ _ => rfl⟩, ⟨rfl, rfl⟩, rfl, rfl, rfl, rfl⟩

end Sys2Proof.Machine
end

section
/-! PROOFS. The statements about the control commands (spec/43_control.md). -/

namespace Sys2Proof.Proofs

open Sys2Proof.Machine
open Sys2Proof.Safety

/-- Settles O15: the write is a write of the register map that clears FRAME_VALID; the two index checks
stand before it, and raising is precise. -/
theorem wrregWritesOneRegister : Obligations.WrregWritesOneRegister := by
  intro s reg value hf
  refine ⟨fun hlo hhi => ?stored, fun hbad => ?invalid, fun hro => ?readOnly⟩
  case stored =>
    have hgeometry :
        KeepsGeometry (s.setReg reg value) (respondOk 0 (storeGeometry reg value s)) :=
      keepsGeometry_storeGeometry reg value s
    refine ⟨_, exec_wrreg_of_geometry hf hlo hhi value, ?written, fun r hrlo hrhi hne => ?others, rfl,
      ⟨?answered, setReg_waiting ..⟩, storeGeometry_keeps reg value s⟩
    case written =>
      rw [regValue_of_keepsGeometry hgeometry hlo hhi, regValue_setReg_same s hlo hhi]
    case others =>
      rw [regValue_of_keepsGeometry hgeometry hrlo hrhi, regValue_setReg_of_ne s hrlo hrhi hne]
    case answered => exact congrArg (· ++ [0#32]) (setReg_responses s reg value)
  case invalid =>
    exact ⟨_, exec_wrreg_of_invalid hf (Nat.not_le_of_gt hbad) value,
      preciseFault_raise .badRegisterIndex hf⟩
  case readOnly =>
    exact ⟨_, exec_wrreg_of_readOnly hf hro value, preciseFault_raise .readOnlyRegister hf⟩

/-- Settles O16: the check stands before the context is replaced, and raising is precise. -/
theorem openMakesAFreshContext : Obligations.OpenMakesAFreshContext := by
  intro s d hf
  split
  case isTrue hheld =>
    exact ⟨_, exec_openCtx_of_unflushed hf hheld d, preciseFault_raise .unflushedBits hf⟩
  case isFalse hfree =>
    exact ⟨_, exec_openCtx_of_flushed hf hfree d, rfl, rfl, rfl, rfl,
      responded_respondOk 0 (freshContext d s), freshContext_keeps d s⟩

/-- Settles O10: a register is answered in any state; an index with none raises its fault, or is
refused in the FAULTED state. -/
theorem rdregReadsTheRegister : Obligations.RdregReadsTheRegister := by
  intro s reg
  have hexec (hbad : 0x09 < reg) := exec_rdreg_of_invalid (Nat.not_le_of_gt hbad) s
  refine ⟨fun hvalid => exec_rdreg_reads hvalid s, fun hbad hf => ?raised, fun hbad hf => ?refused⟩
  case raised =>
    have hraise := unlessFaulted_of_none hf (raise .badRegisterIndex)
    exact ⟨_, (hexec hbad).trans (congrArg Host.Outcome.next hraise),
      preciseFault_raise .badRegisterIndex hf⟩
  case refused => exact ⟨_, hexec hbad, unlessFaulted_refuses hf _⟩

end Sys2Proof.Proofs
end

section
/-! PROOFS. The FAULTED state (spec/60_exceptions.md R196): which words are answered with a register and
which with the latched pair. -/

namespace Sys2Proof

/-- RDREG is decoded from its row (R83) alone, and its index is A (R82). -/
theorem decode_eq_rdreg_iff {w : Word} {reg : Nat} :
    decode w = .ok (.rdreg reg) ↔ (rowOf (.rdreg reg)).Fits w ∧ (aField w).toNat = reg := by
  have hrdreg (hfits : (rowOf (.rdreg reg)).Fits w) : decode w = .ok (.rdreg (aField w).toNat) := by
    obtain ⟨hop, hrsv, hd⟩ := (fits_of_free_a 0x6#4 w).mp hfits
    rw [decode, hop]
    exact checked_eq_ok.mpr ⟨by simp [hrsv, hd], rfl⟩
  constructor
  · intro h
    have hfits := fits_of_decode h
    exact ⟨hfits, Instr.rdreg.inj (Except.ok.inj ((hrdreg hfits).symm.trans h))⟩
  · rintro ⟨hfits, rfl⟩
    exact hrdreg hfits

end Sys2Proof

namespace Sys2Proof.Machine

/-- With a fault latched, every command but RDREG of an implemented index is refused (R196). -/
theorem exec_of_faulted {s : State} (hf : s.cause ≠ 0) {i : Instr}
    (hi : ∀ reg, RegIndexValid reg → i ≠ .rdreg reg) :
    exec i s = .next (respond s.cause s.detail 0 s) := by
  have hrefused (body : State → State) :
      (.next (unlessFaulted body s) : Host.Outcome State Fault Refusal) =
        .next (respond s.cause s.detail 0 s) :=
    congrArg Host.Outcome.next (unlessFaulted_of_faulted hf body)
  cases i with
  | rdreg reg => exact (exec_rdreg_of_invalid (fun hreg => hi reg hreg rfl) s).trans (hrefused _)
  | writeBits | flush | readBits | openCtx | wrreg | frameLoad => exact hrefused _

/-- A word that is not RDREG of an implemented index is refused, whether it decodes or not (R196). -/
theorem runWord_of_faulted {s : State} (hf : s.cause ≠ 0) {w : Word}
    (hw : ∀ reg, RegIndexValid reg → decode w ≠ .ok (.rdreg reg)) :
    runWord w s = .next (respond s.cause s.detail 0 s) := by
  cases hd : decode w with
  | ok i =>
    rw [runWord, hd]
    exact exec_of_faulted hf fun reg hreg hi => hw reg hreg (hi ▸ hd)
  | error e =>
    rw [runWord, hd]
    exact congrArg Host.Outcome.next (unlessFaulted_of_faulted hf _)

/-- A word that is RDREG of an implemented index is answered with the register, faulted or not (R172). -/
theorem runWord_of_rdreg {w : Word} {reg : Nat} (hd : decode w = .ok (.rdreg reg))
    (hreg : RegIndexValid reg) (s : State) :
    runWord w s = .next { s with responses := s.responses ++ [(s.regValue reg).zeroExtend 32] } := by
  have hanswer : responseWord 0 0 ((s.regValue reg).zeroExtend 24) = (s.regValue reg).zeroExtend 32 :=
    (responseWord_ok _).trans (BitVec.setWidth_setWidth (by decide))
  rw [runWord, hd, ← hanswer]
  exact exec_rdreg_of_valid hreg s

end Sys2Proof.Machine
end

section
/-! PROOFS. The statement about the FAULTED state (spec/60_exceptions.md). -/

namespace Sys2Proof.Proofs

open Sys2Proof.Machine

/-- Settles O8: the condition on the word says that it decodes to RDREG of an implemented index; such a
word runs in any state, and with a fault latched every other word is refused. -/
theorem faultedBlockRefusesAllButRdreg : Obligations.FaultedBlockRefusesAllButRdreg := by
  intro s w rest he hw hf
  rw [step_command he hw]
  split
  case isTrue hread =>
    obtain ⟨hfits, hvalid⟩ := hread
    exact runWord_of_rdreg (decode_eq_rdreg_iff.mpr ⟨hfits, rfl⟩) hvalid { s with events := rest }
  case isFalse hother =>
    refine runWord_of_faulted (s := { s with events := rest }) hf fun reg hvalid hd => hother ?_
    obtain ⟨hfits, rfl⟩ := decode_eq_rdreg_iff.mp hd
    exact ⟨hfits, hvalid⟩

end Sys2Proof.Proofs
end

section
/-! PROOFS. Reset (spec/70_reset_and_hazards.md R220, R222): what the reset actions leave, and that a
command's channels only move forward, so that a reset in mid-command finds them between its ends. -/

namespace Sys2Proof.Machine

open Sys2Proof.Safety

/-! ### Channels that have moved forward (R53 to R55) -/

/-- From `c` to `d` bytes were only appended to the stream and only consumed from the read sides. -/
def Channels.Advances (c d : Channels) : Prop :=
  c.sinkOut <+: d.sinkOut ∧ d.ech.bytes <:+ c.ech.bytes ∧ d.fch.bytes <:+ c.fch.bytes

theorem Channels.Advances.refl (c : Channels) : c.Advances c :=
  ⟨List.prefix_refl _, List.suffix_refl _, List.suffix_refl _⟩

theorem Channels.Advances.trans {c d e : Channels} (h : c.Advances d) (g : d.Advances e) :
    c.Advances e := by
  obtain ⟨hsink, hech, hfch⟩ := h
  obtain ⟨gsink, gech, gfch⟩ := g
  exact ⟨hsink.trans gsink, gech.trans hech, gfch.trans hfch⟩

/-- Appending the first bytes of what was appended stays within it. -/
theorem append_take_drop_prefix {xs ys : List Byte} (h : xs <+: ys) (k : Nat) :
    xs ++ (ys.drop xs.length).take k <+: ys := by
  obtain ⟨rest, rfl⟩ := h
  rw [List.drop_left, List.prefix_append_right_inj]
  exact List.take_prefix k rest

/-- Dropping at most as many bytes as were consumed leaves all that are left. -/
theorem suffix_drop_min {xs ys : List Byte} (h : ys <:+ xs) (k : Nat) :
    ys <:+ xs.drop (min k (xs.length - ys.length)) := by
  refine List.suffix_of_suffix_length_le h (List.drop_suffix _ xs) ?_
  have := h.length_le
  rw [List.length_drop]
  omega

/-- The channels part of the way through a command lie between its ends (R222, U15). -/
theorem Channels.Advances.partway {c d : Channels} (h : c.Advances d) (k : Nat) :
    c.Advances (c.partway k d) ∧ (c.partway k d).Advances d := by
  obtain ⟨hsink, hech, hfch⟩ := h
  exact ⟨⟨List.prefix_append .., List.drop_suffix .., List.drop_suffix ..⟩,
    append_take_drop_prefix hsink _, suffix_drop_min hech k, suffix_drop_min hfch k⟩

/-! ### What the reset actions leave (R42, R220, R222) -/

theorem regValue_resetBlock (s : State) (reg : Nat) : (resetBlock s).regValue reg = 0 :=
  regValue_reset reg

theorem planesUnspecified_resetBlock (s : State) : PlanesUnspecified (resetBlock s) :=
  planesUnspecified_reset

/-- Abandoning a command gives the reset values and no response, and the channels lie between where
the command found them and where it left them (R222). -/
theorem abandon_spec {start : Channels} {s t : State} {rest : List Event} (h : start.Advances s.chan)
    (he : s.events = rest) (ht : t = abandon start s) :
    (∀ reg, reg ≤ 0x09 → t.regValue reg = 0) ∧ t.acc = 0 ∧ PlanesUnspecified t ∧ t.waiting = none ∧
      t.responses = s.responses ∧ t.events = rest ∧
      start.sinkOut <+: t.chan.sinkOut ∧ t.chan.sinkOut <+: s.chan.sinkOut ∧
      t.chan.ech.bytes <:+ start.ech.bytes ∧ s.chan.ech.bytes <:+ t.chan.ech.bytes ∧
      t.chan.fch.bytes <:+ start.fch.bytes ∧ s.chan.fch.bytes <:+ t.chan.fch.bytes := by
  subst ht he
  obtain ⟨⟨hsink, hech, hfch⟩, gsink, gech, gfch⟩ := h.partway _
  exact ⟨fun reg _ => regValue_resetBlock _ reg, rfl, planesUnspecified_resetBlock _, rfl, rfl, rfl,
    hsink, gsink, hech, gech, hfch, gfch⟩

/-! ### The step on a reset action -/

theorem step_reset {s : State} {rest : List Event} (he : s.events = .reset :: rest) :
    step s = .next (hostReset { s with events := rest }) := by
  simp [step, nextAction, he, act]

theorem hostReset_of_not_waiting {s : State} (h : s.waiting = none) : hostReset s = resetBlock s := by
  simp [hostReset, h]

theorem hostReset_of_waiting {s : State} {start : Channels} (h : s.waiting = some start) :
    hostReset s = abandon start s := by
  simp [hostReset, h]

/-- A reset in mid-command abandons what the command came to (R222). -/
theorem step_commandReset {s u : State} {w : Word} {rest : List Event}
    (he : s.events = .commandReset w :: rest) (hw : s.waiting = none)
    (hu : runWord w { s with events := rest } = .next u) :
    step s = .next (abandon s.chan { u with responses := s.responses }) := by
  have hstep : step s = runWordThenReset w { s with events := rest } := by
    simp [step, nextAction, he, act, whenReady, hw]
  rw [hstep, runWordThenReset, hu]

/-! ### Operations only move the channels forward, and keep the plan -/

/-- From `s` to `t` the plan is kept and the channels have at most moved forward. -/
def MovesOn (s t : State) : Prop := t.events = s.events ∧ s.chan.Advances t.chan

theorem MovesOn.trans {s t u : State} (h : MovesOn s t) (g : MovesOn t u) : MovesOn s u :=
  ⟨g.1.trans h.1, h.2.trans g.2⟩

/-- An operation that is none of a channel. -/
theorem MovesOn.of_kept {s t : State} (he : t.events = s.events) (hc : t.chan = s.chan) :
    MovesOn s t := ⟨he, hc ▸ .refl _⟩

theorem MovesOn.refl (s : State) : MovesOn s s := .of_kept rfl rfl

theorem movesOn_respond (c d : BitVec 4) (v : BitVec 24) (s : State) : MovesOn s (respond c d v s) :=
  .of_kept rfl rfl

theorem movesOn_setContext (a c : Nat) (s : State) : MovesOn s (setContext a c s) := .of_kept rfl rfl

theorem movesOn_hang (start : Channels) (s : State) : MovesOn s (hang start s) := .of_kept rfl rfl

theorem movesOn_raise (k : FaultKind) (s : State) : MovesOn s (raise k s) :=
  .of_kept (by simp) (by simp)

theorem movesOn_raiseMid (k : FaultKind) (s : State) : MovesOn s (raiseMid k s) :=
  .of_kept (by simp) (by simp)

theorem PlanesOnly.movesOn {s t : State} (h : PlanesOnly s t) : MovesOn s t :=
  .of_kept (h.eq (·.events) fun _ => rfl) (h.eq (·.chan) fun _ => rfl)

theorem movesOn_pushed (bs : List Byte) (s : State) : MovesOn s (s.pushed bs) :=
  ⟨rfl, List.prefix_append .., List.suffix_refl _, List.suffix_refl _⟩

theorem movesOn_unlessFaulted {body : State → State} (h : ∀ s, MovesOn s (body s)) (s : State) :
    MovesOn s (unlessFaulted body s) := by
  unfold unlessFaulted
  split
  · exact movesOn_respond ..
  · exact h s

theorem MovesOn.andThen {s : State} {r : Flow} {f : State → Flow} (h : MovesOn s r.state)
    (hf : ∀ t, MovesOn t (f t).state) : MovesOn s (r.andThen f).state := by
  rcases r with t | t
  · exact h.trans (hf t)
  · exact h

theorem MovesOn.finish {s : State} {r : Flow} {f : State → State} (h : MovesOn s r.state)
    (hf : ∀ t, MovesOn t (f t)) : MovesOn s (r.finish f) := by
  rcases r with t | t
  · exact h.trans (hf t)
  · exact h

/-! ### The writer (R100 to R105) -/

theorem movesOn_sinkPush (start : Channels) (b : Byte) (s : State) :
    MovesOn s (sinkPush start b s).state := by
  obtain h | h | h := sinkPush_cases start b s <;> rw [h]
  · exact movesOn_pushed ..
  · exact movesOn_raiseMid ..
  · exact movesOn_hang ..

theorem movesOn_emit (start : Channels) (b : Byte) (s : State) :
    MovesOn s (emit start b s).state := by
  refine (movesOn_sinkPush start b s).andThen fun t => ?_
  split
  · exact movesOn_sinkPush ..
  · exact .refl t

theorem movesOn_drainRounds (start : Channels) (k : Nat) (s : State) :
    MovesOn s (drainRounds start k s).state := by
  induction k generalizing s with
  | zero => exact .refl s
  | succ k ih =>
    exact (movesOn_emit start (topByte s) s).andThen fun t =>
      (movesOn_setContext _ _ t).trans (ih (dropOldest 8 t))

theorem movesOn_flushHeld (start : Channels) (s : State) : MovesOn s (flushHeld start s).state := by
  unfold flushHeld
  split
  · exact movesOn_emit ..
  · exact .refl s

theorem movesOn_asWriter {body : State → State} (h : ∀ s, MovesOn s (body s)) (s : State) :
    MovesOn s (asWriter body s) := by
  unfold asWriter
  split
  · exact movesOn_raise ..
  · split
    · exact movesOn_raise ..
    · exact h s

theorem movesOn_flushBody (s : State) : MovesOn s (flushBody s) :=
  (movesOn_flushHeld s.chan s).finish fun t => (movesOn_setContext 0 0 t).trans (movesOn_respond ..)

theorem movesOn_writeBody (bits : Half) (n : Nat) (s : State) : MovesOn s (writeBody bits n s) := by
  unfold writeBody
  split
  · exact movesOn_raise ..
  · split
    · exact movesOn_respond ..
    · have happend : MovesOn s (appendBits bits n s) := movesOn_setContext ..
      exact (happend.trans (movesOn_drainRounds ..)).finish fun t => movesOn_respond ..

/-! ### The reader (R120 to R124) -/

/-- The state a pull has come to; `s` where it answers end-of-stream. -/
def Pulled.state (s : State) : Pulled → State
  | .byte _ t => t
  | .eof => s
  | .over t => t

theorem movesOn_srcPull (start : Channels) (s : State) : MovesOn s ((srcPull start s).state s) := by
  rcases hb : s.chan.ech.bytes with _ | ⟨b, bs⟩
  · rcases he : s.chan.ech.ending with _ | _ | _
    · exact srcPull_eof start hb he ▸ .refl s
    · exact srcPull_error start hb he ▸ movesOn_raiseMid ..
    · exact srcPull_silent start hb he ▸ movesOn_hang ..
  · exact srcPull_cons start hb ▸
      ⟨rfl, List.prefix_refl _, hb ▸ List.suffix_cons b bs, List.suffix_refl _⟩

theorem movesOn_discardStuffed (start : Channels) (s : State) :
    MovesOn s (discardStuffed start s).state := by
  have hpull := movesOn_srcPull start s
  unfold discardStuffed
  generalize srcPull start s = r at hpull ⊢
  rcases r with ⟨b, t⟩ | _ | t
  · exact hpull
  · exact movesOn_raiseMid ..
  · exact hpull

theorem movesOn_fillByte (start : Channels) (s : State) : MovesOn s (fillByte start s).state := by
  have hpull := movesOn_srcPull start s
  unfold fillByte
  generalize srcPull start s = r at hpull ⊢
  rcases r with ⟨b, t⟩ | _ | t
  · refine MovesOn.andThen ?_ fun u => movesOn_setContext ..
    split
    · exact hpull.trans (movesOn_discardStuffed ..)
    · exact hpull
  · exact movesOn_raiseMid ..
  · exact hpull

theorem movesOn_fillRounds (start : Channels) (k : Nat) (s : State) :
    MovesOn s (fillRounds start k s).state := by
  induction k generalizing s with
  | zero => exact .refl s
  | succ k ih => exact (movesOn_fillByte start s).andThen ih

theorem movesOn_asReader {body : State → State} (h : ∀ s, MovesOn s (body s)) (s : State) :
    MovesOn s (asReader body s) := by
  unfold asReader
  split
  · exact movesOn_raise ..
  · split
    · exact movesOn_raise ..
    · exact h s

theorem movesOn_readBody (n : Nat) (s : State) : MovesOn s (readBody n s) := by
  unfold readBody
  split
  · exact movesOn_raise ..
  · split
    · exact movesOn_raise ..
    · exact (movesOn_fillRounds ..).finish fun t =>
        (movesOn_setContext _ _ t).trans (movesOn_respond ..)

/-! ### FRAME_LOAD (R147 to R150) -/

theorem movesOn_fPull (start : Channels) (s : State) : MovesOn s ((fPull start s).state s) := by
  rcases hb : s.chan.fch.bytes with _ | ⟨b, bs⟩
  · rcases he : s.chan.fch.ending with _ | _ | _
    · exact fPull_eof start hb he ▸ .refl s
    · have hforget : MovesOn s (forgetPlanes s) := .of_kept rfl rfl
      exact fPull_error start hb he ▸ hforget.trans (movesOn_raiseMid ..)
    · exact fPull_silent start hb he ▸ movesOn_hang ..
  · exact fPull_cons start hb ▸
      ⟨rfl, List.prefix_refl _, List.suffix_refl _, hb ▸ List.suffix_cons b bs⟩

theorem movesOn_classify (i : Nat) (s : State) : MovesOn s (classify i s) := by
  unfold classify
  split
  · exact .of_kept rfl rfl
  · split <;> exact .of_kept rfl rfl

theorem movesOn_loadLoop_finish (mode : FillMode) (start : Channels) (k i : Nat) (s : State) :
    MovesOn s (loadLoop mode start k i s).finish := by
  induction k generalizing i s with
  | zero => exact movesOn_classify i s
  | succ k ih =>
    have hpull := movesOn_fPull start s
    unfold loadLoop
    generalize fPull start s = r at hpull ⊢
    rcases r with ⟨b, t⟩ | _ | t
    · exact (hpull.trans (PlanesOnly.storeByte ..).movesOn).trans (ih ..)
    · exact movesOn_classify i s
    · exact hpull

theorem movesOn_loadFrame (mode : FillMode) (s : State) : MovesOn s (loadFrame mode s) := by
  have hinvalid : MovesOn s { s with frameValid := false } := .of_kept rfl rfl
  exact (hinvalid.trans (PlanesOnly.zeroFill _).movesOn).trans (movesOn_loadLoop_finish ..)

theorem movesOn_frameLoadIn (mode : FillMode) (s : State) : MovesOn s (frameLoadIn mode s) := by
  refine movesOn_unlessFaulted (fun s => ?_) s
  split
  · exact movesOn_loadFrame ..
  · exact movesOn_raise ..

/-! ### The control commands (R170 to R172) -/

theorem movesOn_setReg (reg : Nat) (value : Half) (s : State) : MovesOn s (s.setReg reg value) :=
  .of_kept (setReg_events ..) (setReg_chan ..)

theorem exec_openCtx_movesOn (d : Dir) (s : State) :
    ∃ t, exec (.openCtx d) s = .next t ∧ MovesOn s t := by
  refine ⟨_, rfl, movesOn_unlessFaulted (fun s => ?_) s⟩
  split
  · exact movesOn_raise ..
  · exact .of_kept rfl rfl

theorem exec_wrreg_movesOn (reg : Nat) (value : Half) (s : State) :
    ∃ t, exec (.wrreg reg value) s = .next t ∧ MovesOn s t := by
  refine ⟨_, rfl, movesOn_unlessFaulted (fun s => ?_) s⟩
  split
  · exact movesOn_raise ..
  · split
    · exact movesOn_raise ..
    · exact (movesOn_setReg reg value s).trans (.of_kept rfl rfl)

theorem exec_rdreg_movesOn (reg : Nat) (s : State) :
    ∃ t, exec (.rdreg reg) s = .next t ∧ MovesOn s t := by
  by_cases h : RegIndexValid reg
  · exact ⟨_, exec_rdreg_of_valid h s, movesOn_respond ..⟩
  · exact ⟨_, exec_rdreg_of_invalid h s, movesOn_unlessFaulted (movesOn_raise _) s⟩

/-! ### A command word (R89, R108, R156) -/

/-- Every command keeps the plan, and its channels at most move forward. -/
theorem exec_movesOn (i : Instr) (s : State) : ∃ t, exec i s = .next t ∧ MovesOn s t := by
  cases i with
  | writeBits bits n =>
    exact ⟨_, rfl, movesOn_unlessFaulted (movesOn_asWriter (movesOn_writeBody bits n)) s⟩
  | flush => exact ⟨_, rfl, movesOn_unlessFaulted (movesOn_asWriter movesOn_flushBody) s⟩
  | readBits n => exact ⟨_, rfl, movesOn_unlessFaulted (movesOn_asReader (movesOn_readBody n)) s⟩
  | openCtx d => exact exec_openCtx_movesOn d s
  | wrreg reg value => exact exec_wrreg_movesOn reg value s
  | rdreg reg => exact exec_rdreg_movesOn reg s
  | frameLoad => exact ⟨_, rfl, movesOn_frameLoadIn Config.fillMode s⟩

theorem runWord_movesOn {w : Word} {s u : State} (hu : runWord w s = .next u) : MovesOn s u := by
  cases hd : decode w with
  | ok i =>
    rw [runWord, hd] at hu
    obtain ⟨t, ht, hmoves⟩ := exec_movesOn i s
    exact Host.Outcome.next.inj (ht.symm.trans hu) ▸ hmoves
  | error e =>
    rw [runWord, hd] at hu
    exact Host.Outcome.next.inj hu ▸ movesOn_unlessFaulted (movesOn_raise _) s

end Sys2Proof.Machine
end

section
/-! PROOFS. The statements about reset (spec/70_reset_and_hazards.md). -/

namespace Sys2Proof.Proofs

open Sys2Proof.Machine
open Sys2Proof.Safety

/-- Settles O54: where no command waits the step is the reset of the block on the rest of the plan. -/
theorem hostResetRestoresTheResetValues : Obligations.HostResetRestoresTheResetValues := by
  intro s rest he hw
  refine ⟨resetBlock { s with events := rest }, ?_, rfl, rfl, rfl, rfl, rfl, rfl,
    fun reg _ => regValue_resetBlock _ reg, rfl, planesUnspecified_resetBlock _, rfl, rfl, rfl, rfl,
    rfl⟩
  exact (step_reset he).trans (congrArg Host.Outcome.next (hostReset_of_not_waiting hw))

/-- Settles O55: both resets abandon the command on channels that it only moved forward, a running one
by what every command word does, a waiting one by the invariant. -/
theorem resetDuringACommandAbandonsIt : Obligations.ResetDuringACommandAbandonsIt := by
  constructor
  case left =>
    intro s u w rest he hw hu
    obtain ⟨hplan, hchan⟩ := runWord_movesOn hu
    exact ⟨_, step_commandReset he hw hu,
      abandon_spec (s := { u with responses := s.responses }) hchan hplan rfl⟩
  case right =>
    intro s start rest he hw hinv
    obtain ⟨-, hchan⟩ := hinv start hw
    have hreset : hostReset { s with events := rest } = abandon start { s with events := rest } :=
      hostReset_of_waiting hw
    exact ⟨_, (step_reset he).trans (congrArg Host.Outcome.next hreset),
      abandon_spec (s := { s with events := rest }) hchan rfl rfl⟩

end Sys2Proof.Proofs
end

section
/-! PROOFS. Encoding (spec/30_encoding.md R82, R83): the decoder on a packed word, and the word packed
from the fields a decoder has read. -/

namespace Sys2Proof

/-! ### A word is packed from its fields -/

theorem bit_dirOfBit (b : Bool) : (dirOfBit b).bit = b := by cases b <;> rfl

/-- A D field whose bits 15:1 are zero is its bit 0 (R82, format O). -/
theorem openField_of_zero {d : Half} (h : d.extractLsb' 1 15 = 0) :
    0#15 ++ BitVec.ofBool (d.getLsbD 0) = d := by
  have hbit : BitVec.ofBool (d.getLsbD 0) = d.extractLsb' 0 1 := by
    refine BitVec.eq_of_getLsbD_eq fun i hi => ?_
    obtain rfl : i = 0 := by omega
    simp
  calc 0#15 ++ BitVec.ofBool (d.getLsbD 0)
    _ = d.extractLsb' 1 15 ++ d.extractLsb' 0 1 := by rw [h, hbit]; rfl
    _ = d := BitVec.extractLsb'_append_extractLsb'

/-- A word is packed from an OP, an A and a D that are its fields, where RSV is zero (R81). -/
theorem packWord_eq {w : Word} {op : BitVec 4} {a : BitVec 5} {d : Half}
    (hop : (opField w).toNat = op.toNat) (hrsv : rsvField w = 0) (ha : aField w = a)
    (hd : dField w = d) : packWord op a d = w :=
  (eq_packWord_iff.mpr ⟨BitVec.eq_of_toNat_eq hop, hrsv, ha, hd⟩).symm

/-- A field read as a number fits, and is the field again (R82, R91). -/
theorem ofNat_aField (w : Word) :
    (aField w).toNat ≤ 31 ∧ aField w = BitVec.ofNat 5 (aField w).toNat :=
  ⟨Nat.le_of_lt_succ (aField w).isLt, (BitVec.ofNat_toNat ..).symm ▸ (BitVec.setWidth_eq _).symm⟩

end Sys2Proof
end

section
/-! PROOFS. The statements that decode and encode agree (spec/30_encoding.md). -/

namespace Sys2Proof.Proofs

open Sys2Proof.Machine
open Sys2Proof.Safety

/-- Settles O1: each command's word is packed from its OP and its operands, and the decoder reads them
back from the fields. -/
theorem decodeOfEncodeIsTheCommand : Obligations.DecodeOfEncodeIsTheCommand := by
  intro i hi
  have hfits {n : Nat} (h : decide (n ≤ 31) = true) : n % 32 = n :=
    Nat.mod_eq_of_lt (Nat.lt_succ_of_le (of_decide_eq_true h))
  cases i with
  | writeBits bits n => simp [encode, decode, checked, hfits hi]
  | flush => rfl
  | readBits n => simp [encode, decode, checked, hfits hi]
  | openCtx d => cases d <;> rfl
  | wrreg reg value => simp [encode, decode, checked, hfits hi]
  | rdreg reg => simp [encode, decode, checked, hfits hi]
  | frameLoad => rfl

/-- Settles O2: the decoder reads every field or checks that it is zero, so the word is packed again
from what it gives. -/
theorem encodeOfDecodeIsTheWord : Obligations.EncodeOfDecodeIsTheWord := by
  intro w i h
  obtain ⟨hfits, ha⟩ := ofNat_aField w
  unfold decode at h
  split at h
  case h_8 => cases h
  all_goals
    rename_i hop
    obtain ⟨hzero, rfl⟩ := checked_eq_ok.mp h
    simp only [Bool.and_eq_true, beq_iff_eq] at hzero
  case h_1 => exact ⟨decide_eq_true hfits, packWord_eq hop hzero ha rfl⟩
  case h_2 =>
    obtain ⟨⟨hrsv, ha0⟩, hd0⟩ := hzero
    exact ⟨rfl, packWord_eq hop hrsv ha0 hd0⟩
  case h_3 =>
    obtain ⟨hrsv, hd0⟩ := hzero
    exact ⟨decide_eq_true hfits, packWord_eq hop hrsv ha hd0⟩
  case h_4 =>
    obtain ⟨⟨hrsv, ha0⟩, hd0⟩ := hzero
    refine ⟨rfl, packWord_eq hop hrsv ha0 ?_⟩
    rw [bit_dirOfBit, openField_of_zero hd0]
  case h_5 => exact ⟨decide_eq_true hfits, packWord_eq hop hzero ha rfl⟩
  case h_6 =>
    obtain ⟨hrsv, hd0⟩ := hzero
    exact ⟨decide_eq_true hfits, packWord_eq hop hrsv ha hd0⟩
  case h_7 =>
    obtain ⟨⟨hrsv, ha0⟩, hd0⟩ := hzero
    exact ⟨rfl, packWord_eq hop hrsv ha0 hd0⟩

/-- Settles O4: each printed word is the word of its command, which decodes to it. -/
theorem printedWordsDecode : Obligations.PrintedWordsDecode := by
  have hdecode (i : Instr) (hi : i.fits = true) : decode (encode i) = .ok i :=
    decodeOfEncodeIsTheCommand i hi
  exact ⟨hdecode (.writeBits 5 3) rfl, hdecode .flush rfl, hdecode (.readBits 9) rfl,
    hdecode (.openCtx .read) rfl, hdecode (.wrreg 4 4) rfl, hdecode (.rdreg 1) rfl,
    hdecode .frameLoad rfl⟩

end Sys2Proof.Proofs
end

section
/-! PROOFS. The statements about one step and the register map that need no more than their
definitions (spec/10_state.md, 60_exceptions.md, 70_reset_and_hazards.md). -/

namespace Sys2Proof.Proofs

open Sys2Proof.Machine
open Sys2Proof.Safety

/-- Settles O7: no command waits, so the word that is next runs, and it decodes. -/
theorem stepRunsTheDecodedCommand : Obligations.StepRunsTheDecodedCommand := by
  have hruns {s : State} {w : Word} {rest : List Event} {i : Instr}
      (he : s.events = .command w :: rest) (hw : s.waiting = none) (hd : decode w = .ok i) :
      step s = exec i { s with events := rest } := by
    rw [step_command he hw, runWord, hd]
  refine ⟨fun s w rest i he hw hd => hruns he hw hd, fun s w i hd => ?_⟩
  have hword : BitVec.ofNat 32 (w % 2 ^ 32) = BitVec.ofNat 32 w :=
    BitVec.eq_of_toNat_eq (by simp)
  exact hruns (s := s.withFetchWord 32 w) rfl rfl (hword ▸ hd)

/-- Settles O14: the register map by its definition. -/
theorem geometryRegistersHaveTheirIndex : Obligations.GeometryRegistersHaveTheirIndex :=
  fun _ => ⟨rfl, rfl, rfl, rfl, rfl, rfl⟩

/-- Settles O57: every such action asks first whether a command waits. -/
theorem waitingCommandIsStuckUntilReset : Obligations.WaitingCommandIsStuckUntilReset := by
  intro s start hw he
  obtain he | ⟨w, rest, he⟩ | ⟨w, rest, he⟩ := he <;>
    simp [step, nextAction, he, act, whenReady, hw]

/-- Settles O58: no action is left, and no command waits. -/
theorem idleBlockStaysAsItIs : Obligations.IdleBlockStaysAsItIs := by
  intro s he hw
  simp [step, nextAction, he, whenReady, hw]

end Sys2Proof.Proofs
end

section
/-! PROOFS. The frame layout (spec/42_frame_layout.md R140 to R146): the sizes of a legal geometry, the
order of a frame's bytes, and where each of them is placed. -/

namespace Sys2Proof.Machine

open Sys2Proof.Safety

/-! ### Sizes (R140, R141, R146) -/

/-- The chroma planes hold a quarter of the samples of an even luma plane each. -/
theorem mul_div_four {w h : Nat} (hw : w % 2 = 0) (hh : h % 2 = 0) :
    w * h / 4 = w / 2 * (h / 2) ∧ w * h = 4 * (w / 2 * (h / 2)) := by
  obtain ⟨a, rfl⟩ := Nat.dvd_of_mod_eq_zero hw
  obtain ⟨b, rfl⟩ := Nat.dvd_of_mod_eq_zero hh
  have hmul : 2 * a * (2 * b) = 4 * (a * b) := by ring
  rw [hmul, Nat.mul_div_cancel_left _ (by decide), Nat.mul_div_cancel_left _ (by decide),
    Nat.mul_div_cancel_left _ (by decide)]
  exact ⟨rfl, rfl⟩

theorem sampleCount_of_legal {s : State} (hg : s.GeometryLegal) (p : PlaneId) :
    s.sampleCount p = s.logicalWidth p * s.logicalHeight p := by
  obtain ⟨⟨-, hwidth⟩, ⟨-, hheight⟩, -⟩ := hg
  cases p
  · rfl
  · exact (mul_div_four hwidth hheight).1
  · exact (mul_div_four hwidth hheight).1

/-- Every plane has a sample, and its padding does not cut it. -/
theorem logical_le_padded_of_legal {s : State} (hg : s.GeometryLegal) (p : PlaneId) :
    0 < s.logicalWidth p ∧ 0 < s.logicalHeight p ∧ s.logicalWidth p ≤ s.paddedWidth p ∧
    s.logicalHeight p ≤ s.paddedHeight p := by
  obtain ⟨⟨hwidth, -⟩, ⟨hheight, -⟩, ⟨hpadwY, hpadhY⟩, hpadwC, hpadhC⟩ := hg
  cases p <;> simp only [State.logicalWidth, State.logicalHeight, State.paddedWidth,
    State.paddedHeight] <;> omega

theorem planeSize_lt (s : State) (p : PlaneId) : s.planeSize p < 2 ^ 32 := by
  have hbound (v w : Half) : v.toNat * w.toNat < 2 ^ 32 :=
    Nat.mul_lt_mul'' (c := 2 ^ 16) (d := 2 ^ 16) v.isLt w.isLt
  cases p <;> exact hbound _ _

/-- Every plane is non-empty and fits (R146). -/
theorem sampleCount_bounds_of_legal {s : State} (hg : s.GeometryLegal) (p : PlaneId) :
    1 ≤ s.sampleCount p ∧ s.sampleCount p ≤ s.planeSize p := by
  obtain ⟨hlw, hlh, hpw, hph⟩ := logical_le_padded_of_legal hg p
  rw [sampleCount_of_legal hg]
  exact ⟨Nat.mul_pos hlw hlh, Nat.mul_le_mul hpw hph⟩

/-- A frame is its luma samples and half as many chroma samples (R140). -/
theorem two_mul_frameBytes {s : State} (hg : s.GeometryLegal) :
    2 * s.frameBytes = 3 * (s.width.toNat * s.height.toNat) := by
  obtain ⟨⟨-, hwidth⟩, ⟨-, hheight⟩, -⟩ := hg
  have hquarter := mul_div_four hwidth hheight
  simp only [State.frameBytes, State.sampleCount]
  omega

/-! ### The order of a frame's bytes (R142) -/

theorem segment_of_luma {s : State} {k : Nat} (h : k < s.sampleCount .Y) : s.segment k = (.Y, k) :=
  if_pos h

theorem segment_of_u {s : State} {k : Nat} (h : k < s.sampleCount .U) :
    s.segment (s.sampleCount .Y + k) = (.U, k) := by
  rw [State.segment, if_neg (by omega), if_pos (by omega), Nat.add_sub_cancel_left]

theorem segment_of_v (s : State) (k : Nat) :
    s.segment (s.sampleCount .Y + s.sampleCount .U + k) = (.V, k) := by
  rw [State.segment, if_neg (by omega), if_neg (by omega), Nat.add_assoc, Nat.add_sub_cancel_left,
    Nat.add_sub_cancel_left]

/-- The first byte of a plane in the stream. -/
def State.planeStart (s : State) : PlaneId → Nat
  | .Y => 0
  | .U => s.sampleCount .Y
  | .V => s.sampleCount .Y + s.sampleCount .U

/-- A byte of a frame is a sample of its plane, and its plane and sample say which byte it is. -/
theorem segment_spec {s : State} {i : Nat} (h : i < s.frameBytes) :
    (s.segment i).2 < s.sampleCount (s.segment i).1 ∧
    i = s.planeStart (s.segment i).1 + (s.segment i).2 := by
  rw [State.frameBytes] at h
  unfold State.segment
  split
  · exact ⟨by assumption, (Nat.zero_add i).symm⟩
  · split <;> simp only [State.planeStart] <;> omega

theorem segment_injective {s : State} {i j : Nat} (hi : i < s.frameBytes) (hj : j < s.frameBytes)
    (h : s.segment i = s.segment j) : i = j := by
  rw [(segment_spec hi).2, h, ← (segment_spec hj).2]

/-! ### Offsets in a plane (R143, R144) -/

/-- A strided offset gives its row and its column back. -/
theorem div_mod_of_strided {lw pw k : Nat} (hlw : 0 < lw) (hpw : lw ≤ pw) :
    (k / lw * pw + k % lw) / pw = k / lw ∧ (k / lw * pw + k % lw) % pw = k % lw := by
  have hcol : k % lw < pw := (Nat.mod_lt k hlw).trans_le hpw
  rw [Nat.mul_comm, Nat.mul_add_div (by omega), Nat.mul_add_mod, Nat.div_eq_of_lt hcol,
    Nat.mod_eq_of_lt hcol]
  exact ⟨rfl, rfl⟩

/-- Samples stand at different offsets (R145 (a)). -/
theorem offsetOf_injective {s : State} (hg : s.GeometryLegal) {mode : FillMode} {p : PlaneId}
    {j k : Nat} (h : s.offsetOf mode p j = s.offsetOf mode p k) : j = k := by
  cases mode with
  | linear => exact h
  | strided =>
    obtain ⟨hlw, -, hpw, -⟩ := logical_le_padded_of_legal hg p
    obtain ⟨hjrow, hjcol⟩ := div_mod_of_strided (k := j) hlw hpw
    obtain ⟨hkrow, hkcol⟩ := div_mod_of_strided (k := k) hlw hpw
    have hrow : j / s.logicalWidth p = k / s.logicalWidth p :=
      hjrow.symm.trans ((congrArg (· / s.paddedWidth p) h).trans hkrow)
    have hcol : j % s.logicalWidth p = k % s.logicalWidth p :=
      hjcol.symm.trans ((congrArg (· % s.paddedWidth p) h).trans hkcol)
    rw [← Nat.div_add_mod j (s.logicalWidth p), hrow, hcol, Nat.div_add_mod]

/-- Every sample of a plane stands inside it (R145 (b)). -/
theorem offsetOf_lt {s : State} (hg : s.GeometryLegal) {mode : FillMode} {p : PlaneId} {k : Nat}
    (h : k < s.sampleCount p) : s.offsetOf mode p k < s.planeSize p := by
  cases mode with
  | linear => exact h.trans_le (sampleCount_bounds_of_legal hg p).2
  | strided =>
    obtain ⟨hlw, -, hpw, hph⟩ := logical_le_padded_of_legal hg p
    rw [sampleCount_of_legal hg] at h
    have hrow : k / s.logicalWidth p < s.paddedHeight p := (Nat.div_lt_of_lt_mul h).trans_le hph
    have hcol : k % s.logicalWidth p < s.paddedWidth p := (Nat.mod_lt k hlw).trans_le hpw
    calc k / s.logicalWidth p * s.paddedWidth p + k % s.logicalWidth p
      _ < (k / s.logicalWidth p + 1) * s.paddedWidth p := by rw [Nat.succ_mul]; omega
      _ ≤ s.paddedHeight p * s.paddedWidth p := Nat.mul_le_mul_right _ hrow
      _ = s.planeSize p := Nat.mul_comm ..

/-! ### Places of a frame's bytes (R145) -/

theorem place_injective {s : State} (hg : s.GeometryLegal) {mode : FillMode} {i j : Nat}
    (hi : i < s.frameBytes) (hj : j < s.frameBytes) (h : s.place mode i = s.place mode j) : i = j := by
  obtain ⟨hplane, hoffset⟩ := Prod.mk.inj h
  rw [hplane] at hoffset
  exact segment_injective hi hj (Prod.ext hplane (offsetOf_injective hg hoffset))

theorem place_lt {s : State} (hg : s.GeometryLegal) (mode : FillMode) {i : Nat}
    (hi : i < s.frameBytes) : (s.place mode i).2 < s.planeSize (s.place mode i).1 :=
  offsetOf_lt hg (segment_spec hi).1

end Sys2Proof.Machine
end

section
/-! PROOFS. The statements about the frame layout (spec/42_frame_layout.md R140 to R146). -/

namespace Sys2Proof.Proofs

open Sys2Proof.Machine
open Sys2Proof.Safety

/-- Settles O33: each plane lies in its padding, which two 16-bit registers bound, and the chroma planes
are quarters of the luma plane. -/
theorem legalGeometryHasConsistentSizes : Obligations.LegalGeometryHasConsistentSizes := by
  intro s hg
  have hframe := two_mul_frameBytes hg
  have hluma : s.sampleCount .Y < 2 ^ 32 :=
    (sampleCount_bounds_of_legal hg .Y).2.trans_lt (planeSize_lt s .Y)
  have hleast : 2 * 2 ≤ s.sampleCount .Y := by
    obtain ⟨⟨hwidth, -⟩, ⟨hheight, -⟩, -⟩ := hg
    exact Nat.mul_le_mul hwidth hheight
  rw [State.sampleCount] at hluma hleast
  refine ⟨sampleCount_of_legal hg, hframe, by omega, fun p => ?_, by omega⟩
  obtain ⟨hpos, hfits⟩ := sampleCount_bounds_of_legal hg p
  exact ⟨hpos, hfits, planeSize_lt s p⟩

/-- Settles O34: a place names its plane and sample, and so its byte; without padding in width, and in
row 0, a strided offset is the sample's own index. -/
theorem placementIsInjectiveAndInRange : Obligations.PlacementIsInjectiveAndInRange := by
  intro s hg
  refine ⟨fun _ _ _ => place_injective hg, fun mode _ => place_lt hg mode, fun p k hp _ => ?unpadded,
    fun p k hk => ⟨rfl, ?row0⟩⟩
  case unpadded =>
    rw [State.offsetOf, State.offsetOf, hp, Nat.div_add_mod']
  case row0 =>
    rw [State.offsetOf, Nat.div_eq_of_lt hk, Nat.mod_eq_of_lt hk, Nat.zero_mul, Nat.zero_add]

/-- Settles O35: `segment` takes the bytes of each plane in turn. -/
theorem frameBytesAreInPlaneOrder : Obligations.FrameBytesAreInPlaneOrder :=
  fun s k => ⟨segment_of_luma, segment_of_u, fun _ => segment_of_v s k⟩

end Sys2Proof.Proofs
end

section
/-! PROOFS. How each command ends: one case for each way, with the state it leaves (spec/40_writer.md to
43_control.md, 60_exceptions.md). Claims about every command are derived from these cases. -/

namespace Sys2Proof.Machine

open Sys2Proof.Safety

/-! ### The states commands leave -/

/-- `s` with other held bits. -/
def State.withContext (acc : BitVec 31) (cnt : BitVec 5) (s : State) : State :=
  { s with acc := acc, cnt := cnt }

/-- `s` with other plane memories. -/
def State.withPlanes (y u v : Memory) (s : State) : State :=
  { s with planeY := y, planeU := u, planeV := v }

/-- `s` with other geometry registers. -/
def State.withGeometry (w h pwY phY pwC phC : Half) (s : State) : State :=
  { s with width := w, height := h, padwY := pwY, padhY := phY, padwC := pwC, padhC := phC }

theorem setReg_eq_withGeometry (s : State) (reg : Nat) (value : Half) :
    ∃ w h pwY phY pwC phC, s.setReg reg value = s.withGeometry w h pwY phY pwC phC := by
  unfold State.setReg
  split <;> exact ⟨_, _, _, _, _, _, rfl⟩

/-- `s` with the fault `k` latched and answered (R192). -/
def State.faultedBy (k : FaultKind) (s : State) : State :=
  respond k.code k.detail 0 { s with cause := k.code, detail := k.detail }

theorem raise_eq_faultedBy (k : FaultKind) {s : State} (h : NoFault s) :
    raise k s = s.faultedBy k := by
  rw [raise, latch, if_pos h]
  rfl

theorem raiseMid_eq_faultedBy (k : FaultKind) {s : State} (h : NoFault s) :
    raiseMid k s = (drawContext s).faultedBy k :=
  raise_eq_faultedBy k (s := drawContext s) h

theorem PlanesOnly.eq_withPlanes {s t : State} (h : PlanesOnly s t) :
    t = s.withPlanes t.planeY t.planeU t.planeV :=
  calc t
    _ = (forgetPlanes t).withPlanes t.planeY t.planeU t.planeV := rfl
    _ = (forgetPlanes s).withPlanes t.planeY t.planeU t.planeV := by rw [h]
    _ = s.withPlanes t.planeY t.planeU t.planeV := rfl

/-! ### The writer (R101 to R107) -/

/-- The writer commands that get as far as the accumulator. -/
inductive Writes : Instr → Prop where
  | bits (bits : Half) {n : Nat} (hlo : 1 ≤ n) (hhi : n ≤ 24) : Writes (.writeBits bits n)
  | flush : Writes .flush

/-- What a writer command pushes where every push is accepted (R103 to R105). -/
def writerStream (i : Instr) (s : State) : List Byte :=
  match i with
  | .writeBits bits n =>
    stuff (drained ((appendBits bits n s).cnt.toNat / 8) (appendBits bits n s))
  | .flush => if s.cnt.toNat > 0 then stuff [paddedByte s] else []
  | _ => []

/-- `s` with the bits a writer command leaves held where every push is accepted (R103, R105). -/
def writerLeft (i : Instr) (s : State) : State :=
  match i with
  | .writeBits bits n => dropRounds ((appendBits bits n s).cnt.toNat / 8) (appendBits bits n s)
  | _ => setContext 0 0 s

theorem dropRounds_appendBits_eq (j : Nat) (bits : Half) (n : Nat) (s : State) :
    ∃ a c, dropRounds j (appendBits bits n s) = s.withContext a c :=
  ⟨_, _, dropRounds_eq j (appendBits bits n s)⟩

theorem writerLeft_eq_withContext (i : Instr) (s : State) :
    ∃ a c, writerLeft i s = s.withContext a c := by
  cases i with
  | writeBits bits n => exact dropRounds_appendBits_eq ..
  | flush | readBits | openCtx | wrreg | rdreg | frameLoad => exact ⟨_, _, rfl⟩

/-- A write side accepts the next pushes, fails before their end, or falls silent before it. -/
theorem SinkPlan.cases_on_pushes (m : Nat) (p : SinkPlan) :
    acceptsNext m p = true ∨ (∃ k < m, p = .failsAfter k) ∨ (∃ k < m, p = .silentAfter k) := by
  rcases p with _ | k | k
  · exact .inl rfl
  · by_cases h : m ≤ k
    · exact .inl (decide_eq_true h)
    · exact .inr (.inl ⟨k, Nat.lt_of_not_le h, rfl⟩)
  · by_cases h : m ≤ k
    · exact .inl (decide_eq_true h)
    · exact .inr (.inr ⟨k, Nat.lt_of_not_le h, rfl⟩)

/-- WRITE_BITS of no bits changes nothing (R101). -/
theorem exec_writeBits_zero {s : State} (h : OpenIn .write s) (bits : Half) :
    exec (.writeBits bits 0) s = .next (respondOk 0 s) := by
  rw [exec_writeBits, unlessFaulted_asWriter_of_openIn h, writeBody, if_neg (Nat.not_lt_zero _),
    if_pos rfl]

/-- WRITE_BITS of more than 24 bits is refused (R101). -/
theorem exec_writeBits_too_large {s : State} (h : OpenIn .write s) (bits : Half) {n : Nat}
    (hn : 24 < n) : exec (.writeBits bits n) s = .next (raise .nTooLarge s) := by
  rw [exec_writeBits, unlessFaulted_asWriter_of_openIn h, writeBody, if_pos hn]

/-- Every push is accepted (R101, R105). -/
theorem exec_writer_accepted {i : Instr} (hi : Writes i) {s : State} (h : OpenIn .write s)
    (hp : acceptsNext (writerStream i s).length s.chan.sinkPlan = true) :
    exec i s = .next (respondOk 0 ((writerLeft i s).pushed (writerStream i s))) := by
  cases hi with
  | bits bits hlo hhi =>
    rw [exec_writeBits_of_openIn h bits hlo hhi, drain, drainRounds_ok _ _ _ hp]
    rfl
  | flush =>
    rw [exec_flush_of_openIn h, flushBody, flushHeld]
    by_cases hc : s.cnt.toNat > 0
    · rw [writerStream, if_pos hc] at hp ⊢
      rw [if_pos hc, emit_ok _ _ hp]
      rfl
    · rw [writerStream, if_neg hc, if_neg hc, State.pushed_nil]
      rfl

/-- A push answers `error` (R107): ACC and CNT become free, so what was appended does not show. -/
theorem exec_writer_error {i : Instr} (hi : Writes i) {s : State} {k : Nat} (h : OpenIn .write s)
    (hp : s.chan.sinkPlan = .failsAfter k) (hk : k < (writerStream i s).length) :
    exec i s = .next (raiseMid .echPush (s.pushed ((writerStream i s).take k))) := by
  cases hi with
  | bits bits hlo hhi =>
    rw [exec_writeBits_of_openIn h bits hlo hhi, drain,
      drainRounds_error _ _ (appendBits bits _ s) hp hk]
    rfl
  | flush =>
    by_cases hc : s.cnt.toNat > 0
    · rw [writerStream, if_pos hc] at hk ⊢
      rw [exec_flush_of_openIn h, flushBody, flushHeld, if_pos hc, emit_error _ _ hp hk]
      rfl
    · rw [writerStream, if_neg hc] at hk
      exact absurd hk (Nat.not_lt_zero k)

/-- A push is never answered (R57, R203). -/
theorem exec_writer_silent {i : Instr} (hi : Writes i) {s : State} {k : Nat} (h : OpenIn .write s)
    (hp : s.chan.sinkPlan = .silentAfter k) (hk : k < (writerStream i s).length) :
    ∃ a c, exec i s =
      .next (hang s.chan ((s.withContext a c).pushed ((writerStream i s).take k))) := by
  cases hi with
  | bits bits hlo hhi =>
    obtain ⟨j, hdrain⟩ := drainRounds_silent s.chan _ (appendBits bits _ s) hp hk
    obtain ⟨a, c, hleft⟩ := dropRounds_appendBits_eq j bits _ s
    refine ⟨a, c, ?_⟩
    rw [exec_writeBits_of_openIn h bits hlo hhi, drain, hdrain, hleft]
    rfl
  | flush =>
    by_cases hc : s.cnt.toNat > 0
    · refine ⟨s.acc, s.cnt, ?_⟩
      rw [writerStream, if_pos hc] at hk ⊢
      rw [exec_flush_of_openIn h, flushBody, flushHeld, if_pos hc, emit_silent _ _ hp hk]
      rfl
    · rw [writerStream, if_neg hc] at hk
      exact absurd hk (Nat.not_lt_zero k)

/-! ### The reader (R122 to R125) -/

/-- `s` with all bytes of ECH's read side consumed. -/
def State.echConsumed (s : State) : State := s.withEch { s.chan.ech with bytes := [] }

theorem exec_readBits_answered {s : State} {n : Nat} {data rest : List Byte} (h : OpenIn .read s)
    (hlo : 1 ≤ n) (hhi : n ≤ 24)
    (hd : takeData ((n - s.cnt.toNat + 7) / 8) s.chan.ech.bytes = some (data, rest)) :
    exec (.readBits n) s = .next (extractAndRespond n
      ((appendAll data s).withEch { s.chan.ech with bytes := rest })) := by
  rw [exec_readBits_legal h hlo hhi, fill, (fillRounds_ok s.chan _ s hd).2, appendAll_withEch]
  rfl

/-- Where the stream runs out of data bytes the command faults at its end, or waits there. -/
theorem exec_readBits_stopped {s : State} {n : Nat} (h : OpenIn .read s) (hlo : 1 ≤ n) (hhi : n ≤ 24)
    (hd : takeData ((n - s.cnt.toNat + 7) / 8) s.chan.ech.bytes = none) :
    (s.chan.ech.ending ≠ .silent ∧ ∃ k, (k = .echPull ∨ k = .eofAtData ∨ k = .eofAtStuffed) ∧
      exec (.readBits n) s = .next (raiseMid k s.echConsumed)) ∨
    (s.chan.ech.ending = .silent ∧ ∃ a c,
      exec (.readBits n) s = .next (hang s.chan (s.echConsumed.withContext a c))) := by
  obtain ⟨bs, hfill⟩ := fillRounds_short s.chan _ s hd
  rw [exec_readBits_legal h hlo hhi, fill, hfill, fillEnd, appendAll_eq]
  cases s.chan.ech.ending with
  | eof =>
    refine .inl ⟨by simp, _, ?_, rfl⟩
    split
    · exact .inr (.inr rfl)
    · exact .inr (.inl rfl)
  | error => exact .inl ⟨by simp, _, .inl rfl, rfl⟩
  | silent => exact .inr ⟨rfl, _, _, rfl⟩

/-! ### FRAME_LOAD (R149 to R155) -/

/-- `s` once a load has found a whole frame, `y`, `u` and `v` being its planes (R149, R155). -/
def loadedFrame (y u v : Memory) (s : State) : State :=
  { s with
    chan := { s.chan with fch := ⟨s.chan.fch.bytes.drop s.frameBytes, s.chan.fch.ending⟩ },
    frameValid := true, planeY := y, planeU := u, planeV := v }

theorem exec_frameLoad_loaded {s : State} (hf : NoFault s) (hg : s.GeometryLegal)
    (hlen : s.frameBytes ≤ s.chan.fch.bytes.length) :
    ∃ y u v, storedFrame (s.chan.fch.bytes.take s.frameBytes)
        ⟨s.chan.fch.bytes.drop s.frameBytes, s.chan.fch.ending⟩ s =
          (pulledFch ⟨s.chan.fch.bytes.drop s.frameBytes, s.chan.fch.ending⟩ s).withPlanes y u v ∧
      exec .frameLoad s = .next (respond 0 0 0 (loadedFrame y u v s)) := by
  have hstored := (planesOnly_storedFrame (s.chan.fch.bytes.take s.frameBytes)
    ⟨s.chan.fch.bytes.drop s.frameBytes, s.chan.fch.ending⟩ s).eq_withPlanes
  refine ⟨_, _, _, hstored, ?_⟩
  rw [exec_frameLoad_enough hf hg hlen, hstored]
  rfl

theorem exec_frameLoad_waits {s : State} (hf : NoFault s) (hg : s.GeometryLegal)
    (hlen : s.chan.fch.bytes.length < s.frameBytes) (he : s.chan.fch.ending = .silent) :
    ∃ y u v, storedFrame s.chan.fch.bytes ⟨[], s.chan.fch.ending⟩ s =
        (pulledFch ⟨[], s.chan.fch.ending⟩ s).withPlanes y u v ∧
      exec .frameLoad s =
        .next (hang s.chan ((pulledFch ⟨[], s.chan.fch.ending⟩ s).withPlanes y u v)) := by
  have hstored :=
    (planesOnly_storedFrame s.chan.fch.bytes ⟨[], s.chan.fch.ending⟩ s).eq_withPlanes
  refine ⟨_, _, _, hstored, ?_⟩
  rw [exec_frameLoad_silent hf hg hlen he, ← hstored]

/-! ### The cases -/

/-- The faults a command raises before it has changed anything (R100, R120, R121, R146, R170 to
R172). -/
def preciseFaults : Instr → List FaultKind
  | .writeBits _ _ => [.notOpen, .wrongDirection, .nTooLarge]
  | .flush => [.notOpen, .wrongDirection]
  | .readBits _ => [.notOpen, .wrongDirection, .readNZero, .nTooLarge]
  | .openCtx _ => [.unflushedBits]
  | .wrreg _ _ => [.badRegisterIndex, .readOnlyRegister]
  | .rdreg _ => [.badRegisterIndex]
  | .frameLoad => [.badDimensions]

/-- The ways a command can end from `s`, each with the state it leaves. -/
inductive Ends (s : State) : Instr → State → Prop where
  /-- Refused in the FAULTED state (R196). -/
  | refused {i : Instr} (hf : s.cause ≠ 0) : Ends s i (respond s.cause s.detail 0 s)
  /-- RDREG of a register (R172). -/
  | registerRead {reg : Nat} (hreg : RegIndexValid reg) :
      Ends s (.rdreg reg) (respond 0 0 ((s.regValue reg).zeroExtend 24) s)
  /-- A precise fault (R193). -/
  | precise {i : Instr} {k : FaultKind} (hf : NoFault s) (hk : k ∈ preciseFaults i) :
      Ends s i (s.faultedBy k)
  /-- WRITE_BITS of no bits (R101). -/
  | noBits {bits : Half} (hs : OpenIn .write s) : Ends s (.writeBits bits 0) (respond 0 0 0 s)
  /-- OPEN (R170). -/
  | contextOpened {d : Dir} (hf : NoFault s) : Ends s (.openCtx d) (respond 0 0 0 (freshContext d s))
  /-- WRREG of a geometry register (R171). -/
  | registerStored {reg : Nat} {value w h pwY phY pwC phC : Half} (hf : NoFault s)
      (hstored : s.setReg reg value = s.withGeometry w h pwY phY pwC phC) :
      Ends s (.wrreg reg value)
        (respond 0 0 0 { s.withGeometry w h pwY phY pwC phC with frameValid := false })
  /-- A writer command whose bytes are all accepted (R101, R105). -/
  | written {i : Instr} {a : BitVec 31} {c : BitVec 5} (hi : Writes i) (hs : OpenIn .write s)
      (hleft : writerLeft i s = s.withContext a c) :
      Ends s i (respond 0 0 0 ((s.withContext a c).pushed (writerStream i s)))
  /-- A writer command one of whose pushes answers `error` (R107). -/
  | pushFailed {i : Instr} {bs : List Byte} (hi : Writes i) (hs : OpenIn .write s)
      (hbs : bs <+: writerStream i s) :
      Ends s i ((drawContext (s.pushed bs)).faultedBy .echPush)
  /-- A writer command one of whose pushes is never answered (R57). -/
  | pushSilent {i : Instr} {bs : List Byte} (a : BitVec 31) (c : BitVec 5) (hi : Writes i)
      (hs : OpenIn .write s) (hbs : bs <+: writerStream i s) :
      Ends s i (hang s.chan ((s.withContext a c).pushed bs))
  /-- READ_BITS with enough bits (R124). -/
  | bitsRead {n : Nat} {data rest : List Byte} {a : BitVec 31} {c : BitVec 5} (hs : OpenIn .read s)
      (hlo : 1 ≤ n) (hhi : n ≤ 24)
      (hd : takeData ((n - s.cnt.toNat + 7) / 8) s.chan.ech.bytes = some (data, rest))
      (hleft : dropOldest n (appendAll data s) = s.withContext a c) :
      Ends s (.readBits n) (respond 0 0 (BitVec.ofNat 24 (oldestBits n (appendAll data s)))
        ((s.withContext a c).withEch { s.chan.ech with bytes := rest }))
  /-- READ_BITS that faults at the end of the stream (R125). -/
  | pullFailed {n : Nat} {k : FaultKind} (hs : OpenIn .read s) (hlo : 1 ≤ n) (hhi : n ≤ 24)
      (hd : takeData ((n - s.cnt.toNat + 7) / 8) s.chan.ech.bytes = none)
      (hk : k = .echPull ∨ k = .eofAtData ∨ k = .eofAtStuffed) :
      Ends s (.readBits n) ((drawContext s.echConsumed).faultedBy k)
  /-- READ_BITS one of whose pulls is never answered (R57). -/
  | pullSilent {n : Nat} (a : BitVec 31) (c : BitVec 5) (hs : OpenIn .read s) (hlo : 1 ≤ n)
      (hhi : n ≤ 24) (hd : takeData ((n - s.cnt.toNat + 7) / 8) s.chan.ech.bytes = none) :
      Ends s (.readBits n) (hang s.chan (s.echConsumed.withContext a c))
  /-- FRAME_LOAD of a whole frame (R155). -/
  | frameLoaded {y u v : Memory} (hf : NoFault s) (hg : s.GeometryLegal)
      (hlen : s.frameBytes ≤ s.chan.fch.bytes.length)
      (hstored : storedFrame (s.chan.fch.bytes.take s.frameBytes)
        ⟨s.chan.fch.bytes.drop s.frameBytes, s.chan.fch.ending⟩ s =
          (pulledFch ⟨s.chan.fch.bytes.drop s.frameBytes, s.chan.fch.ending⟩ s).withPlanes y u v) :
      Ends s .frameLoad (respond 0 0 0 (loadedFrame y u v s))
  /-- FRAME_LOAD at end-of-stream before a whole frame (R152, R153). -/
  | frameMissing {code : BitVec 4} (hf : NoFault s) (hg : s.GeometryLegal)
      (hlen : s.chan.fch.bytes.length < s.frameBytes) (hcode : code = 2 ∨ code = 3) :
      Ends s .frameLoad (respond code 0 0 (failedLoad s))
  /-- FRAME_LOAD one of whose pulls answers `error` (R154). -/
  | framePullFailed (hf : NoFault s) (hg : s.GeometryLegal)
      (hlen : s.chan.fch.bytes.length < s.frameBytes) :
      Ends s .frameLoad ((drawContext (failedLoad s)).faultedBy .fchPull)
  /-- FRAME_LOAD one of whose pulls is never answered (R57). -/
  | framePullSilent {y u v : Memory} (hf : NoFault s) (hg : s.GeometryLegal)
      (hlen : s.chan.fch.bytes.length < s.frameBytes)
      (hstored : storedFrame s.chan.fch.bytes ⟨[], s.chan.fch.ending⟩ s =
        (pulledFch ⟨[], s.chan.fch.ending⟩ s).withPlanes y u v) :
      Ends s .frameLoad (hang s.chan ((pulledFch ⟨[], s.chan.fch.ending⟩ s).withPlanes y u v))

/-! ### Every command ends in one of these ways -/

theorem ends_raise {i : Instr} {s t : State} {k : FaultKind} (hf : NoFault s)
    (hk : k ∈ preciseFaults i) (h : exec i s = .next (raise k s)) (ht : exec i s = .next t) :
    Ends s i t := by
  obtain rfl := Host.Outcome.next.inj (h.symm.trans ht)
  exact raise_eq_faultedBy k hf ▸ .precise hf hk

theorem ends_of_writes {i : Instr} (hi : Writes i) {s t : State} (h : OpenIn .write s)
    (ht : exec i s = .next t) : Ends s i t := by
  obtain hp | ⟨k, hk, hp⟩ | ⟨k, hk, hp⟩ := s.chan.sinkPlan.cases_on_pushes (writerStream i s).length
  · obtain rfl := Host.Outcome.next.inj ((exec_writer_accepted hi h hp).symm.trans ht)
    obtain ⟨a, c, hleft⟩ := writerLeft_eq_withContext i s
    exact hleft.symm ▸ .written hi h hleft
  · obtain rfl := Host.Outcome.next.inj ((exec_writer_error hi h hp hk).symm.trans ht)
    exact raiseMid_eq_faultedBy .echPush (s := s.pushed _) h.1 ▸
      .pushFailed hi h (List.take_prefix ..)
  · obtain ⟨a, c, hexec⟩ := exec_writer_silent hi h hp hk
    obtain rfl := Host.Outcome.next.inj (hexec.symm.trans ht)
    exact .pushSilent a c hi h (List.take_prefix ..)

/-- A writer command without an open writer raises one of two faults (R100). -/
theorem ends_of_not_writer {i : Instr} (hi : i = .flush ∨ ∃ bits n, i = .writeBits bits n)
    {s t : State} (hf : NoFault s) (hs : ¬ OpenIn .write s) (ht : exec i s = .next t) : Ends s i t := by
  obtain ⟨body, -, hexec⟩ := exec_writer hi
  have hchecked : exec i s = .next (asWriter body s) := by rw [hexec, unlessFaulted_of_none hf]
  have hlisted : FaultKind.notOpen ∈ preciseFaults i ∧ .wrongDirection ∈ preciseFaults i := by
    obtain rfl | ⟨bits, n, rfl⟩ := hi <;> simp [preciseFaults]
  cases hopened : s.opened with
  | false =>
    rw [asWriter_of_closed hopened] at hchecked
    exact ends_raise hf hlisted.1 hchecked ht
  | true =>
    cases hdir : s.dir with
    | write => exact absurd ⟨hf, hopened, hdir⟩ hs
    | read =>
      rw [asWriter_of_reader hopened hdir] at hchecked
      exact ends_raise hf hlisted.2 hchecked ht

theorem ends_of_writeBits {bits : Half} {n : Nat} {s t : State} (hf : NoFault s)
    (ht : exec (.writeBits bits n) s = .next t) : Ends s (.writeBits bits n) t := by
  by_cases hs : OpenIn .write s
  · by_cases hlarge : 24 < n
    · exact ends_raise hf (by simp [preciseFaults]) (exec_writeBits_too_large hs bits hlarge) ht
    · by_cases hzero : n = 0
      · subst hzero
        exact Host.Outcome.next.inj ((exec_writeBits_zero hs bits).symm.trans ht) ▸ .noBits hs
      · exact ends_of_writes (.bits bits (by omega) (by omega)) hs ht
  · exact ends_of_not_writer (.inr ⟨bits, n, rfl⟩) hf hs ht

theorem ends_of_flush {s t : State} (hf : NoFault s) (ht : exec .flush s = .next t) :
    Ends s .flush t := by
  by_cases hs : OpenIn .write s
  · exact ends_of_writes .flush hs ht
  · exact ends_of_not_writer (.inl rfl) hf hs ht

theorem ends_of_legal_read {n : Nat} {s t : State} (hs : OpenIn .read s) (hlo : 1 ≤ n) (hhi : n ≤ 24)
    (ht : exec (.readBits n) s = .next t) : Ends s (.readBits n) t := by
  cases hd : takeData ((n - s.cnt.toNat + 7) / 8) s.chan.ech.bytes with
  | some r =>
    obtain ⟨data, rest⟩ := r
    have hleft : dropOldest n (appendAll data s) = s.withContext (dropOldest n (appendAll data s)).acc
        (dropOldest n (appendAll data s)).cnt := by
      rw [appendAll_eq]
      rfl
    obtain rfl := Host.Outcome.next.inj ((exec_readBits_answered hs hlo hhi hd).symm.trans ht)
    have hend := Ends.bitsRead hs hlo hhi hd hleft
    rw [← hleft] at hend
    exact hend
  | none =>
    obtain ⟨-, k, hk, hexec⟩ | ⟨-, a, c, hexec⟩ := exec_readBits_stopped hs hlo hhi hd
    · obtain rfl := Host.Outcome.next.inj (hexec.symm.trans ht)
      exact raiseMid_eq_faultedBy k (s := s.echConsumed) hs.1 ▸ .pullFailed hs hlo hhi hd hk
    · obtain rfl := Host.Outcome.next.inj (hexec.symm.trans ht)
      exact .pullSilent a c hs hlo hhi hd

theorem ends_of_readBits {n : Nat} {s t : State} (hf : NoFault s)
    (ht : exec (.readBits n) s = .next t) : Ends s (.readBits n) t := by
  have hchecked : exec (.readBits n) s = .next (asReader (readBody n) s) := by
    rw [exec_readBits, unlessFaulted_of_none hf]
  cases hopened : s.opened with
  | false =>
    rw [asReader_of_closed hopened] at hchecked
    exact ends_raise hf (by simp [preciseFaults]) hchecked ht
  | true =>
    cases hdir : s.dir with
    | write =>
      rw [asReader_of_writer hopened hdir] at hchecked
      exact ends_raise hf (by simp [preciseFaults]) hchecked ht
    | read =>
      rw [asReader_of_reader hopened hdir] at hchecked
      by_cases hzero : n = 0
      · subst hzero
        rw [readBody_zero] at hchecked
        exact ends_raise hf (by simp [preciseFaults]) hchecked ht
      · by_cases hlarge : 24 < n
        · rw [readBody_too_large hlarge] at hchecked
          exact ends_raise hf (by simp [preciseFaults]) hchecked ht
        · exact ends_of_legal_read ⟨hf, hopened, hdir⟩ (by omega) (by omega) ht

theorem ends_of_openCtx {d : Dir} {s t : State} (hf : NoFault s) (ht : exec (.openCtx d) s = .next t) :
    Ends s (.openCtx d) t := by
  by_cases hheld : s.HoldsUnflushedBits
  · exact ends_raise hf (by simp [preciseFaults]) (exec_openCtx_of_unflushed hf hheld d) ht
  · obtain rfl := Host.Outcome.next.inj ((exec_openCtx_of_flushed hf hheld d).symm.trans ht)
    exact .contextOpened hf

theorem ends_of_wrreg {reg : Nat} {value : Half} {s t : State} (hf : NoFault s)
    (ht : exec (.wrreg reg value) s = .next t) : Ends s (.wrreg reg value) t := by
  by_cases hvalid : RegIndexValid reg
  · by_cases hro : RegReadOnly reg
    · exact ends_raise hf (by simp [preciseFaults]) (exec_wrreg_of_readOnly hf hro value) ht
    · have hexec := exec_wrreg_of_geometry hf (Nat.lt_of_not_le hro) hvalid value
      obtain ⟨w, h, pwY, phY, pwC, phC, hstored⟩ := setReg_eq_withGeometry s reg value
      rw [storeGeometry, hstored] at hexec
      exact Host.Outcome.next.inj (hexec.symm.trans ht) ▸ .registerStored hf hstored
  · exact ends_raise hf (by simp [preciseFaults]) (exec_wrreg_of_invalid hf hvalid value) ht

theorem ends_of_legal_load {s t : State} (hf : NoFault s) (hg : s.GeometryLegal)
    (ht : exec .frameLoad s = .next t) : Ends s .frameLoad t := by
  rcases le_or_gt s.frameBytes s.chan.fch.bytes.length with hlen | hlen
  · obtain ⟨y, u, v, hstored, hexec⟩ := exec_frameLoad_loaded hf hg hlen
    exact Host.Outcome.next.inj (hexec.symm.trans ht) ▸ .frameLoaded hf hg hlen hstored
  · cases he : s.chan.fch.ending with
    | eof =>
      obtain rfl := Host.Outcome.next.inj ((exec_frameLoad_eof hf hg hlen he).symm.trans ht)
      refine .frameMissing hf hg hlen ?_
      split
      · exact .inl rfl
      · exact .inr rfl
    | error =>
      obtain rfl := Host.Outcome.next.inj ((exec_frameLoad_error hf hg hlen he).symm.trans ht)
      exact raiseMid_eq_faultedBy .fchPull (s := failedLoad s) hf ▸ .framePullFailed hf hg hlen
    | silent =>
      obtain ⟨y, u, v, hstored, hexec⟩ := exec_frameLoad_waits hf hg hlen he
      exact Host.Outcome.next.inj (hexec.symm.trans ht) ▸ .framePullSilent hf hg hlen hstored

/-- Every command that gives a next state ends in one of the listed ways. -/
theorem ends_of_exec {i : Instr} {s t : State} (ht : exec i s = .next t) : Ends s i t := by
  by_cases hread : ∃ reg, RegIndexValid reg ∧ i = .rdreg reg
  · obtain ⟨reg, hreg, rfl⟩ := hread
    exact Host.Outcome.next.inj ((exec_rdreg_of_valid hreg s).symm.trans ht) ▸ .registerRead hreg
  have hother : ∀ reg, RegIndexValid reg → i ≠ .rdreg reg := fun reg hreg hi => hread ⟨reg, hreg, hi⟩
  by_cases hf : s.cause = 0
  · cases i with
    | writeBits bits n => exact ends_of_writeBits hf ht
    | flush => exact ends_of_flush hf ht
    | readBits n => exact ends_of_readBits hf ht
    | openCtx d => exact ends_of_openCtx hf ht
    | wrreg reg value => exact ends_of_wrreg hf ht
    | rdreg reg =>
      have hexec := exec_rdreg_of_invalid (fun hreg => hother reg hreg rfl) s
      rw [unlessFaulted_of_none hf] at hexec
      exact ends_raise hf (by simp [preciseFaults]) hexec ht
    | frameLoad =>
      by_cases hg : s.GeometryLegal
      · exact ends_of_legal_load hf hg ht
      · exact ends_raise hf (by simp [preciseFaults]) (exec_frameLoad_of_illegal hf hg) ht
  · exact Host.Outcome.next.inj ((exec_of_faulted hf hother).symm.trans ht) ▸ .refused hf

end Sys2Proof.Machine
end

section
/-! PROOFS. The entropy writer on canonical held bits (spec/40_writer.md): what it pushes and what it
leaves held. -/

namespace Sys2Proof.Machine

open Sys2Proof.Safety

/-! ### The bytes pushed and the bits left (R102 to R105) -/

theorem writerStream_writeBits {s : State} (hs : Canonical s) (bits : Half) {n : Nat} (hn : n ≤ 24) :
    writerStream (.writeBits bits n) s = stuff (writeCut s bits n).1 := by
  rw [writeCut_eq hs bits hn, writerStream]

theorem writerStream_flush {s : State} (hs : Canonical s) : writerStream .flush s = flushData s := by
  have hheld : s.cnt.toNat > 0 ↔ ¬ s.cnt = 0 := by
    rw [gt_iff_lt, Nat.pos_iff_ne_zero, ne_eq, ← BitVec.toNat_inj]
    rfl
  rw [flushData_eq hs, writerStream]
  by_cases hc : s.cnt = 0
  · rw [if_pos hc, if_neg (mt hheld.mp (not_not_intro hc))]
  · rw [if_neg hc, if_pos (hheld.mpr hc)]

/-- WRITE_BITS cuts the held bits and the new ones into bytes and leaves the rest held. -/
theorem writerLeft_writeBits_spec {s : State} (hs : Canonical s) (bits : Half) {n : Nat}
    (hn : n ≤ 24) :
    (writeCut s bits n).1.length = (s.cnt.toNat + n) / 8 ∧
    heldBits (writerLeft (.writeBits bits n) s) = (writeCut s bits n).2 ∧
    (writerLeft (.writeBits bits n) s).cnt.toNat = (s.cnt.toNat + n) % 8 ∧
    Canonical (writerLeft (.writeBits bits n) s) := by
  have hcut := writeCut_eq hs bits hn
  obtain ⟨hcnt, hacc⟩ := hs
  obtain ⟨hcntA, haccA, -⟩ := appendBits_spec (bits := bits) (n := n) hacc (by omega)
  obtain ⟨-, hlen, hcntL, haccL⟩ := drained_spec ((appendBits bits n s).cnt.toNat / 8)
    ((appendBits bits n s).cnt.toNat % 8) (appendBits bits n s) (Nat.mod_lt _ (by decide))
    (Nat.div_add_mod ..).symm (hcntA.symm ▸ haccA)
  refine ⟨?_, by rw [hcut, writerLeft], hcntA ▸ hcntL, ?_, ?_⟩
  · rw [hcut, hlen, hcntA]
  · rw [writerLeft, hcntL]
    exact Nat.le_of_lt_succ (Nat.mod_lt _ (by decide))
  · rw [writerLeft, hcntL]
    exact haccL

/-- A writer command leaves canonical held bits (R25). -/
theorem canonical_writerLeft {i : Instr} (hi : Writes i) {s : State} (hs : Canonical s) :
    Canonical (writerLeft i s) := by
  cases hi with
  | bits bits hlo hhi =>
    obtain ⟨-, -, -, hleft⟩ := writerLeft_writeBits_spec hs bits hhi
    exact hleft
  | flush => exact (by decide : (0#5).toNat ≤ 7 ∧ (0#31).toNat < 2 ^ (0#5).toNat)

/-- The stream a statement speaks of is the one the command pushes. -/
theorem writes_of_stream {i : Instr} {stream : List Byte} {s : State} (hs : Canonical s)
    (hi : (i = .flush ∧ stream = flushData s) ∨
      ∃ bits n, i = .writeBits bits n ∧ 1 ≤ n ∧ n ≤ 24 ∧ stream = stuff (writeCut s bits n).1) :
    Writes i ∧ writerStream i s = stream := by
  obtain ⟨rfl, rfl⟩ | ⟨bits, n, rfl, hlo, hhi, rfl⟩ := hi
  · exact ⟨.flush, writerStream_flush hs⟩
  · exact ⟨.bits bits hlo hhi, writerStream_writeBits hs bits hhi⟩

/-- FLUSH pushes no marker (R106 (d)). -/
theorem marker_not_mem_writerStream_flush {s : State} (hs : Canonical s) :
    0xFF#8 ∉ writerStream .flush s := by
  have hne : 0xFF#8 ≠ paddedByte s := (paddedByte_ne_marker hs.1).symm
  rw [writerStream]
  split
  · rw [stuff_singleton, if_neg hne.symm]
    exact mt List.mem_singleton.mp hne
  · exact List.not_mem_nil

/-! ### What is pushed, however a command ends (R107) -/

/-- A command pushes nothing, or it is a writer command that pushes its stream, or a part of it without
answering OK. -/
theorem Ends.pushes {s t : State} {i : Instr} (h : Ends s i t) :
    t.chan.sinkOut = s.chan.sinkOut ∨
    (Writes i ∧ t.chan.sinkOut = s.chan.sinkOut ++ writerStream i s) ∨
    (Writes i ∧ ¬ Responded 0#32 s t ∧
      ∃ bs, bs <+: writerStream i s ∧ t.chan.sinkOut = s.chan.sinkOut ++ bs) := by
  cases h with
  | written hi => exact .inr (.inl ⟨hi, rfl⟩)
  | pushFailed hi _ hbs =>
    refine .inr (.inr ⟨hi, fun ⟨hresponses, _⟩ => ?_, _, hbs, rfl⟩)
    exact absurd (List.append_cancel_left hresponses) (by decide)
  | pushSilent _ _ hi _ hbs =>
    refine .inr (.inr ⟨hi, fun ⟨hresponses, _⟩ => ?_, _, hbs, rfl⟩)
    exact List.cons_ne_nil _ _ (List.self_eq_append_right.mp hresponses)
  | _ => exact .inl rfl

/-! ### Stuffed streams (R63, R74) -/

theorem wellStuffed_append {xs ys : List Byte} (hx : wellStuffed xs = true)
    (hy : wellStuffed ys = true) : wellStuffed (xs ++ ys) = true := by
  induction xs using wellStuffed.induct with
  | case1 => exact hy
  | case2 b =>
    have hb : b ≠ 0xFF#8 := bne_iff_ne.mp hx
    cases ys with
    | nil => exact hx
    | cons c ys => simpa [wellStuffed, hb] using hy
  | case3 c rest ih =>
    simp only [wellStuffed, if_true, Bool.and_eq_true] at hx
    simpa [wellStuffed, beq_iff_eq.mp hx.1] using ih hx.2
  | case4 b c rest hb ih =>
    simp only [wellStuffed, if_neg hb] at hx
    simpa [wellStuffed, hb] using ih hx

theorem wellStuffed_stuff (data : List Byte) : wellStuffed (stuff data) = true := by
  induction data with
  | nil => rfl
  | cons b bs ih =>
    rw [stuff_cons]
    refine wellStuffed_append ?_ ih
    rw [stuff_singleton]
    split
    case isTrue hb => rw [hb]; rfl
    case isFalse hb => exact bne_iff_ne.mpr hb

theorem wellStuffed_writerStream (i : Instr) (s : State) : wellStuffed (writerStream i s) = true := by
  cases i with
  | writeBits bits n => exact wellStuffed_stuff _
  | flush =>
    rw [writerStream]
    split
    · exact wellStuffed_stuff _
    · rfl
  | readBits | openCtx | wrreg | rdreg | frameLoad => rfl

end Sys2Proof.Machine
end

section
/-! PROOFS. The statements about what the entropy writer pushes and leaves (spec/40_writer.md). -/

namespace Sys2Proof.Proofs

open Sys2Proof.Machine
open Sys2Proof.Safety

/-- Settles O18: both counts are looked at before the accumulator, and raising is precise. -/
theorem writeOfNoBitsOrTooManyMovesNothing : Obligations.WriteOfNoBitsOrTooManyMovesNothing := by
  intro s bits n hs
  constructor
  · rintro rfl
    exact ⟨_, exec_writeBits_zero hs bits, responded_respondOk 0 s, keepsFault_respond ..,
      keepsAllButFault_respond ..⟩
  · intro hn
    exact ⟨_, exec_writeBits_too_large hs bits hn, preciseFault_raise .nTooLarge hs.1⟩

/-- Settles O19: on canonical held bits the drain loop pushes the bytes of the cut and leaves its rest. -/
theorem writeAppendsBitsAndEmitsBytes : Obligations.WriteAppendsBitsAndEmitsBytes := by
  intro s bits n h hs hlo hhi hp
  rw [← writerStream_writeBits hs bits hhi] at hp ⊢
  have hexec := exec_writer_accepted (.bits bits hlo hhi) h hp
  obtain ⟨hlen, hheld, hcnt, hcanonical⟩ := writerLeft_writeBits_spec hs bits hhi
  obtain ⟨a, c, hleft⟩ := writerLeft_eq_withContext (.writeBits bits n) s
  rw [hleft] at hexec hheld hcnt hcanonical
  have hframe : WriterOnly s (respondOk 0
      ((s.withContext a c).pushed (writerStream (.writeBits bits n) s))) := rfl
  exact ⟨_, hexec, rfl, hlen, hheld, hcnt, hcanonical, ⟨rfl, rfl⟩, ⟨rfl, rfl⟩, hframe.keepsMode,
    hframe.keepsEch, hframe.keepsOutsideEntropy⟩

/-- Settles O20: the padded byte is no marker, so it is pushed alone. -/
theorem flushEmitsThePaddedByte : Obligations.FlushEmitsThePaddedByte := by
  intro s h hs hp
  rw [← writerStream_flush hs] at hp ⊢
  have hframe : WriterOnly s (respondOk 0 ((setContext 0 0 s).pushed (writerStream .flush s))) := rfl
  exact ⟨_, exec_writer_accepted .flush h hp, rfl, rfl, rfl, ⟨rfl, rfl⟩, ⟨rfl, rfl⟩,
    hframe.keepsMode, hframe.keepsEch, hframe.keepsOutsideEntropy⟩

/-- Settles O22: either command waits where its stream is cut. -/
theorem writerWaitsForASilentSink : Obligations.WriterWaitsForASilentSink := by
  intro s i stream k h hs hi hp hk
  obtain ⟨hwrites, rfl⟩ := writes_of_stream hs hi
  obtain ⟨a, c, hexec⟩ := exec_writer_silent hwrites h hp hk
  have hframe : WriterOnly s (hang s.chan
      ((s.withContext a c).pushed ((writerStream i s).take k))) := rfl
  exact ⟨_, hexec, rfl, ⟨rfl, rfl⟩, ⟨rfl, rfl⟩, hframe.keepsMode, hframe.keepsEch,
    hframe.keepsOutsideEntropy⟩

/-- Settles O23: what FLUSH pushes is a part of its stream, which is the padded byte at most. -/
theorem flushNeverPushesTheMarker : Obligations.FlushNeverPushesTheMarker := by
  intro s t hs ht
  have hmarker := marker_not_mem_writerStream_flush hs
  obtain hnone | ⟨-, hall⟩ | ⟨-, -, bs, hbs, hpart⟩ := (ends_of_exec ht).pushes
  · exact ⟨[], hnone.trans (List.append_nil _).symm, List.not_mem_nil⟩
  · exact ⟨_, hall, hmarker⟩
  · exact ⟨bs, hpart, fun hmem => hmarker (hbs.subset hmem)⟩

/-- Settles O24: a writer command that answers OK pushes nothing or a stuffed stream. -/
theorem writerKeepsTheStreamStuffed : Obligations.WriterKeepsTheStreamStuffed := by
  intro s t i _ _ hstuffed ht hok
  obtain hnone | ⟨-, hall⟩ | ⟨-, hfailed, -⟩ := (ends_of_exec ht).pushes
  · exact hnone ▸ hstuffed
  · exact hall ▸ wellStuffed_append hstuffed (wellStuffed_writerStream i s)
  · exact absurd hok hfailed

end Sys2Proof.Proofs
end

section
/-! PROOFS. What every command keeps, latches and answers, read off the ways it can end
(spec/10_state.md R31, 42_frame_layout.md R156, 60_exceptions.md R193, R194, R204). -/

namespace Sys2Proof.Machine

open Sys2Proof.Safety

/-! ### The parts a command keeps (R108, R156) -/

/-- Only FRAME_LOAD and WRREG write outside the entropy coder. -/
theorem Ends.keepsOutsideEntropy {s t : State} {i : Instr} (h : Ends s i t)
    (hload : i ≠ .frameLoad) (hstore : ∀ reg v, i ≠ .wrreg reg v) : KeepsOutsideEntropy s t := by
  cases h with
  | registerStored => exact absurd rfl (hstore _ _)
  | frameLoaded | frameMissing | framePullFailed | framePullSilent => exact absurd rfl hload
  | _ => exact ⟨⟨rfl, rfl, rfl, rfl, rfl, rfl⟩, ⟨rfl, fun _ _ => rfl⟩, rfl, rfl, rfl⟩

/-- FRAME_LOAD writes the frame part only, but for the free ACC and CNT of its ChannelError. -/
theorem Ends.keepsOutsideFrame {s t : State} (h : Ends s .frameLoad t) :
    KeepsOutsideFrame s t ∧ (KeepsHeld s t ∨ (s.cause = 0 ∧ t.cause = 1)) := by
  cases h with
  | written hi | pushFailed hi | pushSilent _ _ hi => cases hi
  | framePullFailed hf =>
    exact ⟨⟨⟨rfl, rfl⟩, ⟨rfl, rfl, rfl, rfl, rfl, rfl⟩, ⟨rfl, rfl⟩, rfl, rfl, rfl⟩,
      .inr ⟨hf, rfl⟩⟩
  | _ =>
    exact ⟨⟨⟨rfl, rfl⟩, ⟨rfl, rfl, rfl, rfl, rfl, rfl⟩, ⟨rfl, rfl⟩, rfl, rfl, rfl⟩,
      .inl ⟨rfl, rfl⟩⟩

/-! ### The latch (R191 to R194) -/

/-- A command other than the one that faults keeps the latch; a fault latches its pair. -/
theorem Ends.latch {s t : State} {i : Instr} (h : Ends s i t) :
    KeepsFault s t ∨ (NoFault s ∧ ∃ k : FaultKind, t.cause = k.code ∧ t.detail = k.detail) := by
  cases h with
  | precise hf => exact .inr ⟨hf, _, rfl, rfl⟩
  | pushFailed _ hs => exact .inr ⟨hs.1, .echPush, rfl, rfl⟩
  | pullFailed hs => exact .inr ⟨hs.1, _, rfl, rfl⟩
  | framePullFailed hf => exact .inr ⟨hf, .fchPull, rfl, rfl⟩
  | _ => exact .inl ⟨rfl, rfl⟩

/-- The precise faults of a command are ContractViolation and IllegalCommand, and pairs of its row. -/
theorem preciseFaults_listed {i : Instr} {k : FaultKind} (h : k ∈ preciseFaults i) :
    (k.code = 5 ∨ k.code = 6) ∧ (k.code.toNat, k.detail.toNat) ∈ responsePairs i := by
  revert k
  cases i <;> simp [preciseFaults, responsePairs, FaultKind.code, FaultKind.detail]

/-- What a fault in mid-operation leaves (R194): the mode, the geometry and the plan as they were, and
no frame after a FRAME_LOAD, the frame as it was after any other command. -/
def MidFaulted (i : Instr) (s t : State) : Prop :=
  (t.cause = 1 ∨ t.cause = 4) ∧ KeepsMode s t ∧ KeepsGeometry s t ∧ KeepsPlan s t ∧
  (if i = .frameLoad then t.frameValid = false ∧ PlanesUnspecified t else KeepsFrame s t)

/-- A fault of an entropy command in mid-operation has touched ACC, CNT and ECH only. -/
theorem midFaulted_of_entropy {i : Instr} {s : State} {k : FaultKind} {c : Channels}
    (hi : i ≠ .frameLoad) (hk : k.code = 1 ∨ k.code = 4) :
    MidFaulted i s ((drawContext { s with chan := c }).faultedBy k) := by
  refine ⟨hk, ⟨rfl, rfl⟩, ⟨rfl, rfl, rfl, rfl, rfl, rfl⟩, ⟨rfl, rfl⟩, ?_⟩
  rw [if_neg hi]
  exact ⟨rfl, fun _ _ => rfl⟩

/-- A command that begins with no fault latched latches none, or a precise one before it has changed
anything, or one in mid-operation. -/
theorem Ends.cause_cases {s t : State} {i : Instr} (h : Ends s i t) (hf : NoFault s) :
    t.cause = 0 ∨ (∃ k ∈ preciseFaults i, t = s.faultedBy k) ∨ MidFaulted i s t := by
  cases h with
  | precise _ hk => exact .inr (.inl ⟨_, hk, rfl⟩)
  | pushFailed hi =>
    exact .inr (.inr (midFaulted_of_entropy (by rintro rfl; cases hi) (.inl rfl)))
  | pullFailed _ _ _ _ hk =>
    refine .inr (.inr (midFaulted_of_entropy (by simp) ?_))
    obtain rfl | rfl | rfl := hk
    exacts [.inl rfl, .inr rfl, .inr rfl]
  | framePullFailed =>
    refine .inr (.inr ⟨.inl rfl, ⟨rfl, rfl⟩, ⟨rfl, rfl, rfl, rfl, rfl, rfl⟩, ⟨rfl, rfl⟩, ?_⟩)
    rw [if_pos rfl]
    exact ⟨rfl, fun p _ => by cases p <;> rfl⟩
  | _ => exact .inl hf

theorem keepsAllButFault_faultedBy (k : FaultKind) (s : State) :
    KeepsAllButFault s (s.faultedBy k) :=
  keepsAllButFault_respond k.code k.detail 0 { s with cause := k.code, detail := k.detail }

/-- A command word ends as its command does, or raises the fault of a word that does not decode (R89). -/
theorem runWord_cases {w : Word} {s t : State} (h : runWord w s = .next t) :
    (∃ i, Ends s i t) ∨ (NoFault s ∧ ∃ k, t = s.faultedBy k) := by
  cases hd : decode w with
  | ok i =>
    rw [runWord, hd] at h
    exact .inl ⟨i, ends_of_exec h⟩
  | error e =>
    rw [runWord, hd] at h
    obtain rfl := Host.Outcome.next.inj h
    by_cases hf : s.cause = 0
    · rw [unlessFaulted_of_none hf, raise_eq_faultedBy _ hf]
      exact .inr ⟨hf, _, rfl⟩
    · rw [unlessFaulted_of_faulted hf]
      exact .inl ⟨.flush, .refused hf⟩

/-! ### Responses (R84, R204) -/

theorem ok_mem_responsePairs (i : Instr) : (0, 0) ∈ responsePairs i := by
  cases i <;> simp [responsePairs]

/-- The response word of code `c`, detail `d` and value `v` has been given, and the table of R204 allows
it to the command. -/
def Answers (i : Instr) (c d : BitVec 4) (v : BitVec 24) (s t : State) : Prop :=
  Responded (responseWord c d v) s t ∧ (c.toNat, d.toNat) ∈ responsePairs i ∧
  (v ≠ 0 → c = 0 ∧ ((∃ n, i = .readBits n) ∨ ∃ reg, i = .rdreg reg))

theorem answers_of_zero {i : Instr} {c d : BitVec 4} {s t : State}
    (h : Responded (responseWord c d 0) s t) (hpair : (c.toNat, d.toNat) ∈ responsePairs i) :
    Answers i c d 0 s t :=
  ⟨h, hpair, fun hv => absurd rfl hv⟩

/-- With no fault latched a command waits or answers a word of its row. -/
theorem Ends.waits_or_answers {s t : State} {i : Instr} (h : Ends s i t) (hf : NoFault s) :
    Waits s t ∨ ∃ c d v, Answers i c d v s t := by
  cases h with
  | refused hfault => exact absurd hf hfault
  | registerRead =>
    exact .inr ⟨0, 0, _, ⟨rfl, rfl⟩, ok_mem_responsePairs _, fun _ => ⟨rfl, .inr ⟨_, rfl⟩⟩⟩
  | bitsRead =>
    exact .inr ⟨0, 0, _, ⟨rfl, rfl⟩, ok_mem_responsePairs _, fun _ => ⟨rfl, .inl ⟨_, rfl⟩⟩⟩
  | precise _ hk => exact .inr ⟨_, _, _, answers_of_zero ⟨rfl, rfl⟩ (preciseFaults_listed hk).2⟩
  | pushFailed hi =>
    refine .inr ⟨_, _, _, answers_of_zero ⟨rfl, rfl⟩ ?_⟩
    cases hi <;> simp [responsePairs, FaultKind.code, FaultKind.detail]
  | pullFailed _ _ _ _ hk =>
    refine .inr ⟨_, _, _, answers_of_zero ⟨rfl, rfl⟩ ?_⟩
    obtain rfl | rfl | rfl := hk <;> simp [responsePairs, FaultKind.code, FaultKind.detail]
  | frameMissing _ _ _ hcode =>
    refine .inr ⟨_, 0, _, answers_of_zero ⟨rfl, rfl⟩ ?_⟩
    obtain rfl | rfl := hcode <;> simp [responsePairs]
  | framePullFailed =>
    refine .inr ⟨_, _, _, answers_of_zero ⟨rfl, rfl⟩ ?_⟩
    simp [responsePairs, FaultKind.code, FaultKind.detail]
  | pushSilent | pullSilent | framePullSilent => exact .inl ⟨rfl, rfl⟩
  | noBits | contextOpened | registerStored | written | frameLoaded =>
    exact .inr ⟨0, 0, 0, answers_of_zero ⟨rfl, rfl⟩ (ok_mem_responsePairs _)⟩

/-! ### Flags (R31) -/

/-- OPENED and DIR are written by OPEN only. -/
theorem Ends.mode {s t : State} {i : Instr} (h : Ends s i t) :
    KeepsMode s t ∨ (t.opened = true ∧ i = .openCtx t.dir) := by
  cases h with
  | contextOpened => exact .inr ⟨rfl, rfl⟩
  | _ => exact .inl ⟨rfl, rfl⟩

/-- FRAME_VALID is set by a FRAME_LOAD that answers OK, and cleared by FRAME_LOAD and WRREG only. -/
theorem Ends.frameValid {s t : State} {i : Instr} (h : Ends s i t) :
    t.frameValid = s.frameValid ∨
    (t.frameValid = true ∧ i = .frameLoad ∧ Responded 0#32 s t) ∨
    (t.frameValid = false ∧ (i = .frameLoad ∨ ∃ reg v, i = .wrreg reg v)) := by
  cases h with
  | registerStored => exact .inr (.inr ⟨rfl, .inr ⟨_, _, rfl⟩⟩)
  | frameLoaded => exact .inr (.inl ⟨rfl, rfl, rfl, rfl⟩)
  | frameMissing | framePullFailed | framePullSilent => exact .inr (.inr ⟨rfl, .inl rfl⟩)
  | _ => exact .inl rfl

end Sys2Proof.Machine
end

section
/-! PROOFS. The statements about what every command keeps, latches and answers (spec/10_state.md R31,
42_frame_layout.md R156, 60_exceptions.md). -/

namespace Sys2Proof.Proofs

open Sys2Proof.Machine
open Sys2Proof.Safety

/-- Settles O42: of all the ways to end, those of FRAME_LOAD write the frame part and those of the
entropy commands the context and ECH. -/
theorem frameAndEntropyPartsShareOnlyTheLatch :
    Obligations.FrameAndEntropyPartsShareOnlyTheLatch := by
  intro s t i ht
  have hends := ends_of_exec ht
  refine ⟨fun hi => ?load, fun hi => ?entropy⟩
  case load =>
    subst hi
    exact hends.keepsOutsideFrame
  case entropy =>
    obtain rfl | ⟨bits, n, rfl⟩ | ⟨n, rfl⟩ | ⟨d, rfl⟩ := hi <;>
      exact hends.keepsOutsideEntropy (by simp) (by simp)

/-- Settles O43: CAUSE 5 and 6 are those of the precise faults, of a command or of a word that does not
decode. -/
theorem preciseFaultsChangeNothingElse : Obligations.PreciseFaultsChangeNothingElse := by
  intro w s t hf ht hcause
  have hprecise (k : FaultKind) :
      KeepsAllButFault s (s.faultedBy k) ∧ ∃ r, Responded r s (s.faultedBy k) :=
    ⟨keepsAllButFault_faultedBy k s, _, rfl, rfl⟩
  obtain ⟨i, hends⟩ | ⟨-, k, rfl⟩ := runWord_cases ht
  · obtain hnone | ⟨k, -, rfl⟩ | ⟨hmid, -⟩ := hends.cause_cases hf
    · rw [hnone] at hcause
      exact absurd hcause (by decide)
    · exact hprecise k
    · obtain hmid | hmid := hmid <;> rw [hmid] at hcause <;> exact absurd hcause (by decide)
  · exact hprecise k

/-- Settles O44: CAUSE 1 and 4 are those of the faults in mid-operation, and every command moves the
channels forward only. -/
theorem midOperationFaultsKeepTheRest : Obligations.MidOperationFaultsKeepTheRest := by
  intro i s t hf ht hcause
  have hmoved : MovesOn s t := by
    obtain ⟨u, hu, hmoves⟩ := exec_movesOn i s
    exact Host.Outcome.next.inj (hu.symm.trans ht) ▸ hmoves
  obtain ⟨hsink, hech, hfch⟩ := hmoved.2
  obtain hnone | ⟨k, hk, rfl⟩ | ⟨-, hrest⟩ := (ends_of_exec ht).cause_cases hf
  · rw [hnone] at hcause
    exact absurd hcause (by decide)
  · have hcode : k.code = 1 ∨ k.code = 4 := hcause
    obtain ⟨h | h, -⟩ := preciseFaults_listed hk <;> rw [h] at hcode <;>
      exact absurd hcode (by decide)
  · exact ⟨hsink, hech, hfch, hrest⟩

/-- Settles O45: each way to end waits, or answers a word of the command's row. -/
theorem responsesAreOfTheTable : Obligations.ResponsesAreOfTheTable := by
  intro i s t hf ht
  obtain hwaits | ⟨c, d, v, hword, hpair, hvalue⟩ := (ends_of_exec ht).waits_or_answers hf
  · exact .inl hwaits
  · refine .inr ⟨_, hword, ?_, fun hv => ?_⟩
    · rwa [codeOf_responseWord, detailOf_responseWord]
    · rw [valueOf_responseWord] at hv
      obtain ⟨rfl, hi⟩ := hvalue hv
      exact ⟨codeOf_responseWord 0 d v, hi⟩

/-- Settles O46: each flag is kept, or written by one of the ways to end that the table lists. -/
theorem flagsChangeOnlyAsListed : Obligations.FlagsChangeOnlyAsListed := by
  intro i s t ht
  have hends := ends_of_exec ht
  refine ⟨fun hne => ?opened, fun hne => ?dir, fun hf => ?faulted, fun hs ht => ?set,
    fun hs ht => ?cleared⟩
  case opened =>
    obtain ⟨hopened, -⟩ | ⟨hopened, hi⟩ := hends.mode
    exacts [absurd hopened hne, ⟨hopened, _, hi⟩]
  case dir =>
    obtain ⟨-, hdir⟩ | ⟨-, hi⟩ := hends.mode
    exacts [absurd hdir hne, hi]
  case faulted =>
    obtain ⟨hcause, -⟩ | ⟨hnone, -⟩ := hends.latch
    exacts [hcause ▸ hf, absurd hnone hf]
  case set =>
    obtain hkept | ⟨-, hloaded⟩ | ⟨hclear, -⟩ := hends.frameValid
    · exact absurd (ht.symm.trans (hkept.trans hs)) (by decide)
    · exact hloaded
    · exact absurd (ht.symm.trans hclear) (by decide)
  case cleared =>
    obtain hkept | ⟨hset, -⟩ | ⟨-, hi⟩ := hends.frameValid
    · exact absurd (hs.symm.trans (hkept.symm.trans ht)) (by decide)
    · exact absurd (hset.symm.trans ht) (by decide)
    · exact hi

end Sys2Proof.Proofs
end

section
/-! PROOFS. What one step can do, and the invariants every step keeps (spec/10_state.md section 2 to 4,
20_memory.md sections 2 and 3, 60_exceptions.md). -/

namespace Sys2Proof.Machine

open Sys2Proof.Safety

/-! ### One step (R64, R220, R232) -/

theorem whenReady_eq_next {f : State → Host.Outcome State Fault Refusal} {s t : State}
    (h : whenReady f s = .next t) : s.waiting = none ∧ f s = .next t := by
  unfold whenReady at h
  split at h
  case h_1 hw => exact ⟨hw, h⟩
  case h_2 => cases h

/-- A reset in mid-command ends in a reset (R222). -/
theorem runWordThenReset_eq_next {w : Word} {s t : State} (h : runWordThenReset w s = .next t) :
    ∃ u, t = resetBlock u := by
  unfold runWordThenReset at h
  split at h
  case h_1 => exact ⟨_, (Host.Outcome.next.inj h).symm⟩
  case h_2 | h_3 => cases h

theorem hostReset_eq_resetBlock (s : State) : ∃ u, hostReset s = resetBlock u := by
  unfold hostReset
  split
  · exact ⟨_, rfl⟩
  · exact ⟨_, rfl⟩

/-- A step is idle, runs a command word, resets the block, or is the consumer's read of a byte. -/
theorem step_cases {s t : State} (h : step s = .next t) :
    t = s ∨
    (∃ w rest, s.events = .command w :: rest ∧ s.waiting = none ∧
      runWord w { s with events := rest } = .next t) ∨
    ((s.events.head? = some .reset ∨ ∃ w, s.events.head? = some (.commandReset w)) ∧
      ∃ u, t = resetBlock u) ∨
    (∃ p off rest, s.events = .planeRead p off :: rest ∧
      t = consumerRead p off { s with events := rest }) := by
  unfold step nextAction at h
  split at h
  case h_1 =>
    obtain ⟨-, hsame⟩ := whenReady_eq_next h
    exact .inl (Host.Outcome.next.inj hsame).symm
  case h_2 e rest he =>
    cases e with
    | command w =>
      obtain ⟨hw, hrun⟩ := whenReady_eq_next h
      exact .inr (.inl ⟨w, rest, he, hw, hrun⟩)
    | commandReset w =>
      obtain ⟨-, hrun⟩ := whenReady_eq_next h
      exact .inr (.inr (.inl ⟨.inr ⟨w, by rw [he]; rfl⟩, runWordThenReset_eq_next hrun⟩))
    | reset =>
      obtain ⟨u, hu⟩ := hostReset_eq_resetBlock { s with events := rest }
      obtain rfl := Host.Outcome.next.inj h
      exact .inr (.inr (.inl ⟨.inl (by rw [he]; rfl), u, hu⟩))
    | planeRead p off =>
      exact .inr (.inr (.inr ⟨p, off, rest, he, (Host.Outcome.next.inj h).symm⟩))

/-- The consumer's read adds one byte to its record, that of a valid frame where there is one (R61). -/
theorem consumerRead_eq (p : PlaneId) (off : BitVec 32) (s : State) :
    ∃ b d, consumerRead p off s = { s with planeReads := s.planeReads ++ [b], draws := d } ∧
      ∀ v, consumerByte p off.toNat s = some v → b = v := by
  unfold consumerRead
  split
  case h_1 b hb => exact ⟨b, s.draws, rfl, fun v hv => Option.some.inj (hb.symm.trans hv)⟩
  case h_2 hb => exact ⟨_, _, rfl, fun v hv => absurd (hb.symm.trans hv) (by simp)⟩

/-- A property that does not look at the plan, the consumer's record and the counter of free values, holds
after a reset, survives a fault of decoding, and is kept by every way a command can end, is kept by
every step. -/
theorem step_keeps {P : State → Prop}
    (hbookkeeping : ∀ {s : State} (events : List Event) (reads : List Byte) (draws : Nat), P s →
      P { s with events := events, planeReads := reads, draws := draws })
    (hreset : ∀ s, P (resetBlock s))
    (hillegal : ∀ {s : State} (k : FaultKind), NoFault s → P s → P (s.faultedBy k))
    (hends : ∀ {s t : State} {i : Instr}, s.waiting = none → P s → Ends s i t → P t)
    {s t : State} (hs : P s) (ht : step s = .next t) : P t := by
  obtain rfl | ⟨w, rest, -, hw, hrun⟩ | ⟨-, u, rfl⟩ | ⟨p, off, rest, -, rfl⟩ := step_cases ht
  · exact hs
  · have hplan : P { s with events := rest } := hbookkeeping rest s.planeReads s.draws hs
    obtain ⟨i, hend⟩ | ⟨hf, k, rfl⟩ := runWord_cases hrun
    · exact hends (s := { s with events := rest }) hw hplan hend
    · exact hillegal k hf hplan
  · exact hreset u
  · obtain ⟨b, d, hread, -⟩ := consumerRead_eq p off { s with events := rest }
    exact hread ▸ hbookkeeping (s := s) rest _ d hs

/-! ### The latch (R30, R191, R200) -/

theorem runWord_keepsFault_of_faulted {w : Word} {s t : State} (hf : s.cause ≠ 0)
    (ht : runWord w s = .next t) : KeepsFault s t := by
  by_cases hread : ∃ reg, RegIndexValid reg ∧ decode w = .ok (.rdreg reg)
  · obtain ⟨reg, hreg, hd⟩ := hread
    obtain rfl := Host.Outcome.next.inj ((runWord_of_rdreg hd hreg s).symm.trans ht)
    exact ⟨rfl, rfl⟩
  · have hother : ∀ reg, RegIndexValid reg → decode w ≠ .ok (.rdreg reg) :=
      fun reg hreg hd => hread ⟨reg, hreg, hd⟩
    obtain rfl := Host.Outcome.next.inj ((runWord_of_faulted hf hother).symm.trans ht)
    exact ⟨rfl, rfl⟩

theorem faultInv_of_latched {k : FaultKind} {t : State} (hcause : t.cause = k.code)
    (hdetail : t.detail = k.detail) : FaultInv t := by
  rw [FaultInv, hcause, hdetail]
  exact List.mem_cons_of_mem _ k.pair_listed

theorem Ends.faultInv {s t : State} {i : Instr} (h : Ends s i t) (hs : FaultInv s) : FaultInv t := by
  obtain ⟨hcause, hdetail⟩ | ⟨-, k, hcause, hdetail⟩ := h.latch
  · rwa [FaultInv, hcause, hdetail]
  · exact faultInv_of_latched hcause hdetail

theorem faultInv_resetBlock (s : State) : FaultInv (resetBlock s) :=
  (by decide : (0, 0) ∈ (0, 0) :: faultPairs)

/-! ### Held bits (R24, R25) -/

/-- READ_BITS leaves what is over of the last byte it pulled (R123, R124). -/
theorem canonical_readLeft {s : State} (hs : Canonical s) {n : Nat} {data rest : List Byte}
    (hhi : n ≤ 24)
    (hd : takeData ((n - s.cnt.toNat + 7) / 8) s.chan.ech.bytes = some (data, rest)) :
    Canonical (dropOldest n (appendAll data s)) := by
  obtain ⟨hcnt, hacc⟩ := hs
  obtain ⟨hlen, -⟩ := fillRounds_ok s.chan _ s hd
  obtain ⟨hcntF, haccF, -⟩ := appendAll_spec data s hacc (by omega)
  obtain ⟨hcntL, haccL, -⟩ := dropOldest_spec (n := n) haccF (by omega)
  exact ⟨by omega, hcntL.symm ▸ haccL⟩

theorem canonical_of_empty {s : State} (hacc : s.acc = 0) (hcnt : s.cnt = 0) : Canonical s := by
  rw [Canonical, hacc, hcnt]
  decide

theorem contextInv_of_open {s : State} (ho : s.opened = true) (hs : Canonical s) :
    Canonical s ∧ (s.opened = false → s.cnt = 0) :=
  ⟨hs, fun hclosed => absurd (ho.symm.trans hclosed) (by decide)⟩

theorem Ends.contextInv {s t : State} {i : Instr} (h : Ends s i t) (hw : s.waiting = none)
    (hs : ContextInv s) : ContextInv t := by
  intro hft hwt
  cases h with
  | refused hf => exact absurd hft hf
  | precise => exact absurd hft (FaultKind.code_ne_zero _)
  | pushFailed => exact absurd hft (FaultKind.code_ne_zero .echPush)
  | pullFailed => exact absurd hft (FaultKind.code_ne_zero _)
  | framePullFailed => exact absurd hft (FaultKind.code_ne_zero .fchPull)
  | pushSilent | pullSilent | framePullSilent => exact absurd hwt (by simp [hang])
  | contextOpened => exact ⟨canonical_of_empty rfl rfl, fun _ => rfl⟩
  | written hi ho hleft =>
    obtain ⟨hf, hopened, -⟩ := ho
    obtain ⟨hcanonical, -⟩ := hs hf hw
    have hfew : Canonical (s.withContext _ _) := hleft ▸ canonical_writerLeft hi hcanonical
    exact contextInv_of_open hopened hfew
  | bitsRead ho _ hhi hd hleft =>
    obtain ⟨hf, hopened, -⟩ := ho
    obtain ⟨hcanonical, -⟩ := hs hf hw
    have hfew : Canonical (s.withContext _ _) := hleft ▸ canonical_readLeft hcanonical hhi hd
    exact contextInv_of_open hopened hfew
  | registerRead | noBits | registerStored | frameLoaded | frameMissing => exact hs hft hw

/-! ### Waiting commands (R53, R54, R203) -/

/-- A command waits only with no fault latched, and records the channels it started with. -/
theorem Ends.waiting {s t : State} {i : Instr} (h : Ends s i t) :
    t.waiting = s.waiting ∨ (t.waiting = some s.chan ∧ NoFault t) := by
  cases h with
  | pushSilent _ _ _ hs => exact .inr ⟨rfl, hs.1⟩
  | pullSilent _ _ hs => exact .inr ⟨rfl, hs.1⟩
  | framePullSilent hf => exact .inr ⟨rfl, hf⟩
  | _ => exact .inl rfl

end Sys2Proof.Machine
end

section
/-! PROOFS. The planes after a load (spec/42_frame_layout.md R148, R149, R155), and the invariants of the
planes and of a valid frame (spec/10_state.md section 4, 20_memory.md section 3). -/

namespace Sys2Proof.Machine

open Sys2Proof.Safety

/-! ### What a load stores (R148, R149, R155) -/

theorem place_storedFrame_start (rest : Source) (s : State) (mode : FillMode) (i : Nat) :
    ((zeroFill { s with frameValid := false }).withFch rest).place mode i = s.place mode i :=
  place_of_planesOnly (PlanesOnly.zeroFill { s with frameValid := false }) mode i

/-- A byte of the frame is found at its place. -/
theorem memRead_storedFrame_of_placed {s : State} (hg : s.GeometryLegal) {bytes : List Byte}
    (hlen : bytes.length ≤ s.frameBytes) (rest : Source) {i : Nat} (hi : i < bytes.length) :
    memRead (s.place Config.fillMode i).1 (s.place Config.fillMode i).2 (storedFrame bytes rest s) =
      bytes[i]? := by
  have hread := memRead_storeAll_of_placed Config.fillMode bytes 0
    ((zeroFill { s with frameValid := false }).withFch rest) (j := i) (fun j k hj hk hjk => ?_) hi
  · rw [place_storedFrame_start, Nat.zero_add] at hread
    exact hread
  · rw [place_storedFrame_start, place_storedFrame_start, Nat.zero_add, Nat.zero_add] at hjk
    exact place_injective hg (hj.trans_le hlen) (hk.trans_le hlen) hjk

/-- Where no byte is placed a load leaves the zero fill, and what was there above it. -/
theorem memRead_storedFrame_of_not_placed {s : State} {bytes : List Byte} (rest : Source)
    {p : PlaneId} {off : Nat} (h : ∀ i < bytes.length, s.place Config.fillMode i ≠ (p, off)) :
    memRead p off (storedFrame bytes rest s) =
      if off < s.planeSize p then some 0x00#8 else memRead p off s := by
  have hzero := memRead_zeroFill { s with frameValid := false } p off
  refine (memRead_storeAll_of_not_placed Config.fillMode bytes 0 _ fun j hj => ?_).trans hzero
  rw [place_storedFrame_start, Nat.zero_add]
  exact h j hj

/-- Storing bytes leaves no byte unspecified that was fixed. -/
theorem isSome_memRead_storeAll {mode : FillMode} {p : PlaneId} {off : Nat} (bytes : List Byte)
    (i : Nat) (s : State) (h : (memRead p off s).isSome = true) :
    (memRead p off (storeAll mode i bytes s)).isSome = true := by
  induction bytes generalizing i s with
  | nil => exact h
  | cons b bs ih =>
    refine ih (i + 1) (storeByte mode i b s) ?_
    by_cases hplace : (p, off) = ((s.place mode i).1, (s.place mode i).2)
    · obtain ⟨rfl, rfl⟩ := Prod.mk.inj hplace
      rw [storeByte, memRead_memWrite_same]
      rfl
    · rw [storeByte, memRead_memWrite_of_ne hplace]
      exact h

/-- The zero fill fixes every byte below SIZE(P), and so they stay (R39). -/
theorem isSome_memRead_storedFrame (bytes : List Byte) (rest : Source) {s : State} {p : PlaneId}
    {off : Nat} (h : off < s.planeSize p) :
    (memRead p off (storedFrame bytes rest s)).isSome = true := by
  refine isSome_memRead_storeAll bytes 0 _ ?_
  have hzero := memRead_zeroFill { s with frameValid := false } p off
  exact congrArg Option.isSome (hzero.trans (if_pos h))

/-! ### Canonical planes (R60) -/

theorem planesInv_iff {s : State} : PlanesInv s ↔ ∀ p, Memory.wf (s.plane p) = true := by
  constructor
  · rintro ⟨hy, hu, hv⟩ p
    cases p
    exacts [hy, hu, hv]
  · exact fun h => ⟨h .Y, h .U, h .V⟩

theorem plane_zeroFill (s : State) (p : PlaneId) :
    (zeroFill s).plane p = Memory.zeroBelow (s.planeSize p) (s.plane p) := by
  cases p <;> rfl

theorem planesInv_zeroFill {s : State} (h : PlanesInv s) : PlanesInv (zeroFill s) :=
  planesInv_iff.mpr fun p =>
    plane_zeroFill s p ▸ Memory.wf_zeroBelow (planesInv_iff.mp h p) (planeSize_lt s p).le

theorem planesInv_memWrite {s : State} {p : PlaneId} {off : Nat} (b : Byte) (h : PlanesInv s)
    (hoff : off < 2 ^ 32) : PlanesInv (memWrite p off b s) := by
  rw [planesInv_iff] at h ⊢
  intro q
  by_cases hq : q = p
  · subst hq
    rw [memWrite, plane_setPlane]
    exact Memory.wf_write b (h q) hoff
  · rw [memWrite, plane_setPlane_of_ne hq]
    exact h q

theorem planesInv_storeAll {mode : FillMode} (bytes : List Byte) (i : Nat) (s : State)
    (h : PlanesInv s) (hplace : ∀ j < bytes.length, (s.place mode (i + j)).2 < 2 ^ 32) :
    PlanesInv (storeAll mode i bytes s) := by
  induction bytes generalizing i s with
  | nil => exact h
  | cons b bs ih =>
    refine ih (i + 1) _ (planesInv_memWrite b h (hplace 0 (Nat.succ_pos _))) fun j hj => ?_
    rw [place_of_planesOnly (PlanesOnly.storeByte mode i b s), Nat.add_right_comm]
    exact hplace (j + 1) (Nat.succ_lt_succ hj)

/-- A load under a legal geometry places every byte inside its plane (R145 (b)). -/
theorem planesInv_storedFrame {s : State} (hg : s.GeometryLegal) (h : PlanesInv s)
    {bytes : List Byte} (hlen : bytes.length ≤ s.frameBytes) (rest : Source) :
    PlanesInv (storedFrame bytes rest s) := by
  have hzero : PlanesInv (zeroFill { s with frameValid := false }) := planesInv_zeroFill h
  refine planesInv_storeAll bytes 0 _ hzero fun j hj => ?_
  rw [place_storedFrame_start, Nat.zero_add]
  exact (place_lt hg _ (hj.trans_le hlen)).trans (planeSize_lt s _)

/-! ### The frame part, however a command ends (R39, R151, R156) -/

/-- The planes of `t` are those of a load that has stored at most a frame from `s`. -/
def LoadsPlanes (s t : State) : Prop :=
  ∃ bytes rest, bytes.length ≤ s.frameBytes ∧ ∀ p, t.plane p = (storedFrame bytes rest s).plane p

/-- The frame part is kept; or FRAME_VALID is 0 and the planes are kept, or unspecified; or a load has
stored bytes under a legal geometry. -/
theorem Ends.frame_cases {s t : State} {i : Instr} (h : Ends s i t) :
    (KeepsGeometry s t ∧ t.frameValid = s.frameValid ∧ ∀ p, t.plane p = s.plane p) ∨
    (t.frameValid = false ∧ ((∀ p, t.plane p = s.plane p) ∨ ∀ p, t.plane p = [])) ∨
    (s.GeometryLegal ∧ KeepsGeometry s t ∧ LoadsPlanes s t) := by
  cases h with
  | registerStored => exact .inr (.inl ⟨rfl, .inl fun _ => rfl⟩)
  | frameMissing | framePullFailed =>
    exact .inr (.inl ⟨rfl, .inr fun p => by cases p <;> rfl⟩)
  | frameLoaded _ hg hlen hstored =>
    exact .inr (.inr ⟨hg, ⟨rfl, rfl, rfl, rfl, rfl, rfl⟩, _, _, List.length_take_le ..,
      fun p => (congrArg (State.plane · p) hstored).symm⟩)
  | framePullSilent _ hg hlen hstored =>
    exact .inr (.inr ⟨hg, ⟨rfl, rfl, rfl, rfl, rfl, rfl⟩, _, _, hlen.le,
      fun p => (congrArg (State.plane · p) hstored).symm⟩)
  | _ => exact .inl ⟨⟨rfl, rfl, rfl, rfl, rfl, rfl⟩, rfl, fun _ => rfl⟩

theorem Ends.planesInv {s t : State} {i : Instr} (h : Ends s i t) (hs : PlanesInv s) :
    PlanesInv t := by
  have hkept (hp : ∀ p, t.plane p = s.plane p) : PlanesInv t :=
    planesInv_iff.mpr fun p => hp p ▸ planesInv_iff.mp hs p
  obtain ⟨-, -, hp⟩ | ⟨-, hp | hp⟩ | ⟨hg, -, bytes, rest, hlen, hp⟩ := h.frame_cases
  · exact hkept hp
  · exact hkept hp
  · exact planesInv_iff.mpr fun p => hp p ▸ Memory.wf_nil
  · exact planesInv_iff.mpr fun p =>
      hp p ▸ planesInv_iff.mp (planesInv_storedFrame hg hs hlen rest) p

theorem planeSize_of_keepsGeometry {s t : State} (h : KeepsGeometry s t) (p : PlaneId) :
    t.planeSize p = s.planeSize p := by
  obtain ⟨-, -, hpadwY, hpadhY, hpadwC, hpadhC⟩ := h
  cases p <;> simp only [State.planeSize, State.paddedWidth, State.paddedHeight, hpadwY, hpadhY,
    hpadwC, hpadhC]

theorem geometryLegal_of_keepsGeometry {s t : State} (h : KeepsGeometry s t) (hs : s.GeometryLegal) :
    t.GeometryLegal := by
  obtain ⟨hwidth, hheight, hpadwY, hpadhY, hpadwC, hpadhC⟩ := h
  rwa [State.GeometryLegal, hwidth, hheight, hpadwY, hpadhY, hpadwC, hpadhC]

theorem frameInv_of_invalid {s : State} (h : s.frameValid = false) : FrameInv s :=
  fun hv => absurd (h.symm.trans hv) (by decide)

theorem frameInv_of_kept {s t : State} (h : FrameInv s) (hg : KeepsGeometry s t)
    (hv : t.frameValid = s.frameValid) (hp : KeepsPlanes s t) : FrameInv t := by
  intro hvalid
  obtain ⟨hlegal, hfixed⟩ := h (hv.symm.trans hvalid)
  refine ⟨geometryLegal_of_keepsGeometry hg hlegal, fun p off hoff => ?_⟩
  rw [hp p off]
  exact hfixed p off (planeSize_of_keepsGeometry hg p ▸ hoff)

theorem Ends.frameInv {s t : State} {i : Instr} (h : Ends s i t) (hs : FrameInv s) : FrameInv t := by
  obtain ⟨hg, hv, hp⟩ | ⟨hv, -⟩ | ⟨hlegal, hg, bytes, rest, -, hp⟩ := h.frame_cases
  · exact frameInv_of_kept hs hg hv fun p off => congrArg (Memory.read off) (hp p)
  · exact frameInv_of_invalid hv
  · refine fun _ => ⟨geometryLegal_of_keepsGeometry hg hlegal, fun p off hoff => ?_⟩
    rw [memRead, hp p]
    exact isSome_memRead_storedFrame bytes rest (planeSize_of_keepsGeometry hg p ▸ hoff)

/-! ### The invariants after reset (R42) -/

theorem contextInv_resetBlock (s : State) : ContextInv (resetBlock s) :=
  fun _ _ => ⟨canonical_of_empty rfl rfl, fun _ => rfl⟩

theorem planesInv_resetBlock (s : State) : PlanesInv (resetBlock s) :=
  ⟨Memory.wf_nil, Memory.wf_nil, Memory.wf_nil⟩

theorem frameInv_resetBlock (s : State) : FrameInv (resetBlock s) := frameInv_of_invalid rfl

theorem waitingInv_of_not_waiting {s : State} (h : s.waiting = none) : WaitingInv s :=
  fun _ hw => absurd (h.symm.trans hw) (by simp)

theorem Ends.waitingInv {s t : State} {i : Instr} (h : Ends s i t) (hw : s.waiting = none)
    (hmoves : s.chan.Advances t.chan) : WaitingInv t := by
  intro start hstart
  obtain hkept | ⟨hwaits, hf⟩ := h.waiting
  · exact waitingInv_of_not_waiting (hkept.trans hw) start hstart
  · obtain rfl := Option.some.inj (hwaits.symm.trans hstart)
    exact ⟨hf, hmoves⟩

end Sys2Proof.Machine
end

section
/-! PROOFS. The statements about FRAME_LOAD of a whole frame and on a silent channel, and about the
consumer (spec/42_frame_layout.md R155, 20_memory.md). -/

namespace Sys2Proof.Proofs

open Sys2Proof.Machine
open Sys2Proof.Safety

/-- Settles O37: places are different and inside their planes, so each byte is found at its own, and
elsewhere the zero fill below SIZE(P) or what was there. -/
theorem frameLoadStoresTheFrame : Obligations.FrameLoadStoresTheFrame := by
  intro s hf hg hlen
  obtain ⟨y, u, v, hstored, hexec⟩ := exec_frameLoad_loaded hf hg hlen
  have htaken : (s.chan.fch.bytes.take s.frameBytes).length = s.frameBytes :=
    List.length_take_of_le hlen
  have hread (p : PlaneId) (off : Nat) : memRead p off (respond 0 0 0 (loadedFrame y u v s)) =
      memRead p off (storedFrame (s.chan.fch.bytes.take s.frameBytes)
        ⟨s.chan.fch.bytes.drop s.frameBytes, s.chan.fch.ending⟩ s) := by
    rw [hstored]
    rfl
  refine ⟨_, hexec, rfl, rfl, fun i hi => ?placed, fun p off hoff hfree => ?zero,
    fun p off hoff => ?above, ⟨rfl, rfl⟩, ⟨rfl, rfl⟩, ⟨rfl, rfl⟩, ⟨rfl, rfl⟩,
    ⟨rfl, rfl, rfl, rfl, rfl, rfl⟩, ⟨rfl, rfl⟩, rfl, rfl, rfl⟩
  case placed =>
    rw [hread, memRead_storedFrame_of_placed hg htaken.le _ (htaken.symm ▸ hi),
      List.getElem?_take_of_lt hi]
  case zero =>
    rw [hread, memRead_storedFrame_of_not_placed _ fun i hi => hfree i (htaken ▸ hi), if_pos hoff]
  case above =>
    have hfree (i : Nat) (hi : i < s.frameBytes) : s.place Config.fillMode i ≠ (p, off) := by
      intro hplace
      have hlt := place_lt hg Config.fillMode hi
      rw [hplace] at hlt
      exact absurd hlt (Nat.not_lt_of_ge hoff)
    rw [hread, memRead_storedFrame_of_not_placed _ fun i hi => hfree i (htaken ▸ hi),
      if_neg (Nat.not_lt_of_ge hoff)]

/-- Settles O41: the load has pulled and stored all bytes there are, and nothing else has changed. -/
theorem frameLoadWaitsForASilentChannel : Obligations.FrameLoadWaitsForASilentChannel := by
  intro s hf hg hlen he
  obtain ⟨y, u, v, -, hexec⟩ := exec_frameLoad_waits hf hg hlen he
  rw [he] at hexec
  exact ⟨_, hexec, rfl, rfl, ⟨rfl, rfl⟩, ⟨rfl, rfl⟩, ⟨rfl, rfl⟩, ⟨rfl, rfl⟩,
    ⟨rfl, rfl, rfl, rfl, rfl, rfl⟩, ⟨rfl, rfl⟩, rfl, rfl, rfl⟩

/-- Settles O56: the read adds the byte to the record, and nothing else but a draw. -/
theorem consumerReadsTheValidFrame : Obligations.ConsumerReadsTheValidFrame := by
  intro s p off rest he
  obtain ⟨b, d, hread, hbyte⟩ := consumerRead_eq p off { s with events := rest }
  have hstep : step s = .next (consumerRead p off { s with events := rest }) := by
    simp [step, nextAction, he, act]
  rw [hread] at hstep
  refine ⟨_, b, hstep, rfl, rfl, fun hvalid hoff v hv => hbyte v ?_, ⟨rfl, rfl⟩, ⟨rfl, rfl⟩,
    ⟨rfl, rfl⟩, ⟨rfl, rfl, rfl, rfl, rfl, rfl⟩, ⟨rfl, fun _ _ => rfl⟩, rfl, rfl, rfl⟩
  exact (if_pos ⟨hvalid, hoff⟩).trans hv

end Sys2Proof.Proofs
end

section
/-! PROOFS. The statements that every step keeps the invariants, and the latch until a reset. -/

namespace Sys2Proof.Proofs

open Sys2Proof.Machine
open Sys2Proof.Safety

/-- Settles O47: a command that ends with no fault and does not wait leaves less than a byte held. -/
theorem stepKeepsHeldBitsFew : Obligations.StepKeepsHeldBitsFew := by
  intro s t hs ht
  exact step_keeps (P := ContextInv) (fun _ _ _ h => h) contextInv_resetBlock
    (fun k _ _ hft => absurd hft k.code_ne_zero) (fun hw h hends => hends.contextInv hw h) hs ht

/-- Settles O49: a load stores below SIZE(P), which two 16-bit registers bound, and nothing else writes a
plane but to make it unspecified. -/
theorem stepKeepsPlanesCanonical : Obligations.StepKeepsPlanesCanonical := by
  intro s t hs ht
  exact step_keeps (P := PlanesInv) (fun _ _ _ h => h) planesInv_resetBlock (fun _ _ h => h)
    (fun _ h hends => hends.planesInv h) hs ht

/-- Settles O50: FRAME_VALID is set after a zero fill of every plane under a legal geometry, and cleared
with every write of a geometry register. -/
theorem stepKeepsValidFramesComplete : Obligations.StepKeepsValidFramesComplete := by
  intro s t hs ht
  exact step_keeps (P := FrameInv) (fun _ _ _ h => h) frameInv_resetBlock (fun _ _ h => h)
    (fun _ h hends => hends.frameInv h) hs ht

/-- Settles O48: the latch is kept, or latches the pair of a fault, or is reset. -/
theorem stepKeepsFaultPairsListed : Obligations.StepKeepsFaultPairsListed := by
  intro s t hs ht
  exact step_keeps (P := FaultInv) (fun _ _ _ h => h) faultInv_resetBlock
    (fun _ _ _ => faultInv_of_latched rfl rfl) (fun _ h hends => hends.faultInv h) hs ht

/-- Settles O51: a command that comes to wait latched no fault and moved its channels forward only. -/
theorem stepKeepsWaitingCommandsSound : Obligations.StepKeepsWaitingCommandsSound := by
  intro s t hs ht
  obtain rfl | ⟨w, rest, -, hw, hrun⟩ | ⟨-, u, rfl⟩ | ⟨p, off, rest, -, rfl⟩ := step_cases ht
  · exact hs
  · obtain ⟨-, hmoves⟩ := runWord_movesOn hrun
    obtain ⟨i, hends⟩ | ⟨-, k, rfl⟩ := runWord_cases hrun
    · exact hends.waitingInv hw hmoves
    · exact waitingInv_of_not_waiting hw
  · exact waitingInv_of_not_waiting rfl
  · obtain ⟨b, d, hread, -⟩ := consumerRead_eq p off { s with events := rest }
    exact hread ▸ hs

/-- Settles O52: `State.reset` is what a reset makes of it. -/
theorem invariantsHoldAtReset : Obligations.InvariantsHoldAtReset :=
  ⟨contextInv_resetBlock State.reset, faultInv_resetBlock State.reset,
    planesInv_resetBlock State.reset, frameInv_resetBlock State.reset, waitingInv_of_not_waiting rfl⟩

/-- Settles O9: a word that runs with a fault latched is refused or reads a register, and a consumer's
read touches no latch. -/
theorem faultLatchKeptUntilReset : Obligations.FaultLatchKeptUntilReset := by
  intro s t hf ht hreset hcommandReset
  obtain rfl | ⟨w, rest, -, -, hrun⟩ | ⟨hhead | ⟨w, hhead⟩, -⟩ | ⟨p, off, rest, -, rfl⟩ :=
    step_cases ht
  · exact ⟨rfl, rfl⟩
  · exact runWord_keepsFault_of_faulted (s := { s with events := rest }) hf hrun
  · exact absurd hhead hreset
  · exact absurd hhead (hcommandReset w)
  · obtain ⟨b, d, hread, -⟩ := consumerRead_eq p off { s with events := rest }
    rw [hread]
    exact ⟨rfl, rfl⟩

end Sys2Proof.Proofs
end

section
/-! PROOFS. Silent channels, discarded bytes and bounds of the entropy commands (spec/41_reader.md
section 2, 40_writer.md section 4, 70_reset_and_hazards.md). -/

namespace Sys2Proof.Machine

open Sys2Proof.Safety

/-! ### The reader looks at the channels it started with only to record them (R57, R203) -/

/-- A part of a command that does not depend on the channels the command started with, but where it
waits. -/
def StartBlind (f : Channels → Flow) : Prop :=
  (∃ r, ∀ start, f start = r) ∨ ∃ u, ∀ start, f start = .over (hang start u)

theorem StartBlind.of_eq {f : Channels → Flow} {r : Flow} (h : ∀ start, f start = r) : StartBlind f :=
  .inl ⟨r, h⟩

theorem StartBlind.andThen {f : Channels → Flow} {g : Channels → State → Flow} (hf : StartBlind f)
    (hg : ∀ s, StartBlind (g · s)) : StartBlind fun start => (f start).andThen (g start) := by
  obtain ⟨r, hr⟩ | ⟨u, hu⟩ := hf
  · obtain rfl : f = fun _ => r := funext hr
    rcases r with s | s
    · exact hg s
    · exact .of_eq fun _ => rfl
  · exact .inr ⟨u, fun start => congrArg (Flow.andThen · (g start)) (hu start)⟩

/-- `s` without its record of a waiting command. -/
def forgetWaiting (s : State) : State := { s with waiting := none }

/-- A command that ends with such a part leaves the same state whatever it started with, the record of
its waiting apart. -/
theorem StartBlind.finish_eq {f : Channels → Flow} (hf : StartBlind f) (c d : Channels)
    (g : State → State) : forgetWaiting ((f c).finish g) = forgetWaiting ((f d).finish g) := by
  obtain ⟨r, hr⟩ | ⟨u, hu⟩ := hf
  · rw [hr, hr]
  · rw [hu, hu]
    rfl

theorem srcPull_start (s : State) :
    (∃ r, ∀ start, srcPull start s = r) ∨ ∀ start, srcPull start s = .over (hang start s) := by
  rcases hb : s.chan.ech.bytes with _ | ⟨b, bs⟩
  · rcases he : s.chan.ech.ending with _ | _ | _
    · exact .inl ⟨_, fun start => srcPull_eof start hb he⟩
    · exact .inl ⟨_, fun start => srcPull_error start hb he⟩
    · exact .inr fun start => srcPull_silent start hb he
  · exact .inl ⟨_, fun start => srcPull_cons start hb⟩

theorem startBlind_discardStuffed (s : State) : StartBlind (discardStuffed · s) := by
  obtain ⟨r, hr⟩ | hu := srcPull_start s
  · simp only [discardStuffed, hr]
    exact .of_eq fun _ => rfl
  · simp only [discardStuffed, hu]
    exact .inr ⟨s, fun _ => rfl⟩

theorem startBlind_fillByte (s : State) : StartBlind (fillByte · s) := by
  obtain ⟨r, hr⟩ | hu := srcPull_start s
  · simp only [fillByte, hr]
    rcases r with ⟨b, t⟩ | _ | t
    · refine .andThen (g := fun _ u => .cont (appendByte b u)) ?_ fun u => .of_eq fun _ => rfl
      by_cases hb : b = Config.marker
      · simpa only [if_pos hb] using startBlind_discardStuffed t
      · exact .of_eq fun _ => if_neg hb
    · exact .of_eq fun _ => rfl
    · exact .of_eq fun _ => rfl
  · simp only [fillByte, hu]
    exact .inr ⟨s, fun _ => rfl⟩

theorem startBlind_fillRounds (k : Nat) (s : State) : StartBlind (fillRounds · k s) := by
  induction k generalizing s with
  | zero => exact .of_eq fun _ => rfl
  | succ k ih => exact (startBlind_fillByte s).andThen ih

/-! ### How many bytes the reader pulls (R123, R236) -/

/-- `k` data bytes are at most `2 k` bytes of the stream. -/
theorem takeData_some_length {k : Nat} {stream data rest : List Byte}
    (h : takeData k stream = some (data, rest)) :
    ∃ pulled, stream = pulled ++ rest ∧ pulled.length ≤ 2 * k := by
  induction k generalizing stream data with
  | zero =>
    obtain ⟨rfl, rfl⟩ := Prod.mk.inj (Option.some.inj h)
    exact ⟨[], rfl, Nat.le_refl 0⟩
  | succ k ih =>
    rcases stream with _ | ⟨b, bs⟩
    · cases h
    · simp only [takeData] at h
      split at h
      · rcases bs with _ | ⟨c, bs⟩
        · cases h
        · obtain ⟨⟨_, _⟩, hr, he⟩ := Option.map_eq_some_iff.mp h
          cases he
          obtain ⟨pulled, rfl, hlen⟩ := ih hr
          exact ⟨b :: c :: pulled, rfl, by simp only [List.length_cons]; omega⟩
      · obtain ⟨⟨_, _⟩, hr, he⟩ := Option.map_eq_some_iff.mp h
        cases he
        obtain ⟨pulled, rfl, hlen⟩ := ih hr
        exact ⟨b :: pulled, rfl, by simp only [List.length_cons]; omega⟩

/-- A stream without `k` data bytes has fewer than `2 k` bytes. -/
theorem takeData_none_length {k : Nat} {stream : List Byte} (h : takeData k stream = none) :
    stream.length < 2 * k := by
  induction k generalizing stream with
  | zero => cases h
  | succ k ih =>
    rcases stream with _ | ⟨b, bs⟩
    · simp
    · simp only [takeData] at h
      split at h
      · rcases bs with _ | ⟨c, bs⟩
        · simp only [List.length_cons, List.length_nil]; omega
        · have := ih (Option.map_eq_none_iff.mp h)
          simp only [List.length_cons]; omega
      · have := ih (Option.map_eq_none_iff.mp h)
        simp only [List.length_cons]; omega

/-- The most bytes a command pulls from ECH. -/
def pullBound : Instr → Nat
  | .readBits _ => 6
  | _ => 0

theorem Ends.pulls {s t : State} {i : Instr} (h : Ends s i t) :
    ∃ pulled, s.chan.ech.bytes = pulled ++ t.chan.ech.bytes ∧ pulled.length ≤ pullBound i := by
  cases h with
  | bitsRead _ _ hhi hd =>
    obtain ⟨pulled, happend, hlen⟩ := takeData_some_length hd
    exact ⟨pulled, happend, by rw [pullBound]; omega⟩
  | pullFailed _ _ hhi hd | pullSilent _ _ _ _ hhi hd =>
    have hlen := takeData_none_length hd
    exact ⟨s.chan.ech.bytes, (List.append_nil _).symm, by rw [pullBound]; omega⟩
  | _ => exact ⟨[], rfl, Nat.zero_le _⟩

/-- The most bytes a command pulls from FCH (R149). -/
def loadBound (s : State) : Instr → Nat
  | .frameLoad => s.frameBytes
  | _ => 0

theorem Ends.loads {s t : State} {i : Instr} (h : Ends s i t) :
    ∃ loaded, s.chan.fch.bytes = loaded ++ t.chan.fch.bytes ∧ loaded.length ≤ loadBound s i := by
  cases h with
  | frameLoaded =>
    exact ⟨_, (List.take_append_drop ..).symm, List.length_take_le ..⟩
  | frameMissing _ _ hlen | framePullFailed _ _ hlen | framePullSilent _ _ hlen =>
    exact ⟨s.chan.fch.bytes, (List.append_nil _).symm, hlen.le⟩
  | _ => exact ⟨[], rfl, Nat.zero_le _⟩

/-! ### How many bytes the writer pushes (R106 (e)) -/

theorem stuff_length_lt {data : List Byte} (h : ∃ b ∈ data, b ≠ 0xFF#8) :
    (stuff data).length < 2 * data.length := by
  obtain ⟨b, hmem, hb⟩ := h
  obtain ⟨xs, ys, rfl⟩ := List.append_of_mem hmem
  have hx := stuff_length_le xs
  have hy := stuff_length_le ys
  rw [stuff_append, stuff_cons, stuff_singleton, if_neg hb]
  simp only [List.length_append, List.length_cons, List.length_nil]
  omega

/-- A bit string is that of the number it stands for. -/
theorem bitString_natOfBits (bits : List Bool) : bitString bits.length (natOfBits bits) = bits := by
  induction bits with
  | nil => rfl
  | cons b bits ih =>
    have hlt := natOfBits_lt bits
    rw [natOfBits_cons, List.length_cons, bitString]
    congr 1
    · rw [Nat.mul_comm, Nat.testBit_two_pow_mul_add _ hlt]
      cases b <;> simp
    · refine (bitString_congr fun i hi => ?_).trans ih
      rw [Nat.mul_comm, Nat.testBit_two_pow_mul_add _ hlt, if_pos hi]

/-- The bits of a byte made of eight bits. -/
theorem bitString_ofNat_natOfBits {bits : List Bool} (h : bits.length = 8) :
    bitString 8 (BitVec.ofNat 8 (natOfBits bits)).toNat = bits := by
  rw [BitVec.toNat_ofNat, Nat.mod_eq_of_lt (h ▸ natOfBits_lt bits), ← h, bitString_natOfBits]

/-- Cutting a payload into bytes loses no bit (R63). -/
theorem byteBits_cutBytes (bits : List Bool) :
    byteBits (cutBytes bits).1 ++ (cutBytes bits).2 = bits := by
  induction bits using cutBytes.induct with
  | case1 b7 b6 b5 b4 b3 b2 b1 b0 rest ih =>
    rw [cutBytes, byteBits_cons, bitString_ofNat_natOfBits rfl, List.append_assoc, ih]
    rfl
  | case2 bits hshort =>
    rw [cutBytes]
    · rfl
    · exact hshort

/-- A byte of a payload that has a zero bit is no marker. -/
theorem exists_ne_marker_of_false_mem {data : List Byte} (h : false ∈ byteBits data) :
    ∃ b ∈ data, b ≠ 0xFF#8 := by
  obtain ⟨b, hb, hfalse⟩ := List.mem_flatMap.mp h
  refine ⟨b, hb, ?_⟩
  rintro rfl
  exact absurd hfalse (by decide)

/-- Above its 16 bits a field is zero (R102, D11). -/
theorem bitString_half_of_gt {n : Nat} (hn : 16 < n) (bits : Half) :
    ∃ rest, bitString n bits.toNat = (bitString (n - 17) 0 ++ [false]) ++ rest := by
  have hzero : bits.toNat >>> 16 = 0 := by
    rw [Nat.shiftRight_eq_div_pow, Nat.div_eq_of_lt bits.isLt]
  have hsplit := bitString_add (n - 17 + 1) 16 bits.toNat
  rw [show n - 17 + 1 + 16 = n by omega, hzero, bitString_add (n - 17) 1] at hsplit
  exact ⟨_, hsplit⟩

/-- Three bytes of one WRITE_BITS hold a zero of the field above its 16 bits, so not all of them are
markers. -/
theorem writeCut_stuff_length {s : State} (hs : Canonical s) (bits : Half) {n : Nat} (hn : n ≤ 24) :
    (stuff (writeCut s bits n).1).length ≤ 5 := by
  obtain ⟨hlen, -⟩ := writerLeft_writeBits_spec hs bits hn
  obtain ⟨hcnt, -⟩ := hs
  by_cases hthree : (writeCut s bits n).1.length = 3
  · have hfield : 16 < n := by omega
    obtain ⟨rest, hbits⟩ := bitString_half_of_gt hfield bits
    have hcut := byteBits_cutBytes (heldBits s ++ bitString n bits.toNat)
    have hprefix : heldBits s ++ (bitString (n - 17) 0 ++ [false]) <+:
        byteBits (writeCut s bits n).1 := by
      refine List.prefix_of_prefix_length_le (l₃ := heldBits s ++ bitString n bits.toNat) ?_
        ⟨_, hcut⟩ ?_
      · rw [hbits]
        exact (List.prefix_append_right_inj _).mpr (List.prefix_append ..)
      · simp only [List.length_append, heldBits_length, bitString_length, List.length_singleton,
          byteBits_length]
        omega
    have hlt := stuff_length_lt (exists_ne_marker_of_false_mem (hprefix.subset (by simp)))
    omega
  · have hle := stuff_length_le (writeCut s bits n).1
    omega

theorem writerStream_flush_length {s : State} (hs : Canonical s) :
    (writerStream .flush s).length ≤ 1 := by
  rw [writerStream_flush hs, flushData]
  split <;> simp

/-- The most bytes a command pushes. -/
def pushBound : Instr → Nat
  | .writeBits _ _ => 5
  | .flush => 1
  | _ => 0

theorem writerStream_length_le {i : Instr} (hi : Writes i) {s : State} (hs : Canonical s) :
    (writerStream i s).length ≤ pushBound i := by
  cases hi with
  | bits bits hlo hhi =>
    rw [writerStream_writeBits hs bits hhi]
    exact writeCut_stuff_length hs bits hhi
  | flush => exact writerStream_flush_length hs

theorem Ends.pushes_few {s t : State} {i : Instr} (h : Ends s i t) (hs : Canonical s) :
    ∃ pushed, t.chan.sinkOut = s.chan.sinkOut ++ pushed ∧ pushed.length ≤ pushBound i := by
  obtain hnone | ⟨hi, hall⟩ | ⟨hi, -, bs, hbs, hpart⟩ := h.pushes
  · exact ⟨[], hnone.trans (List.append_nil _).symm, Nat.zero_le _⟩
  · exact ⟨_, hall, writerStream_length_le hi hs⟩
  · exact ⟨bs, hpart, hbs.length_le.trans (writerStream_length_le hi hs)⟩

end Sys2Proof.Machine
end

section
/-! PROOFS. The statements about silent channels, discarded bytes and bounds. -/

namespace Sys2Proof.Proofs

open Sys2Proof.Machine
open Sys2Proof.Safety

/-- Settles O29: the fill has pulled all bytes there are, and nothing else has changed but ACC and CNT. -/
theorem readerWaitsForASilentChannel : Obligations.ReaderWaitsForASilentChannel := by
  intro s n h _ hlo hhi hd he
  obtain ⟨hends, -⟩ | ⟨-, a, c, hexec⟩ := exec_readBits_stopped h hlo hhi hd
  · exact absurd he hends
  · have hframe : ContextOnly (s.withEch { s.chan.ech with bytes := [] })
        (hang s.chan (s.echConsumed.withContext a c)) := ⟨rfl, rfl⟩
    obtain ⟨hech, hmode, hsink, houtside⟩ := hframe.keepsRest
    exact ⟨_, hexec, he ▸ hech, ⟨rfl, rfl⟩, ⟨rfl, rfl⟩, hmode, hsink, houtside⟩

/-- Settles O30: one round passes both bytes, and leaves the same state whatever the second is. -/
theorem stuffedByteIsNotLookedAt : Obligations.StuffedByteIsNotLookedAt := by
  intro s u n c d rest hn hb hu t v h hlo hhi ht hv
  obtain ⟨k, hk⟩ : ∃ k, (n - s.cnt.toNat + 7) / 8 = k + 1 :=
    ⟨(n - s.cnt.toNat + 7) / 8 - 1, by omega⟩
  have hub : u.chan.ech.bytes = 0xFF#8 :: d :: rest := by rw [hu]
  have hucnt : u.cnt = s.cnt := by rw [hu]
  have huopen : OpenIn .read u := by rwa [hu]
  have hsame : (appendByte 0xFF#8 u).withEch { u.chan.ech with bytes := rest } =
      (appendByte 0xFF#8 s).withEch { s.chan.ech with bytes := rest } := by rw [hu]; rfl
  rw [exec_readBits_legal h hlo hhi, fill, hk, fillRounds, fillByte_marker _ hb] at ht
  rw [exec_readBits_legal huopen hlo hhi, fill, hucnt, hk, fillRounds, fillByte_marker _ hub,
    hsame] at hv
  obtain rfl := Host.Outcome.next.inj ht
  obtain rfl := Host.Outcome.next.inj hv
  have heq := (startBlind_fillRounds k ((appendByte 0xFF#8 s).withEch
    { s.chan.ech with bytes := rest })).finish_eq u.chan s.chan (extractAndRespond n)
  have hkept {α : Type} (f : State → α) := congrArg f heq
  exact ⟨(hkept (·.responses)).symm, ⟨hkept (·.acc), hkept (·.cnt)⟩,
    ⟨hkept (·.cause), hkept (·.detail)⟩, hkept (·.chan.ech)⟩

/-- Settles O32: each stream is moved by the commands of its own part only, and by those few. -/
theorem commandsMoveBoundedlyManyBytes : Obligations.CommandsMoveBoundedlyManyBytes := by
  intro s t i hs ht
  have hends := ends_of_exec ht
  obtain ⟨pushed, hpushed, hfewPushed⟩ := hends.pushes_few hs
  obtain ⟨pulled, hpulled, hfewPulled⟩ := hends.pulls
  obtain ⟨loaded, hloaded, hfewLoaded⟩ := hends.loads
  refine ⟨pushed, pulled, loaded, hpushed, hpulled, hloaded, ?_⟩
  have hnone {bytes : List Byte} (h : bytes.length ≤ 0) : bytes = [] :=
    List.eq_nil_of_length_eq_zero (Nat.le_zero.mp h)
  cases i with
  | writeBits | flush => exact ⟨hfewPushed, hnone hfewPulled, hnone hfewLoaded⟩
  | readBits => exact ⟨hnone hfewPushed, hfewPulled, hnone hfewLoaded⟩
  | frameLoad => exact ⟨hnone hfewPushed, hnone hfewPulled, hfewLoaded⟩
  | openCtx | wrreg | rdreg => exact ⟨hnone hfewPushed, hnone hfewPulled, hnone hfewLoaded⟩

end Sys2Proof.Proofs
end

section
/-! PROOFS. The round trip of writer and reader (spec/41_reader.md R126): both commands move bits between
the held bits and the stream, so runs of them compose. -/

namespace Sys2Proof.Machine

open Sys2Proof.Safety

/-- The payload of a list of fields (R126 (b)). -/
def fieldBits (fields : List (Half × Nat)) : List Bool :=
  fields.flatMap fun f => bitString f.2 f.1.toNat

theorem fieldBits_cons (f : Half × Nat) (fields : List (Half × Nat)) :
    fieldBits (f :: fields) = bitString f.2 f.1.toNat ++ fieldBits fields := rfl

theorem fieldBits_length (fields : List (Half × Nat)) :
    (fieldBits fields).length = (fields.map Prod.snd).sum := by
  induction fields with
  | nil => rfl
  | cons f fields ih => simp [fieldBits_cons, ih]

theorem execAll_cons {i : Instr} {rest : List Instr} {s t : State} (h : exec i s = .next t) :
    execAll (i :: rest) s = execAll rest t := by
  rw [execAll, h]

/-! ### The writer's run (R102 to R105) -/

/-- An open writer with few held bits whose pushes are all accepted. -/
def ReadyWriter (s : State) : Prop :=
  OpenIn .write s ∧ Canonical s ∧ s.chan.sinkPlan = .accepts

/-- From `s` to `t` the writer has taken in `bits`, answering OK `k` times: the held bits and they are now
in the stream and the held bits. -/
def Wrote (bits : List Bool) (k : Nat) (s t : State) : Prop :=
  ReadyWriter t ∧ t.responses = s.responses ++ List.replicate k 0#32 ∧
  ∃ data, t.chan.sinkOut = s.chan.sinkOut ++ stuff data ∧
    heldBits s ++ bits = byteBits data ++ heldBits t

theorem Wrote.trans {bits more : List Bool} {j k : Nat} {s t u : State} (h : Wrote bits j s t)
    (g : Wrote more k t u) : Wrote (bits ++ more) (j + k) s u := by
  obtain ⟨-, hresponses, data, hout, hbits⟩ := h
  obtain ⟨hready, gresponses, data', gout, gbits⟩ := g
  refine ⟨hready, ?_, data ++ data', ?_, ?_⟩
  · rw [gresponses, hresponses, List.append_assoc, List.replicate_append_replicate]
  · rw [gout, hout, List.append_assoc, stuff_append]
  · rw [← List.append_assoc, hbits, List.append_assoc, gbits, byteBits_append, List.append_assoc]

/-- One WRITE_BITS takes in its field (R102). -/
theorem exec_writeBits_wrote {s : State} (hs : ReadyWriter s) (bits : Half) {n : Nat} (hn : n ≤ 24) :
    ∃ t, exec (.writeBits bits n) s = .next t ∧ Wrote (bitString n bits.toNat) 1 s t := by
  obtain ⟨hopen, hcanonical, hplan⟩ := hs
  rcases Nat.eq_zero_or_pos n with rfl | hpos
  · exact ⟨_, exec_writeBits_zero hopen bits, ⟨hopen, hcanonical, hplan⟩, rfl, [],
      (List.append_nil _).symm, List.append_nil _⟩
  · have hexec := exec_writer_accepted (.bits bits hpos hn) hopen (by rw [hplan]; rfl)
    obtain ⟨-, hheld, -, hleft⟩ := writerLeft_writeBits_spec hcanonical bits hn
    obtain ⟨a, c, heq⟩ := writerLeft_eq_withContext (.writeBits bits n) s
    rw [heq] at hexec hheld hleft
    refine ⟨_, hexec, ⟨hopen, hleft, ?_⟩, rfl, (writeCut s bits n).1, ?_, ?_⟩
    · exact congrArg (SinkPlan.after _) hplan
    · exact congrArg (s.chan.sinkOut ++ ·) (writerStream_writeBits hcanonical bits hn)
    · exact (byteBits_cutBytes _).symm.trans (congrArg (_ ++ ·) hheld.symm)

/-- FLUSH takes in the zeros that fill the byte, and leaves no bit held (R105). -/
theorem exec_flush_wrote {s : State} (hs : ReadyWriter s) :
    ∃ t pad, exec .flush s = .next t ∧ pad ≤ 7 ∧ Wrote (List.replicate pad false) 1 s t ∧
      heldBits t = [] := by
  obtain ⟨hopen, hcanonical, hplan⟩ := hs
  have hexec := exec_writer_accepted .flush hopen (by rw [hplan]; rfl)
  have hready : ReadyWriter
      (respondOk 0 ((writerLeft .flush s).pushed (writerStream .flush s))) :=
    ⟨hopen, canonical_of_empty rfl rfl, congrArg (SinkPlan.after _) hplan⟩
  by_cases hc : s.cnt.toNat > 0
  · have hbyte : byteBits [paddedByte s] =
        heldBits s ++ List.replicate (8 - s.cnt.toNat) false := by
      rw [byteBits_cons, byteBits_nil, List.append_nil, paddedByte_eq hcanonical.2,
        bitString_ofNat_natOfBits]
      have := hcanonical.1
      simp only [List.length_append, heldBits_length, List.length_replicate]
      omega
    refine ⟨_, 8 - s.cnt.toNat, hexec, by omega, ⟨hready, rfl, [paddedByte s], ?_, ?_⟩, rfl⟩
    · exact congrArg (s.chan.sinkOut ++ ·) (if_pos hc)
    · exact hbyte.symm.trans (List.append_nil _).symm
  · have hnone : heldBits s = [] := List.eq_nil_of_length_eq_zero (by simp; omega)
    refine ⟨_, 0, hexec, by omega, ⟨hready, rfl, [], ?_, ?_⟩, rfl⟩
    · exact congrArg (s.chan.sinkOut ++ ·) (if_neg hc)
    · rw [hnone]
      rfl

/-- The WRITE_BITS of a list of fields and a FLUSH take in the fields and the padding. -/
theorem execAll_writeFields_wrote {fields : List (Half × Nat)} (hfields : ∀ f ∈ fields, f.2 ≤ 24)
    {s : State} (hs : ReadyWriter s) :
    ∃ t pad, execAll (writeFields fields) s = .next t ∧ pad ≤ 7 ∧
      Wrote (fieldBits fields ++ List.replicate pad false) (fields.length + 1) s t ∧
      heldBits t = [] := by
  induction fields generalizing s with
  | nil =>
    obtain ⟨t, pad, hexec, hrest⟩ := exec_flush_wrote hs
    exact ⟨t, pad, execAll_cons hexec, hrest⟩
  | cons f fields ih =>
    obtain ⟨hf, hrest⟩ := List.forall_mem_cons.mp hfields
    obtain ⟨t, hexec, hwrote⟩ := exec_writeBits_wrote hs f.1 hf
    obtain ⟨u, pad, hrun, hpad, hmore, hempty⟩ := ih hrest hwrote.1
    refine ⟨u, pad, (execAll_cons hexec).trans hrun, hpad, ?_, hempty⟩
    rw [fieldBits_cons, List.append_assoc, List.length_cons, Nat.add_right_comm, Nat.add_comm _ 1]
    exact hwrote.trans hmore

/-! ### The reader's run (R123, R124) -/

/-- An open reader with few held bits that has `bits` to come, held and before `more` on ECH. -/
def ReaderHas (bits : List Bool) (more : List Byte) (s : State) : Prop :=
  OpenIn .read s ∧ Canonical s ∧
  ∃ data, s.chan.ech.bytes = stuff data ++ more ∧ heldBits s ++ byteBits data = bits

/-- A stuffed stream gives any number of its data bytes. -/
theorem takeData_stuff_of_le {k : Nat} {data : List Byte} (h : k ≤ data.length) (more : List Byte) :
    takeData k (stuff data ++ more) = some (data.take k, stuff (data.drop k) ++ more) := by
  have hsplit := takeData_stuff (data.take k) (stuff (data.drop k) ++ more)
  rwa [← List.append_assoc, ← stuff_append, List.take_append_drop, List.length_take_of_le h]
    at hsplit

/-- Where two lists start alike, one start is cut from the other. -/
theorem take_drop_of_append_eq {xs ys as bs : List Bool} (h : xs ++ ys = as ++ bs)
    (hle : as.length ≤ xs.length) :
    xs.take as.length = as ∧ xs.drop as.length ++ ys = bs := by
  constructor
  · rw [← List.take_append_of_le_length hle (l₂ := ys), h, List.take_left]
  · rw [← List.drop_append_of_le_length hle, h, List.drop_left]

theorem openIn_of_kept {d : Dir} {s t : State} (hfault : KeepsFault s t) (hmode : KeepsMode s t)
    (h : OpenIn d s) : OpenIn d t := by
  obtain ⟨hcause, -⟩ := hfault
  obtain ⟨hopened, hdir⟩ := hmode
  rwa [OpenIn, NoFault, hcause, hopened, hdir]

/-- READ_BITS answers the field that comes first (R124). -/
theorem exec_readBits_field {s : State} {n v : Nat} {rest : List Bool} {more : List Byte}
    (hs : ReaderHas (bitString n v ++ rest) more s) (hlo : 1 ≤ n) (hhi : n ≤ 24) :
    ∃ t, exec (.readBits n) s = .next t ∧
      t.responses = s.responses ++ [BitVec.ofNat 32 (v % 2 ^ n)] ∧ ReaderHas rest more t := by
  obtain ⟨hopen, hcanonical, data, hstream, hbits⟩ := hs
  have hlen := congrArg List.length hbits
  simp only [List.length_append, heldBits_length, byteBits_length, bitString_length] at hlen
  obtain ⟨k, hk⟩ : ∃ k, k = (n - s.cnt.toNat + 7) / 8 := ⟨_, rfl⟩
  have hle : k ≤ data.length := by omega
  have hdata : takeData ((n - s.cnt.toNat + 7) / 8) s.chan.ech.bytes =
      some (data.take k, stuff (data.drop k) ++ more) := by
    rw [← hk, hstream, takeData_stuff_of_le hle]
  obtain ⟨t, hexec, hech, hword, hheld, -, ht, hfault, hmode, -⟩ :=
    Proofs.readPullsBytesAndReturnsTheOldestBits s n _ _ hopen hcanonical hlo hhi hdata
  have hsplit : (heldBits s ++ byteBits (data.take k)) ++ byteBits (data.drop k) =
      bitString n v ++ rest := by
    rw [List.append_assoc, ← byteBits_append, List.take_append_drop, hbits]
  obtain ⟨hfield, hrest⟩ := take_drop_of_append_eq hsplit (by
    simp only [List.length_append, heldBits_length, byteBits_length, bitString_length,
      List.length_take_of_le hle]
    omega)
  rw [bitString_length] at hfield hrest
  rw [hfield, natOfBits_bitString] at hword
  obtain ⟨hresponses, -⟩ := hword
  exact ⟨t, hexec, hresponses, openIn_of_kept hfault hmode hopen, ht, data.drop k,
    congrArg Source.bytes hech, hheld ▸ hrest⟩

theorem readFields_cons (f : Half × Nat) (fields : List (Half × Nat)) :
    readFields (f :: fields) =
      if f.2 = 0 then readFields fields else .readBits f.2 :: readFields fields := by
  by_cases h : f.2 = 0 <;> simp [readFields, h]

theorem fieldValues_cons (f : Half × Nat) (fields : List (Half × Nat)) :
    fieldValues (f :: fields) =
      if f.2 = 0 then fieldValues fields
      else BitVec.ofNat 32 (f.1.toNat % 2 ^ f.2) :: fieldValues fields := by
  by_cases h : f.2 = 0 <;> simp [fieldValues, h]

/-- The READ_BITS of a list of fields answer the fields that come first. -/
theorem execAll_readFields {fields : List (Half × Nat)} (hfields : ∀ f ∈ fields, f.2 ≤ 24)
    {s : State} {rest : List Bool} {more : List Byte}
    (hs : ReaderHas (fieldBits fields ++ rest) more s) :
    ∃ t, execAll (readFields fields) s = .next t ∧
      t.responses = s.responses ++ fieldValues fields ∧ ReaderHas rest more t := by
  induction fields generalizing s with
  | nil => exact ⟨s, rfl, (List.append_nil _).symm, hs⟩
  | cons f fields ih =>
    obtain ⟨hf, hmore⟩ := List.forall_mem_cons.mp hfields
    rw [fieldBits_cons, List.append_assoc] at hs
    rw [readFields_cons, fieldValues_cons]
    by_cases hzero : f.2 = 0
    · rw [hzero] at hs
      rw [if_pos hzero, if_pos hzero]
      exact ih hmore hs
    · obtain ⟨t, hexec, hword, ht⟩ := exec_readBits_field hs (Nat.one_le_iff_ne_zero.mpr hzero) hf
      obtain ⟨u, hrun, hwords, hu⟩ := ih hmore ht
      rw [if_neg hzero, if_neg hzero]
      refine ⟨u, (execAll_cons hexec).trans hrun, ?_, hu⟩
      rw [hwords, hword, List.append_assoc]
      rfl

/-- A reader that has fewer than eight zeros to come holds them all. -/
theorem readerHas_zeros {s : State} {pad : Nat} {more : List Byte} (hpad : pad ≤ 7)
    (hs : ReaderHas (List.replicate pad false) more s) :
    s.chan.ech.bytes = more ∧ s.acc = 0 ∧ s.cnt.toNat = pad := by
  obtain ⟨-, ⟨-, hacc⟩, data, hstream, hbits⟩ := hs
  have hlen := congrArg List.length hbits
  simp only [List.length_append, heldBits_length, byteBits_length, List.length_replicate] at hlen
  obtain rfl : data = [] := List.eq_nil_of_length_eq_zero (by omega)
  rw [byteBits_nil, List.append_nil] at hbits
  have hvalue := congrArg natOfBits hbits
  rw [heldBits, natOfBits_bitString, Nat.mod_eq_of_lt hacc, natOfBits_replicate_false] at hvalue
  exact ⟨hstream, BitVec.eq_of_toNat_eq hvalue, by simpa using hlen⟩

theorem heldBits_of_empty {s : State} (hcnt : s.cnt = 0) : heldBits s = [] := by
  rw [heldBits, hcnt]
  rfl

end Sys2Proof.Machine
end

section
/-! PROOFS. The statement of the round trip (spec/41_reader.md R126). -/

namespace Sys2Proof.Proofs

open Sys2Proof.Machine
open Sys2Proof.Safety

/-- Settles O31: the stream's data bits are the fields and the padding, which the reader gives back in
order; their number fixes the padding. -/
theorem roundTripGivesTheFieldsBack : Obligations.RoundTripGivesTheFieldsBack := by
  intro fields a hfields hopen hacc hcnt hplan
  obtain ⟨t, pad, hexec, hpad, ⟨-, hresponses, data, hout, hbits⟩, hempty⟩ :=
    execAll_writeFields_wrote hfields ⟨hopen, canonical_of_empty hacc hcnt, hplan⟩
  rw [heldBits_of_empty hcnt, hempty, List.nil_append, List.append_nil] at hbits
  refine ⟨t, stuff data, hexec, hout, hresponses, fun b more hbopen hbacc hbcnt hstream => ?_⟩
  have hhas : ReaderHas (fieldBits fields ++ List.replicate pad false) more b := by
    refine ⟨hbopen, canonical_of_empty hbacc hbcnt, data, hstream, ?_⟩
    rw [heldBits_of_empty hbcnt, List.nil_append, hbits]
  obtain ⟨u, hrun, hwords, hu⟩ := execAll_readFields hfields hhas
  obtain ⟨hmore, huacc, hucnt⟩ := readerHas_zeros hpad hu
  obtain ⟨⟨huf, -⟩, -⟩ := hu
  refine ⟨u, hrun, hwords, huf, hmore, huacc, ?_⟩
  have hlen := congrArg List.length hbits
  rw [List.length_append, fieldBits_length, List.length_replicate, byteBits_length] at hlen
  omega

end Sys2Proof.Proofs
end
